-- ==== Sys2Proof/Word.lean ====
section
/-! DEFINITION. The word type of the engine and the names of the two levels of a line (00_scope.md R9, R10, R13). -/

namespace Sys2Proof

/-- One byte transferred, one register, one decoded field value (`DATA_W = 8`, R9, R10). All values are unsigned (R11). -/
abbrev Byte := BitVec 8

/-- The 5-bit register address field of a command byte (`ADDR_W = 5`, R9). -/
abbrev Address := BitVec 5

/-- A level the engine drives or samples on a line (R13). -/
inductive Level where
  | low
  | high
deriving DecidableEq, Repr, Inhabited

end Sys2Proof
end

