-- ==== Sys2Proof/Config.lean ====
section
/-! DEFINITION. The parameters of 00_scope.md R9 as one plain record, and the free values: constants without a body, of
which no proof can know anything. -/

namespace Sys2Proof

/-- The eight times of 00_scope.md R9, in one unit the spec leaves open. -/
structure Timing where
  tDC : Nat
  tCDH : Nat
  tCH : Nat
  tCL : Nat
  tCDD : Nat
  tCC : Nat
  tCCH : Nat
  tCWH : Nat
deriving DecidableEq, Repr, Inhabited

/-- The OPEN parameters of 00_scope.md R9: arguments of the model, which no step writes (log entry 4). -/
structure Params where
  /-- `CE_ACTIVE_LEVEL`: the level that asserts chip-enable. -/
  ceActive : Level
  timing : Timing
  /-- `PIN_CAN_FAIL`. -/
  pinCanFail : Bool
  /-- `DELAY_CAN_FAIL`. -/
  delayCanFail : Bool
deriving DecidableEq, Repr, Inhabited

/-- What the platform and the device answer to one primitive call: whether it fails (10_state.md R28), and the bit a
sample gives (R31). -/
structure Draw where
  fails : Bool
  bit : Bool
deriving DecidableEq, Repr, Inhabited

/-- FREE VALUE (log entry 3): the draw of the primitive call with this number, where the state carries none. -/
opaque Config.freeDraw : Nat → Draw

/-- FREE VALUE (log entry 4): `CE_ACTIVE_LEVEL` has no value in the spec (R9, 92_eei_decisions.md D4). -/
opaque Config.ceActiveLevel : Level

/-- FREE VALUE (log entry 4): the times have no values in the spec (R9, 92_eei_decisions.md D5). -/
opaque Config.timing : Timing

end Sys2Proof
end

