-- ==== Sys2Proof/Syntax.lean ====
section
/-! DEFINITION. The operations the caller may invoke (30_encoding.md R80) and the three command classes the engine never
emits (R82), one constructor of `Instr` for each row of spec/opcode_table.json. -/

namespace Sys2Proof

/-- The direction argument of `set_data_direction` (40_transport.md R103). -/
inductive Direction where
  | output
  | input
deriving DecidableEq, Repr

/-- The direction bit of a command byte: 0 = write, 1 = read (30_encoding.md R71). -/
inductive Access where
  | write
  | read
deriving DecidableEq, Repr

/-- The mode argument of `write_hours` (42_time_fields.md R155). -/
inductive HourMode where
  | h24
  | h12 (pm : Bool)
deriving DecidableEq, Repr

/-- An argument of a call in a transaction body: a literal, or the result of an earlier call of the same body, by its
place counted from 0 (30_encoding.md R81: "literals or bound names"). -/
inductive Arg where
  | lit (v : Byte)
  | result (k : Nat)
deriving DecidableEq, Repr

/-- The operations a transaction body may not call (40_transport.md R106). -/
inductive BarredOp where
  | transaction
  | init
  | readRegister
  | writeRegister
  | readSeconds
  | readMinutes
  | readHours
  | writeSeconds
  | writeMinutes
  | writeHours
deriving DecidableEq, Repr

/-- One call in a transaction body (40_transport.md R106). A barred call makes the whole transaction refused before any
event, so its arguments are not kept. -/
inductive BodyCall where
  | writeByte (v : Arg)
  | readByte
  | setDataDirection (d : Direction)
  | decodeBcd (raw : Arg)
  | encodeBcd (v : Arg)
  | barred (op : BarredOp)
deriving DecidableEq, Repr

/-- The body of a transaction: a finite sequence of calls and what it returns (40_transport.md R106). No returned
argument is `return ()`, one is `return b`. DESIGN CHOICE (log entry 10): the written form of a body. -/
structure Body where
  calls : List BodyCall
  returns : List Arg
deriving DecidableEq, Repr

/-- One constructor for each row of spec/opcode_table.json. -/
inductive Instr where
  /-- `init` (R100). -/
  | init
  /-- `set_data_direction(d)` (R103). -/
  | setDataDirection (d : Direction)
  /-- `write_byte(v)` (R104). -/
  | writeByte (v : Byte)
  /-- `read_byte()` (R105). -/
  | readByte
  /-- `transaction(body)` (R106). -/
  | transaction (body : Body)
  /-- `read_register(a)`, `a` a natural number (R130, R131). -/
  | readRegister (a : Nat)
  /-- `write_register(a, v)` (R132). -/
  | writeRegister (a : Nat) (v : Byte)
  /-- `decode_bcd(raw)` (R133). -/
  | decodeBcd (raw : Byte)
  /-- `encode_bcd(v)` (R134). -/
  | encodeBcd (v : Byte)
  /-- `read_seconds()` (R150). -/
  | readSeconds
  /-- `read_minutes()` (R151). -/
  | readMinutes
  /-- `read_hours()` (R152). -/
  | readHours
  /-- `write_seconds(v, ch)` (R153). -/
  | writeSeconds (v : Byte) (ch : Bool)
  /-- `write_minutes(v)` (R154). -/
  | writeMinutes (v : Byte)
  /-- `write_hours(h, m)` (R155). -/
  | writeHours (h : Byte) (m : HourMode)
  /-- A command byte `0xxxxxxx` (R82, class IGNORED). -/
  | ignoredCommand (x : BitVec 7)
  /-- A command byte `11aaaaa0` (R82, class RAM_WRITE). -/
  | ramWriteCommand (a : Address)
  /-- A command byte `11aaaaa1` (R82, class RAM_READ). -/
  | ramReadCommand (a : Address)
deriving DecidableEq, Repr

end Sys2Proof
end

