-- ==== Sys2Proof/WellFormed.lean ====
section
/-! DEFINITION. Which instructions are well formed: arguments in the ranges of 30_encoding.md R79 and R80, and transaction
bodies that call what R106 lets them call. An instruction that is not well formed still has a meaning: the refusal R185
names. -/

namespace Sys2Proof

/-- The call binds a byte that later calls may name. -/
def BodyCall.yields : BodyCall → Bool
  | .writeByte _ => false
  | .readByte => true
  | .setDataDirection _ => false
  | .decodeBcd _ => true
  | .encodeBcd _ => true
  | .barred _ => false

/-- The call is one a body may not make (R106). -/
def BodyCall.isBarred : BodyCall → Bool
  | .barred _ => true
  | .writeByte _ | .readByte | .setDataDirection _ | .decodeBcd _ | .encodeBcd _ => false

/-- The arguments of a call. -/
def BodyCall.args : BodyCall → List Arg
  | .writeByte v => [v]
  | .readByte => []
  | .setDataDirection _ => []
  | .decodeBcd raw => [raw]
  | .encodeBcd v => [v]
  | .barred _ => []

/-- A named argument is bound by a call among those before it that yields a byte. -/
def Arg.bound (before : List BodyCall) : Arg → Bool
  | .lit _ => true
  | .result k => (before[k]?).any BodyCall.yields

/-- Every call's arguments are bound by the calls before it. -/
def callsBound (before : List BodyCall) : List BodyCall → Bool
  | [] => true
  | c :: cs => c.args.all (Arg.bound before) && callsBound (before ++ [c]) cs

/-- Every name a body uses is bound where it is used (30_encoding.md R81). -/
def Body.bound (b : Body) : Bool :=
  callsBound [] b.calls && b.returns.all (Arg.bound b.calls)

/-- The body makes a call that R106 bars. -/
def Body.barred (b : Body) : Bool := b.calls.any BodyCall.isBarred

/-- A bound name fits the one byte its call record has for it (log entry 19). -/
def Arg.fits : Arg → Bool
  | .lit _ => true
  | .result k => decide (k < 256)

/-- Every name of the body fits its call record. -/
def Body.fits (b : Body) : Bool :=
  b.calls.all (fun c => c.args.all Arg.fits) && b.returns.all Arg.fits

/-- The hour argument is in the range of its mode (R79). -/
def HourMode.admits (h : Nat) : HourMode → Bool
  | .h24 => decide (h ≤ 23)
  | .h12 _ => decide (1 ≤ h ∧ h ≤ 12)

/-- The check of an instruction's arguments (R79, R80, R106). -/
def Instr.wf : Instr → Bool
  | .init => true
  | .setDataDirection _ => true
  | .writeByte _ => true
  | .readByte => true
  | .transaction b => !b.barred && b.bound && b.fits
  | .readRegister a => decide (a ≤ 31)
  | .writeRegister a _ => decide (a ≤ 31)
  | .decodeBcd _ => true
  | .encodeBcd v => decide (v.toNat ≤ 99)
  | .readSeconds => true
  | .readMinutes => true
  | .readHours => true
  | .writeSeconds v _ => decide (v.toNat ≤ 59)
  | .writeMinutes v => decide (v.toNat ≤ 59)
  | .writeHours h m => m.admits h.toNat
  | .ignoredCommand _ => true
  | .ramWriteCommand _ => true
  | .ramReadCommand _ => true

end Sys2Proof
end

