-- ==== Sys2Proof/Decode.lean ====
section
/-! DEFINITION. The command byte (30_encoding.md R71, R72), its total classification (R82), and the call records in which the
caller's calls stand: the decoder and then the encoder. The command byte and its classes are the spec's. The record around
them is a DESIGN CHOICE (log entry 2): the spec's `CALL` format (R70) is a name and its arguments, with no bits.

A call record is four bytes: word, selector, and two operand bytes p and q. With selector 0 the word is a command byte and
means its row of the opcode table, the row with the longer match first. The other selectors name the calls that send no
fixed command byte. A transaction's record goes on with its body, three bytes for each entry. -/

namespace Sys2Proof

/-- The classes of command bytes (R82). -/
inductive CommandClass where
  | ignored (x : BitVec 7)
  | ramWrite (a : Address)
  | ramRead (a : Address)
  | clkWrite (a : Address)
  | clkRead (a : Address)
deriving DecidableEq, Repr

/-- The class of a command byte: bit 7 is fixed, bit 6 selects the space, bits 5:1 are the address, bit 0 is the direction
(R71, R82). -/
def classify (b : Byte) : CommandClass :=
  if b.getLsbD 7 then
    let a : Address := b.extractLsb' 1 5
    match b.getLsbD 6, b.getLsbD 0 with
    | true, false => .ramWrite a
    | true, true => .ramRead a
    | false, false => .clkWrite a
    | false, true => .clkRead a
  else .ignored (b.extractLsb' 0 7)

/-- The direction bit of an access (R71). -/
def accessBit : Access → Byte
  | .write => 0
  | .read => 1

/-- `cmd(a, d) = 0x80 | (a << 1) | d` (R72, R130). -/
def cmdByte (a : Nat) (d : Access) : Byte :=
  0x80#8 ||| (BitVec.ofNat 8 a <<< 1) ||| accessBit d

/-- The command byte an operation sends of itself (R80); none for an operation that sends none, or whose address is out of
range (R130). -/
def commandByte : Instr → Option Byte
  | .init => none
  | .setDataDirection _ => none
  | .writeByte _ => none
  | .readByte => none
  | .transaction _ => none
  | .readRegister a => if a ≤ 31 then some (cmdByte a .read) else none
  | .writeRegister a _ => if a ≤ 31 then some (cmdByte a .write) else none
  | .decodeBcd _ => none
  | .encodeBcd _ => none
  | .readSeconds => some (cmdByte 0 .read)
  | .readMinutes => some (cmdByte 1 .read)
  | .readHours => some (cmdByte 2 .read)
  | .writeSeconds _ _ => some (cmdByte 0 .write)
  | .writeMinutes _ => some (cmdByte 1 .write)
  | .writeHours _ _ => some (cmdByte 2 .write)
  | .ignoredCommand _ => none
  | .ramWriteCommand _ => none
  | .ramReadCommand _ => none

/-- Why bytes are no call record. -/
inductive Reject where
  /-- The bytes end inside a record. -/
  | truncated
  /-- The selector names no call. -/
  | unknownSelector
  /-- An operand byte has a value its call does not use. -/
  | badOperand
  /-- The entries after a transaction's record are no body. -/
  | badBodyEntry
deriving DecidableEq, Repr

/-- What the decoder answers: an instruction and the bytes after its record, or a rejection by name. -/
inductive Decoded where
  | ok (i : Instr) (rest : List Byte)
  | reject (r : Reject)
deriving DecidableEq, Repr

/-- A direction from its record byte. -/
def directionOf (b : Byte) : Option Direction :=
  match b.toNat with
  | 0 => some .output
  | 1 => some .input
  | _ => none

/-- A Boolean from its record byte. -/
def flagOf (b : Byte) : Option Bool :=
  match b.toNat with
  | 0 => some false
  | 1 => some true
  | _ => none

/-- An hour mode from its record byte. -/
def hourModeOf (b : Byte) : Option HourMode :=
  match b.toNat with
  | 0 => some .h24
  | 1 => some (.h12 false)
  | 2 => some (.h12 true)
  | _ => none

/-- A barred operation from its record byte. -/
def barredOpOf (b : Byte) : Option BarredOp :=
  match b.toNat with
  | 0 => some .transaction
  | 1 => some .init
  | 2 => some .readRegister
  | 3 => some .writeRegister
  | 4 => some .readSeconds
  | 5 => some .readMinutes
  | 6 => some .readHours
  | 7 => some .writeSeconds
  | 8 => some .writeMinutes
  | 9 => some .writeHours
  | _ => none

/-- An argument of a body call from its kind and value bytes. -/
def argOf (kind v : Byte) : Option Arg :=
  match kind.toNat with
  | 0 => some (.lit v)
  | 1 => some (.result v.toNat)
  | _ => none

/-- A body call from its entry, the code first. Codes 0 and 7 are no calls: they belong to what the body returns. -/
def bodyCallOf (code kind v : Byte) : Option BodyCall :=
  match code.toNat with
  | 1 => (argOf kind v).map .writeByte
  | 2 => if kind = 0 ∧ v = 0 then some .readByte else none
  | 3 => if kind = 0 then (directionOf v).map .setDataDirection else none
  | 4 => (argOf kind v).map .decodeBcd
  | 5 => (argOf kind v).map .encodeBcd
  | 6 => if kind = 0 then (barredOpOf v).map .barred else none
  | _ => none

/-- What a body returns: entries of code 7, then the closing entry of zeros. -/
def decodeReturns : List Byte → Option (List Arg × List Byte)
  | code :: kind :: v :: rest =>
    match code.toNat with
    | 0 => if kind = 0 ∧ v = 0 then some ([], rest) else none
    | 7 =>
      match argOf kind v, decodeReturns rest with
      | some a, some (as, rest') => some (a :: as, rest')
      | _, _ => none
    | _ => none
  | _ => none

/-- A body: the entries of its calls, then what it returns. -/
def decodeBody : List Byte → Option (Body × List Byte)
  | code :: kind :: v :: rest =>
    if code = 0 ∨ code = 7 then
      match decodeReturns (code :: kind :: v :: rest) with
      | some (as, rest') => some (⟨[], as⟩, rest')
      | none => none
    else
      match bodyCallOf code kind v, decodeBody rest with
      | some c, some (b, rest') => some (⟨c :: b.calls, b.returns⟩, rest')
      | _, _ => none
  | _ => none

/-- An instruction read from some operand bytes, or their rejection. -/
def decodedWith (i : Option Instr) (rest : List Byte) : Decoded :=
  match i with
  | some i => .ok i rest
  | none => .reject .badOperand

/-- The instruction, if the operand bytes its record does not use are zero. -/
def whenZero (unused : List Byte) (i : Instr) : Option Instr :=
  if unused.all (· = 0) then some i else none

/-- A record with selector 0: the word is a command byte and means its row of the opcode table (R73, R82). -/
def decodeByTable (word p q : Byte) (rest : List Byte) : Decoded :=
  match classify word with
  | .ignored x => decodedWith (whenZero [p, q] (.ignoredCommand x)) rest
  | .ramWrite a => decodedWith (whenZero [p, q] (.ramWriteCommand a)) rest
  | .ramRead a => decodedWith (whenZero [p, q] (.ramReadCommand a)) rest
  | .clkRead a =>
    match a.toNat with
    | 0 => decodedWith (whenZero [p, q] .readSeconds) rest
    | 1 => decodedWith (whenZero [p, q] .readMinutes) rest
    | 2 => decodedWith (whenZero [p, q] .readHours) rest
    | n => decodedWith (whenZero [p, q] (.readRegister n)) rest
  | .clkWrite a =>
    match a.toNat with
    | 0 => decodedWith ((flagOf q).map (.writeSeconds p)) rest
    | 1 => decodedWith (whenZero [q] (.writeMinutes p)) rest
    | 2 => decodedWith ((hourModeOf q).map (.writeHours p)) rest
    | n => decodedWith (whenZero [q] (.writeRegister n p)) rest

/-- A record whose selector names a call. -/
def decodeRecord (word selector p q : Byte) (rest : List Byte) : Decoded :=
  match selector.toNat with
  | 0 => decodeByTable word p q rest
  | 1 => decodedWith (whenZero [word, p, q] .init) rest
  | 2 => decodedWith ((directionOf word).bind (fun d => whenZero [p, q] (.setDataDirection d))) rest
  | 3 => decodedWith (whenZero [p, q] (.writeByte word)) rest
  | 4 => decodedWith (whenZero [word, p, q] .readByte) rest
  | 5 =>
    if [word, p, q].all (· = 0) then
      match decodeBody rest with
      | some (b, rest') => .ok (.transaction b) rest'
      | none => .reject .badBodyEntry
    else .reject .badOperand
  | 6 => decodedWith (whenZero [p, q] (.readRegister word.toNat)) rest
  | 7 => decodedWith (whenZero [q] (.writeRegister word.toNat p)) rest
  | 8 => decodedWith (whenZero [p, q] (.decodeBcd word)) rest
  | 9 => decodedWith (whenZero [p, q] (.encodeBcd word)) rest
  | _ => .reject .unknownSelector

/-- The first call record of some bytes, total on any bytes. -/
def decode : List Byte → Decoded
  | word :: selector :: p :: q :: rest => decodeRecord word selector p q rest
  | _ => .reject .truncated

/-- The record byte of a direction. -/
def directionByte : Direction → Byte
  | .output => 0
  | .input => 1

/-- The record byte of a Boolean. -/
def flagByte (b : Bool) : Byte := if b then 1 else 0

/-- The record byte of an hour mode. -/
def hourModeByte : HourMode → Byte
  | .h24 => 0
  | .h12 false => 1
  | .h12 true => 2

/-- The record byte of a barred operation. -/
def barredOpByte : BarredOp → Byte
  | .transaction => 0
  | .init => 1
  | .readRegister => 2
  | .writeRegister => 3
  | .readSeconds => 4
  | .readMinutes => 5
  | .readHours => 6
  | .writeSeconds => 7
  | .writeMinutes => 8
  | .writeHours => 9

/-- The two bytes of an argument. -/
def argBytes : Arg → List Byte
  | .lit v => [0, v]
  | .result k => [1, BitVec.ofNat 8 k]

/-- The entry of a body call. -/
def bodyCallBytes : BodyCall → List Byte
  | .writeByte v => 1 :: argBytes v
  | .readByte => [2, 0, 0]
  | .setDataDirection d => [3, 0, directionByte d]
  | .decodeBcd raw => 4 :: argBytes raw
  | .encodeBcd v => 5 :: argBytes v
  | .barred op => [6, 0, barredOpByte op]

/-- The entries of what a body returns, closed by an entry of zeros. -/
def returnBytes : List Arg → List Byte
  | [] => [0, 0, 0]
  | a :: as => (7 :: argBytes a) ++ returnBytes as

/-- The entries of a body's calls, then of what it returns. -/
def bodyBytes (as : List Arg) : List BodyCall → List Byte
  | [] => returnBytes as
  | c :: cs => bodyCallBytes c ++ bodyBytes as cs

/-- The call record of an instruction. A register access to an address 3..31 stands under its command byte; to the
addresses 0, 1 and 2, whose command bytes mean the time operations, and to addresses out of range, under a selector. -/
def encode : Instr → List Byte
  | .init => [0, 1, 0, 0]
  | .setDataDirection d => [directionByte d, 2, 0, 0]
  | .writeByte v => [v, 3, 0, 0]
  | .readByte => [0, 4, 0, 0]
  | .transaction b => [0, 5, 0, 0] ++ bodyBytes b.returns b.calls
  | .readRegister a => if 3 ≤ a ∧ a ≤ 31 then [cmdByte a .read, 0, 0, 0] else [BitVec.ofNat 8 a, 6, 0, 0]
  | .writeRegister a v => if 3 ≤ a ∧ a ≤ 31 then [cmdByte a .write, 0, v, 0] else [BitVec.ofNat 8 a, 7, v, 0]
  | .decodeBcd raw => [raw, 8, 0, 0]
  | .encodeBcd v => [v, 9, 0, 0]
  | .readSeconds => [cmdByte 0 .read, 0, 0, 0]
  | .readMinutes => [cmdByte 1 .read, 0, 0, 0]
  | .readHours => [cmdByte 2 .read, 0, 0, 0]
  | .writeSeconds v ch => [cmdByte 0 .write, 0, v, flagByte ch]
  | .writeMinutes v => [cmdByte 1 .write, 0, v, 0]
  | .writeHours h m => [cmdByte 2 .write, 0, h, hourModeByte m]
  | .ignoredCommand x => [x.setWidth 8, 0, 0, 0]
  | .ramWriteCommand a => [0xC0#8 ||| (a.setWidth 8 <<< 1), 0, 0, 0]
  | .ramReadCommand a => [0xC1#8 ||| (a.setWidth 8 <<< 1), 0, 0, 0]

/-- The `n` lowest bytes of a number, the first the least significant. -/
def bytesOf : Nat → Nat → List Byte
  | 0, _ => []
  | n + 1, w => BitVec.ofNat 8 w :: bytesOf n (w / 256)

/-- A table word of `nbits` bits as a call record: its bytes, then operand bytes of zeros up to the four bytes of a record
(a transaction's record, the only longer one, has no word in the table). -/
def tableRecord (nbits w : Nat) : List Byte :=
  let n := (nbits + 7) / 8
  bytesOf n w ++ List.replicate (4 - n) 0

/-- The instruction the decoder reads from a table word laid out as a call record. -/
def decodeTableWord (nbits w : Nat) : Option Instr :=
  match decode (tableRecord nbits w) with
  | .ok i _ => some i
  | .reject _ => none

end Sys2Proof
end

