-- ==== Sys2Proof/Machine/State.lean ====
section
/-! DEFINITION. The engine's state (10_state.md R21) with the parameters and the free draws, the events of the trace (R26),
the outcomes (60_exceptions.md R180) with the reasons of a refusal (R185), and the reasons a run can stop. -/

namespace Sys2Proof.Machine

/-- The engine's record of something it drives: known, or lost (`Unknown`, 00_scope.md R13). -/
inductive Line (α : Type) where
  | known (a : α)
  | unknown
deriving DecidableEq, Repr

/-- The logical value of chip-enable (R13). -/
inductive CeLevel where
  | asserted
  | deasserted
deriving DecidableEq, Repr

/-- The times a `Delay` is called with (00_scope.md R9; `T_CDH` and `T_CDD` only constrain the others). -/
inductive DelayTime where
  | tDC
  | tCH
  | tCL
  | tCC
  | tCCH
  | tCWH
deriving DecidableEq, Repr

/-- One call of a platform primitive with its arguments (00_scope.md R12). -/
inductive Prim where
  | setClk (l : Level)
  | setCe (c : CeLevel)
  | setDio (l : Level)
  | dir (d : Direction)
  | get
  | wait (t : DelayTime)
deriving DecidableEq, Repr

/-- One event of the trace (R26). A CE event holds the logical value. -/
inductive Event where
  | setClk (l : Level)
  | setCe (c : CeLevel)
  | setDio (l : Level)
  | dir (d : Direction)
  | get (b : Bool)
  | wait (t : DelayTime)
  | fail (p : Prim)
deriving DecidableEq, Repr

/-- The two errors (R181). -/
inductive Error where
  /-- `PinFault(ev)`, `ev` the `Fail(...)` event of the first failing primitive. -/
  | pinFault (ev : Event)
  /-- `InvalidBcdDigit(raw)`. -/
  | invalidBcdDigit (raw : Byte)
deriving DecidableEq, Repr

/-- What an operation returns on `Ok` (30_encoding.md R80). `bytes` is what a transaction body returns when it returns
neither nothing nor one byte. -/
inductive Value where
  | unit
  | byte (b : Byte)
  | hours (h : Byte) (pm : Option Bool)
  | bytes (bs : List Byte)
deriving DecidableEq, Repr

/-- Why a call is refused: the reasons of 60_exceptions.md R185, in the order of its table. -/
inductive Reason where
  /-- read_register and write_register: `a > 31`. -/
  | addressOutOfRange
  /-- encode_bcd: `v > 99`. -/
  | bcdRange
  /-- The time writes: an argument out of the range of 30_encoding.md R79. -/
  | fieldRange
  /-- write_byte and read_byte: no transaction is open. -/
  | outsideTransaction
  /-- write_byte and read_byte: the data line has the other direction, or an unknown one. -/
  | wrongDirection
  /-- write_byte, read_byte and set_data_direction: CLK is High. -/
  | clockNotLow
  /-- transaction and the register and time operations: a transaction is open. -/
  | nestedTransaction
  /-- transaction and the register and time operations: a line field is known and not idle. -/
  | notIdle
  /-- The operations that read line fields: one they read is Unknown. -/
  | lineUnknown
  /-- set_data_direction(Output) in a transaction. -/
  | outputDuringTransaction
  /-- transaction: the body calls an operation it may not (R106). -/
  | badBody
  /-- init in a transaction. -/
  | initInTransaction
deriving DecidableEq, Repr

/-- The outcome an operation returns to the caller (R180). -/
inductive Result where
  | ok (v : Value)
  | err (e : Error)
  | refused (r : Reason)
deriving DecidableEq, Repr

/-- The machine. `ce` to `trace` are the record `S` of R21; `params` are the parameters of 00_scope.md R9; `refused`
is the mark of R185; the last four fields are the model's own (log entries 1, 3 and 5). -/
structure State where
  /-- `S.CE` (R22). -/
  ce : Line CeLevel
  /-- `S.CLK` (R23). -/
  clk : Line Level
  /-- `S.DIR` (R24). -/
  dir : Line Direction
  /-- `S.DOUT` (R24). -/
  dout : Line Level
  /-- `S.TXN` (R25). -/
  txn : Bool
  /-- `S.trace`, oldest event first (R26). -/
  trace : List Event
  /-- The parameters, which no step writes (00_scope.md R9). -/
  params : Params
  /-- The run is marked as refused: some call of it was refused (60_exceptions.md R185). -/
  refused : Bool
  /-- The next answers of platform and device, the next first; once used up, `Config.freeDraw` answers. -/
  draws : List Draw
  /-- How many answers have been used. -/
  drawIx : Nat
  /-- The outcome of the last operation invoked, as the caller received it (60_exceptions.md R194). -/
  outcome : Option Result
  /-- The call records the caller has yet to invoke (60_exceptions.md R194). -/
  calls : List Byte
deriving DecidableEq, Repr

/-- How the machine stops without the spec giving the case. -/
inductive Fault where
  /-- Raised by `step`: the pending bytes are no call record, so no operation is called. Safe: the spec has no such call
  (log entry 18). -/
  | badCall (r : Reject)
deriving DecidableEq, Repr

/-- How a run stops where the spec gives no next state. All are safe: nothing after the stop can be proved. -/
inductive Refusal where
  /-- Raised by `exec` alone, for an instruction without a meaning. Safe. -/
  | notModelled (mnemonic : String)
  /-- Raised by transaction: a call of its body is refused, which leaves CE asserted, and the spec gives no cleanup and no
  device state after it (40_transport.md R106, R185; log entry 6). Safe. -/
  | inBody (r : Reason)
  /-- Raised by transaction: the body uses a name no earlier call binds, so it is no program (log entry 10). Safe. -/
  | unboundName
  /-- Raised by the two RAM command classes: RAM space is out of scope and no operation sends such a command
  (93_implementation_defined.md I5; log entry 8). Safe. -/
  | ramCommand
deriving DecidableEq, Repr

/-- How a part of an operation that calls primitives ends: done, or at its first failing primitive (R182). -/
inductive Ran (α : Type) where
  | ok (a : α) (s : State)
  | fault (ev : Event) (s : State)

/-- How an operation ends (R180): with an outcome for the caller, or with the run stopped. -/
inductive Called (α : Type) where
  | ok (a : α) (s : State)
  | err (e : Error) (s : State)
  | refused (r : Reason)
  | stopped (r : Refusal)

/-- The state at power-on (R21 "before init", 70_reset_and_hazards.md R210), nothing called yet. The parameters that are
OPEN are free values; the failure parameters have the default the spec gives them (R9). The model's own fields: DESIGN
CHOICE (log entries 1, 3, 4 and 5). No call of the run has been refused yet (log entry 6). -/
def State.reset : State where
  ce := .unknown
  clk := .unknown
  dir := .unknown
  dout := .unknown
  txn := false
  trace := []
  params :=
    { ceActive := Config.ceActiveLevel
      timing := Config.timing
      pinCanFail := true
      delayCanFail := true }
  refused := false
  draws := []
  drawIx := 0
  outcome := none
  calls := []

end Sys2Proof.Machine
end

