-- ==== Sys2Proof/Machine/Flags.lean ====
section
/-! DEFINITION. The engine has no condition flags (10_state.md R29). What operations test is the record of the lines: this
file holds those tests, one list of refusal conditions for each operation, in the order of 60_exceptions.md R185's table,
of which the first that holds is reported (R186). -/

namespace Sys2Proof.Machine

/-- The field is known and has another value than its idle one. -/
def knownOther {α : Type} [DecidableEq α] (idle : α) : Line α → Bool
  | .known a => decide (a ≠ idle)
  | .unknown => false

/-- The field is `Unknown`. -/
def isUnknown {α : Type} : Line α → Bool
  | .known _ => false
  | .unknown => true

/-- The reason of the first condition that holds (R186). -/
def firstRefusal : List (Bool × Reason) → Option Reason
  | [] => none
  | (holds, r) :: rest => if holds then some r else firstRefusal rest

/-- `init` (40_transport.md R100). -/
def initRefusals (s : State) : List (Bool × Reason) :=
  [(s.txn, .initInTransaction)]

/-- `set_data_direction` (R103) reads CE and CLK. -/
def directionRefusals (d : Direction) (s : State) : List (Bool × Reason) :=
  [ (decide (s.clk = .known .high), .clockNotLow),
    (isUnknown s.ce || isUnknown s.clk, .lineUnknown),
    (s.txn && decide (d = .output), .outputDuringTransaction) ]

/-- `write_byte` and `read_byte` (R104, R105) need a transaction, their direction of the data line, and CLK Low. A CLK that
is Unknown is `LineUnknown`, as R185's table has it (log entry 9). -/
def byteRefusals (d : Direction) (s : State) : List (Bool × Reason) :=
  [ (!s.txn, .outsideTransaction),
    (decide (s.dir ≠ .known d), .wrongDirection),
    (decide (s.clk = .known .high), .clockNotLow),
    (isUnknown s.clk, .lineUnknown) ]

/-- `transaction` and every register and time operation (R106) need the idle lines and no open transaction. -/
def transactionRefusals (s : State) : List (Bool × Reason) :=
  [ (s.txn, .nestedTransaction),
    (knownOther .deasserted s.ce || knownOther .low s.clk || knownOther .output s.dir, .notIdle),
    (isUnknown s.ce || isUnknown s.clk || isUnknown s.dir, .lineUnknown) ]

/-- A transaction body that bars itself (R106). -/
def bodyRefusals (b : Body) : List (Bool × Reason) :=
  [(b.barred, .badBody)]

/-- `read_register` and `write_register` (41_register_engine.md R130). -/
def addressRefusals (a : Nat) : List (Bool × Reason) :=
  [(decide (31 < a), .addressOutOfRange)]

/-- A time write's argument (30_encoding.md R79). -/
def fieldRefusals (inRange : Bool) : List (Bool × Reason) :=
  [(!inRange, .fieldRange)]

/-- The idle boundary state (40_transport.md R107, 95_test_vectors.md "Idle"). -/
abbrev State.Idle (s : State) : Prop :=
  s.ce = .known .deasserted ∧ s.clk = .known .low ∧ s.dir = .known .output ∧ s.txn = false

end Sys2Proof.Machine
end

