-- ==== Sys2Proof/Machine/Operands.lean ====
section
/-! DEFINITION. The forms of the data: bits of a byte in wire order (20_memory.md R54), BCD (41_register_engine.md R133,
R134), the masks and the assembly of the time fields (30_encoding.md R79), and the arguments of body calls. -/

namespace Sys2Proof.Machine

/-- The level of a data bit: 1 is High, 0 is Low (00_scope.md R13). -/
def levelOf (b : Bool) : Level := if b then .high else .low

/-- The bits of a byte in wire order, least significant first (R54). -/
def bitsOf (v : Byte) : List Bool :=
  [v.getLsbD 0, v.getLsbD 1, v.getLsbD 2, v.getLsbD 3, v.getLsbD 4, v.getLsbD 5, v.getLsbD 6, v.getLsbD 7]

/-- The byte of bits in wire order: the sum of `bit_i << i` (40_transport.md R105). -/
def byteOf : List Bool → Byte
  | [] => 0
  | b :: bs => (if b then 1 else 0) ||| (byteOf bs <<< 1)

/-- The tens digit of a BCD byte (20_memory.md R55). -/
def tens (raw : Byte) : Nat := (raw.extractLsb' 4 4).toNat

/-- The units digit of a BCD byte (R55). -/
def units (raw : Byte) : Nat := (raw.extractLsb' 0 4).toNat

/-- `decode_bcd`: the value, or none where a nibble exceeds 9 (R133). -/
def decodeDigits (raw : Byte) : Option Byte :=
  if tens raw > 9 ∨ units raw > 9 then none
  else some (BitVec.ofNat 8 (10 * tens raw + units raw))

/-- `encode_bcd` on its range: `((v / 10) << 4) | (v mod 10)` (R134). -/
def encodeDigits (v : Byte) : Byte :=
  (BitVec.ofNat 8 (v.toNat / 10) <<< 4) ||| BitVec.ofNat 8 (v.toNat % 10)

/-- The bits of a raw seconds byte that are decoded: the clock-halt bit dropped (R79). -/
def secondsField (raw : Byte) : Byte := raw &&& 0x7F#8

/-- The bits of a raw minutes byte that are decoded: all (R79). -/
def minutesField (raw : Byte) : Byte := raw

/-- A raw hours byte is in 12-hour mode (R76). -/
def twelveHour (raw : Byte) : Bool := raw.getLsbD 7

/-- The bits of a raw hours byte that are decoded, by its mode (R79). -/
def hoursField (raw : Byte) : Byte :=
  if twelveHour raw then raw &&& 0x1F#8 else raw &&& 0x3F#8

/-- The AM/PM flag of a raw hours byte: bit 5 in 12-hour mode, none in 24-hour mode (R76, R77, 42_time_fields.md R152). -/
def hoursPm (raw : Byte) : Option Bool :=
  if twelveHour raw then some (raw.getLsbD 5) else none

/-- The data byte of `write_seconds` (R79, R153). -/
def secondsData (v : Byte) (ch : Bool) : Byte :=
  (if ch then 0x80#8 else 0x00#8) ||| encodeDigits v

/-- The data byte of `write_minutes` (R79, R154). -/
def minutesData (v : Byte) : Byte := encodeDigits v

/-- The data byte of `write_hours` (R79, R155). -/
def hoursData (h : Byte) : HourMode → Byte
  | .h24 => encodeDigits h
  | .h12 pm => 0x80#8 ||| (if pm then 0x20#8 else 0x00#8) ||| encodeDigits h

/-- The value of a body call's argument, from the results of the calls before it. -/
def argValue (results : List (Option Byte)) : Arg → Option Byte
  | .lit v => some v
  | .result k => (results[k]?).join

/-- The values of several arguments, if all have one. -/
def argValues (results : List (Option Byte)) : List Arg → Option (List Byte)
  | [] => some []
  | a :: as =>
    match argValue results a, argValues results as with
    | some v, some vs => some (v :: vs)
    | _, _ => none

/-- What a body returns as the value of its transaction. -/
def bodyValue : List Byte → Value
  | [] => .unit
  | [v] => .byte v
  | v :: w :: vs => .bytes (v :: w :: vs)

/-- The code of an error (60_exceptions.md R181). -/
def errorCode : Error → Nat
  | .pinFault _ => 1
  | .invalidBcdDigit _ => 2

end Sys2Proof.Machine
end

