-- ==== Sys2Proof/Machine/Ops.lean ====
section
/-! DEFINITION. The shared operations: one primitive call and its failure (10_state.md R26 to R28), sequences of them, the
bit cycles (40_transport.md R101, R102), the byte transfers, the error path (60_exceptions.md R184) with the transaction's
cleanup (40_transport.md R107), the transaction frame (R106), and the register access (41_register_engine.md). -/

namespace Sys2Proof.Machine

/-! ### Updates of the state -/

/-- The trace with one more event. -/
def State.log (s : State) (e : Event) : State := { s with trace := s.trace ++ [e] }

/-- One answer used up. -/
def State.useDraw (s : State) : State := { s with draws := s.draws.tail, drawIx := s.drawIx + 1 }

/-- `S.TXN <- b`. -/
def State.setTxn (s : State) (b : Bool) : State := { s with txn := b }

/-- The outcome the caller receives. -/
def State.setOutcome (s : State) (r : Result) : State := { s with outcome := some r }

/-- A refused call: the caller receives `Refused(r)`, the run is marked as refused, and nothing else changes
(60_exceptions.md R185). -/
def State.refuse (s : State) (r : Reason) : State := { s with outcome := some (.refused r), refused := true }

/-- The call records still pending. -/
def State.setCalls (s : State) (bs : List Byte) : State := { s with calls := bs }

/-- What a successful primitive call writes (R28 "A successful call writes the field it drives"; R24 for `S.DOUT`). -/
def State.drive (s : State) : Prim → State
  | .setClk l => { s with clk := .known l }
  | .setCe c => { s with ce := .known c }
  | .setDio l => { s with dout := .known l }
  | .dir d => { s with dir := .known d, dout := .unknown }
  | .get => s
  | .wait _ => s

/-- What a failed primitive call loses (R28). -/
def State.lose (s : State) : Prim → State
  | .setClk _ => { s with clk := .unknown }
  | .setCe _ => { s with ce := .unknown }
  | .setDio _ => { s with dout := .unknown }
  | .dir _ => { s with dir := .unknown, dout := .unknown }
  | .get => s
  | .wait _ => s

/-! ### Primitive calls -/

/-- The answer to the primitive call `k` places ahead: the next is `drawAt 0`. -/
def State.drawAt (s : State) (k : Nat) : Draw :=
  match s.draws[k]? with
  | some d => d
  | none => Config.freeDraw (s.drawIx + k)

/-- The parameter that lets a primitive fail (R28). -/
def canFail (p : Prim) (s : State) : Bool :=
  match p with
  | .wait _ => s.params.delayCanFail
  | .setClk _ | .setCe _ | .setDio _ | .dir _ | .get => s.params.pinCanFail

/-- The next call, if it is of `p`, fails (R28). -/
def primFails (p : Prim) (s : State) : Bool := canFail p s && (s.drawAt 0).fails

/-- The event of a successful call (R26); the bit is the sample of a `PinGet`. -/
def successEvent (b : Bool) : Prim → Event
  | .setClk l => .setClk l
  | .setCe c => .setCe c
  | .setDio l => .setDio l
  | .dir d => .dir d
  | .get => .get b
  | .wait t => .wait t

/-- One primitive call (R26, R28). It answers the device's bit, which only a `PinGet` uses (R31). -/
def perform (p : Prim) (s : State) : Ran Bool :=
  if primFails p s then .fault (.fail p) (((s.useDraw).lose p).log (.fail p))
  else .ok (s.drawAt 0).bit (((s.useDraw).drive p).log (successEvent (s.drawAt 0).bit p))

/-- One part of an operation after another; the first failure ends both (R182). -/
def Ran.andThen {α β : Type} (r : Ran α) (f : α → State → Ran β) : Ran β :=
  match r with
  | .ok a s => f a s
  | .fault ev s => .fault ev s

/-- Primitive calls in order, up to the first failure. -/
def performAll : List Prim → State → Ran Unit
  | [], s => .ok () s
  | p :: ps, s => (perform p s).andThen fun _ s' => performAll ps s'

/-- The write bit cycle `drive_bit(b)` (R101). -/
def driveBit (b : Bool) (s : State) : Ran Unit :=
  performAll [.setDio (levelOf b), .wait .tDC, .setClk .high, .wait .tCH, .setClk .low, .wait .tCL] s

/-- The read bit cycle `sample_bit()` (R102). -/
def sampleBit (s : State) : Ran Bool :=
  (perform .get s).andThen fun b s' =>
    (performAll [.setClk .high, .wait .tCH, .setClk .low, .wait .tCL] s').andThen fun _ s'' => .ok b s''

/-- Write bit cycles in order. -/
def driveBits : List Bool → State → Ran Unit
  | [], s => .ok () s
  | b :: bs, s => (driveBit b s).andThen fun _ s' => driveBits bs s'

/-- As many read bit cycles, and their samples in order. -/
def sampleBits : Nat → State → Ran (List Bool)
  | 0, s => .ok [] s
  | n + 1, s =>
    (sampleBit s).andThen fun b s' => (sampleBits n s').andThen fun bs s'' => .ok (b :: bs) s''

/-- Primitive calls in order, each attempted whatever failed before it, but for those not needed when their turn comes; and
the first failure (R100, R107). -/
def attemptAll (needed : Prim → State → Bool) : List Prim → State → Option Event × State
  | [], s => (none, s)
  | p :: ps, s =>
    if needed p s then
      match perform p s with
      | .ok _ s' => attemptAll needed ps s'
      | .fault ev s' => (some ev, (attemptAll needed ps s').2)
    else attemptAll needed ps s

/-! ### Operations and their errors -/

/-- A part of an operation as an operation: its failure is a `PinFault` (60_exceptions.md R182). -/
def Ran.called {α : Type} : Ran α → Called α
  | .ok a s => .ok a s
  | .fault ev s => .err (.pinFault ev) s

/-- One call after another; an error, a refusal or a stop ends both. -/
def Called.andThen {α β : Type} (c : Called α) (f : α → State → Called β) : Called β :=
  match c with
  | .ok a s => f a s
  | .err e s => .err e s
  | .refused r => .refused r
  | .stopped r => .stopped r

/-- Refusal checks come first, before any event (R186). -/
def guarded {α : Type} (checks : List (Bool × Reason)) (c : Called α) : Called α :=
  match firstRefusal checks with
  | some r => .refused r
  | none => c

/-- The end of an operation called in a state: the caller receives its outcome and the engine is at an operation boundary,
where any operation may be invoked next (R184, R187). A refused call leaves the state it was called in (R185). -/
def finish {α : Type} (value : α → Value) (s : State) (c : Called α) : Host.Outcome State Fault Refusal :=
  match c with
  | .ok a t => .next (t.setOutcome (.ok (value a)))
  | .err e t => .next (t.setOutcome (.err e))
  | .refused r => .next (s.refuse r)
  | .stopped r => .refused r

/-- The value of an operation that returns `()`. -/
def unitValue (_ : Unit) : Value := .unit

/-! ### Transport -/

/-- `init()` (R100). -/
def initLines (s : State) : Called Unit :=
  guarded (initRefusals s)
    (match attemptAll (fun _ _ => true) [.setCe .deasserted, .setClk .low, .dir .output, .wait .tCWH] s with
    | (some ev, s') => .err (.pinFault ev) s'
    | (none, s') => .ok () s')

/-- `set_data_direction(d)` (R103). -/
def setDirection (d : Direction) (s : State) : Called Unit :=
  guarded (directionRefusals d s) (performAll [.dir d] s).called

/-- `write_byte(v)` (R104). -/
def shiftOut (v : Byte) (s : State) : Called Unit :=
  guarded (byteRefusals .output s) (driveBits (bitsOf v) s).called

/-- `read_byte()` (R105). -/
def shiftIn (s : State) : Called Byte :=
  guarded (byteRefusals .input s) ((sampleBits 8 s).andThen fun bs s' => .ok (byteOf bs) s').called

/-- A cleanup step is needed: the clock is returned low if it is not, the data line is turned to output if it is not, and
the rest always (R107). -/
def cleanupNeeds (p : Prim) (s : State) : Bool :=
  match p with
  | .setClk _ => decide (s.clk ≠ .known .low)
  | .dir _ => decide (s.dir ≠ .known .output)
  | .setCe _ | .setDio _ | .get | .wait _ => true

/-- `cleanup(first)` (R107), the error path of an open transaction (60_exceptions.md R184): every step attempted, and the
first error, that of the body before any of the cleanup's. -/
def cleanup (first : Option Error) (s : State) : Option Error × State :=
  let r := attemptAll cleanupNeeds
    [.wait .tCCH, .setCe .deasserted, .setClk .low, .dir .output, .wait .tCWH] (s.setTxn false)
  match first with
  | some e => (some e, r.2)
  | none => (r.1.map .pinFault, r.2)

/-- The end of a transaction whose body returned a value: cleanup, then its first error or that value (R106). -/
def closeFrame {α : Type} (value : α) (s : State) : Called α :=
  match cleanup none s with
  | (some e, s') => .err e s'
  | (none, s') => .ok value s'

/-- The end of a transaction that has an error already: cleanup, then that error (R106). -/
def abortFrame {α : Type} (e : Error) (s : State) : Called α := .err e (cleanup (some e) s).2

/-- `transaction(body)` past its checks (R106), for a body that may return anything. A refusal in the body ends the run
without cleanup (R185; log entry 6). -/
def frame {α : Type} (body : State → Called α) (s : State) : Called α :=
  match perform (.setCe .asserted) s with
  | .fault ev s1 => abortFrame (.pinFault ev) s1
  | .ok _ s1 =>
    match perform (.wait .tCC) (s1.setTxn true) with
    | .fault ev s2 => abortFrame (.pinFault ev) s2
    | .ok _ s2 =>
      match body s2 with
      | .refused r => .stopped (.inBody r)
      | .stopped r => .stopped r
      | .err e s3 => abortFrame e s3
      | .ok a s3 => closeFrame a s3

/-! ### BCD -/

/-- `decode_bcd(raw)`, the byte to be recorded in the error given beside the byte decoded (R133, 92_eei_decisions.md D17). -/
def decodeField (recorded field : Byte) (s : State) : Called Byte :=
  match decodeDigits field with
  | some v => .ok v s
  | none => .err (.invalidBcdDigit recorded) s

/-- `encode_bcd(v)` (R134). -/
def encodeField (v : Byte) (s : State) : Called Byte :=
  guarded [(decide (99 < v.toNat), .bcdRange)] (.ok (encodeDigits v) s)

/-! ### Transaction bodies -/

/-- A body call with its argument's value; an argument without one is no program (log entry 10). -/
def withArg {α : Type} (results : List (Option Byte)) (a : Arg) (f : Byte → Called α) : Called α :=
  match argValue results a with
  | some v => f v
  | none => .stopped .unboundName

/-- One call of a body, and the byte it binds (R106). -/
def runBodyCall (results : List (Option Byte)) (c : BodyCall) (s : State) : Called (Option Byte) :=
  match c with
  | .writeByte v => withArg results v fun b => (shiftOut b s).andThen fun _ s' => .ok none s'
  | .readByte => (shiftIn s).andThen fun b s' => .ok (some b) s'
  | .setDataDirection d => (setDirection d s).andThen fun _ s' => .ok none s'
  | .decodeBcd raw => withArg results raw fun b => (decodeField b b s).andThen fun v s' => .ok (some v) s'
  | .encodeBcd v => withArg results v fun b => (encodeField b s).andThen fun w s' => .ok (some w) s'
  | .barred _ => .refused .badBody

/-- The calls of a body in order, from the results of the calls before them. -/
def runBodyCalls (results : List (Option Byte)) : List BodyCall → State → Called (List (Option Byte))
  | [], s => .ok results s
  | c :: cs, s => (runBodyCall results c s).andThen fun r s' => runBodyCalls (results ++ [r]) cs s'

/-- A body run to its value (R106). -/
def runBody (b : Body) (s : State) : Called Value :=
  (runBodyCalls [] b.calls s).andThen fun results s' =>
    match argValues results b.returns with
    | some vs => .ok (bodyValue vs) s'
    | none => .stopped .unboundName

/-- `transaction(body)` (R106). A body that names what it does not bind is no program (log entry 10). -/
def runTransaction (b : Body) (s : State) : Called Value :=
  guarded (transactionRefusals s ++ bodyRefusals b)
    (if b.bound then frame (runBody b) s else .stopped .unboundName)

/-! ### Register access -/

/-- The body of `read_register` (41_register_engine.md R131). -/
def readBody (c : Byte) (s : State) : Called Byte :=
  (shiftOut c s).andThen fun _ s1 => (setDirection .input s1).andThen fun _ s2 => shiftIn s2

/-- The body of `write_register` (R132). -/
def writeBody (c v : Byte) (s : State) : Called Unit :=
  (shiftOut c s).andThen fun _ s1 => shiftOut v s1

/-- `read_register(a)` (R131). -/
def readRegister (a : Nat) (s : State) : Called Byte :=
  guarded (addressRefusals a ++ transactionRefusals s) (frame (readBody (cmdByte a .read)) s)

/-- `write_register(a, v)` (R132). -/
def writeRegister (a : Nat) (v : Byte) (s : State) : Called Unit :=
  guarded (addressRefusals a ++ transactionRefusals s) (frame (writeBody (cmdByte a .write) v) s)

/-- A time write: the range check, then `write_register` (42_time_fields.md R153 to R155). -/
def writeField (a : Nat) (inRange : Bool) (data : Byte) (s : State) : Called Unit :=
  guarded (fieldRefusals inRange) (writeRegister a data s)

/-- A time read: `read_register`, then the decode of a field of the raw byte, the unmasked byte recorded in the error
(R150 to R152). -/
def readField (a : Nat) (field : Byte → Byte) (value : Byte → Byte → Value) (s : State) : Called Value :=
  (readRegister a s).andThen fun raw s' =>
    (decodeField raw (field raw) s').andThen fun v s'' => .ok (value raw v) s''

/-- The physical level of chip-enable, by `CE_ACTIVE_LEVEL` (00_scope.md R9, R13). -/
def State.cePin (s : State) : Line Level :=
  match s.ce with
  | .unknown => .unknown
  | .known .asserted => .known s.params.ceActive
  | .known .deasserted => .known (match s.params.ceActive with | .low => .high | .high => .low)

/-- The call the caller invokes next: none where none is pending. -/
def State.fetch (s : State) : Option Decoded :=
  match s.calls with
  | [] => none
  | b :: bs => some (decode (b :: bs))

end Sys2Proof.Machine
end

