-- ==== Sys2Proof/Machine/CommandClasses.lean ====
section
/-! DEFINITION. The meanings of the command classes no operation sends (30_encoding.md R82). -/

namespace Sys2Proof.Machine

/-- A command byte `0xxxxxxx`: the engine never emits it and the chip ignores it, so nothing changes (R82, 20_memory.md R53;
DEDUCED, log entry 7). -/
def execIgnoredCommand (_x : BitVec 7) (s : State) : Host.Outcome State Fault Refusal :=
  .next s

/-- A command byte `11aaaaa0`: RAM space, out of scope (00_scope.md R7); the spec's treatment is to refuse
(93_implementation_defined.md I5; log entry 8). -/
def execRamWriteCommand (_a : Address) (_s : State) : Host.Outcome State Fault Refusal :=
  .refused .ramCommand

/-- A command byte `11aaaaa1`: as for a RAM write (93_implementation_defined.md I5; log entry 8). -/
def execRamReadCommand (_a : Address) (_s : State) : Host.Outcome State Fault Refusal :=
  .refused .ramCommand

end Sys2Proof.Machine
end

