-- ==== Sys2Proof/Machine/RegisterEngine.lean ====
section
/-! DEFINITION. The meanings of the register and BCD operations (41_register_engine.md). -/

namespace Sys2Proof.Machine

/-- `read_register(a)` (R131). -/
def execReadRegister (a : Nat) (s : State) : Host.Outcome State Fault Refusal :=
  finish .byte s (readRegister a s)

/-- `write_register(a, v)` (R132). -/
def execWriteRegister (a : Nat) (v : Byte) (s : State) : Host.Outcome State Fault Refusal :=
  finish unitValue s (writeRegister a v s)

/-- `decode_bcd(raw)` (R133). -/
def execDecodeBcd (raw : Byte) (s : State) : Host.Outcome State Fault Refusal :=
  finish .byte s (decodeField raw raw s)

/-- `encode_bcd(v)` (R134). -/
def execEncodeBcd (v : Byte) (s : State) : Host.Outcome State Fault Refusal :=
  finish .byte s (encodeField v s)

end Sys2Proof.Machine
end

