-- ==== Sys2Proof/Machine/TimeFields.lean ====
section
/-! DEFINITION. The meanings of the time field operations (42_time_fields.md). -/

namespace Sys2Proof.Machine

/-- `read_seconds()` (R150). -/
def execReadSeconds (s : State) : Host.Outcome State Fault Refusal :=
  finish id s (readField 0 secondsField (fun _ v => .byte v) s)

/-- `read_minutes()` (R151). -/
def execReadMinutes (s : State) : Host.Outcome State Fault Refusal :=
  finish id s (readField 1 minutesField (fun _ v => .byte v) s)

/-- `read_hours()` (R152). -/
def execReadHours (s : State) : Host.Outcome State Fault Refusal :=
  finish id s (readField 2 hoursField (fun raw v => .hours v (hoursPm raw)) s)

/-- `write_seconds(v, ch)` (R153). -/
def execWriteSeconds (v : Byte) (ch : Bool) (s : State) : Host.Outcome State Fault Refusal :=
  finish unitValue s (writeField 0 (decide (v.toNat ≤ 59)) (secondsData v ch) s)

/-- `write_minutes(v)` (R154). -/
def execWriteMinutes (v : Byte) (s : State) : Host.Outcome State Fault Refusal :=
  finish unitValue s (writeField 1 (decide (v.toNat ≤ 59)) (minutesData v) s)

/-- `write_hours(h, m)` (R155). -/
def execWriteHours (h : Byte) (m : HourMode) (s : State) : Host.Outcome State Fault Refusal :=
  finish unitValue s (writeField 2 (m.admits h.toNat) (hoursData h m) s)

end Sys2Proof.Machine
end

