-- ==== Sys2Proof/Machine/Transport.lean ====
section
/-! DEFINITION. The meanings of the transport operations (40_transport.md). -/

namespace Sys2Proof.Machine

/-- `init` (R100). -/
def execInit (s : State) : Host.Outcome State Fault Refusal :=
  finish unitValue s (initLines s)

/-- `set_data_direction(d)` (R103). -/
def execSetDataDirection (d : Direction) (s : State) : Host.Outcome State Fault Refusal :=
  finish unitValue s (setDirection d s)

/-- `write_byte(v)` (R104). -/
def execWriteByte (v : Byte) (s : State) : Host.Outcome State Fault Refusal :=
  finish unitValue s (shiftOut v s)

/-- `read_byte()` (R105). -/
def execReadByte (s : State) : Host.Outcome State Fault Refusal :=
  finish .byte s (shiftIn s)

/-- `transaction(body)` (R106). -/
def execTransaction (b : Body) (s : State) : Host.Outcome State Fault Refusal :=
  finish id s (runTransaction b s)

end Sys2Proof.Machine
end

