-- ==== Sys2Proof/Machine/Dispatch.lean ====
section
/-! DEFINITION. One arm per instruction. -/

namespace Sys2Proof.Machine

def exec (i : Instr) (s : State) : Host.Outcome State Fault Refusal :=
  match i with
  | .init => Sys2Proof.Machine.execInit s
  | .setDataDirection d => Sys2Proof.Machine.execSetDataDirection d s
  | .writeByte v => Sys2Proof.Machine.execWriteByte v s
  | .readByte => Sys2Proof.Machine.execReadByte s
  | .transaction b => Sys2Proof.Machine.execTransaction b s
  | .readRegister a => Sys2Proof.Machine.execReadRegister a s
  | .writeRegister a v => Sys2Proof.Machine.execWriteRegister a v s
  | .decodeBcd raw => Sys2Proof.Machine.execDecodeBcd raw s
  | .encodeBcd v => Sys2Proof.Machine.execEncodeBcd v s
  | .readSeconds => Sys2Proof.Machine.execReadSeconds s
  | .readMinutes => Sys2Proof.Machine.execReadMinutes s
  | .readHours => Sys2Proof.Machine.execReadHours s
  | .writeSeconds v ch => Sys2Proof.Machine.execWriteSeconds v ch s
  | .writeMinutes v => Sys2Proof.Machine.execWriteMinutes v s
  | .writeHours h m => Sys2Proof.Machine.execWriteHours h m s
  | .ignoredCommand x => Sys2Proof.Machine.execIgnoredCommand x s
  | .ramWriteCommand a => Sys2Proof.Machine.execRamWriteCommand a s
  | .ramReadCommand a => Sys2Proof.Machine.execRamReadCommand a s

end Sys2Proof.Machine
end

