-- ==== Sys2Proof/Machine/Step.lean ====
section
/-! DEFINITION. One step: the caller invokes its next pending call and the engine performs it to its end (10_state.md R20,
R30; log entries 1, 12 and 16). -/

namespace Sys2Proof.Machine

/-- One operation. With no call pending the engine is idle: it runs only when called (70_reset_and_hazards.md R210). -/
def step (s : State) : Host.Outcome State Fault Refusal :=
  match s.fetch with
  | none => .next s
  | some (.reject r) => .fault (.badCall r)
  | some (.ok i rest) => exec i (s.setCalls rest)

/-- The state whose next pending call is the given table word, nothing else changed. -/
def State.withFetchWord (s : State) (nbits w : Nat) : State :=
  s.setCalls (tableRecord nbits w)

end Sys2Proof.Machine
end

