-- ==== Sys2Proof/Machine/Trace.lean ====
section
/-! DEFINITION. The lines as the trace tells them: what each event of the trace makes of the four line records
(10_state.md R26, R28), and the facts about events that claims use. -/

namespace Sys2Proof.Machine

/-- The primitive call an event comes from. -/
def Event.prim : Event → Prim
  | .setClk l => .setClk l
  | .setCe c => .setCe c
  | .setDio l => .setDio l
  | .dir d => .dir d
  | .get _ => .get
  | .wait t => .wait t
  | .fail p => p

/-- The event is a `Fail(...)`. -/
def Event.isFail : Event → Bool
  | .fail _ => true
  | .setClk _ | .setCe _ | .setDio _ | .dir _ | .get _ | .wait _ => false

/-- The event is a sample. -/
def Event.isGet : Event → Bool
  | .get _ => true
  | .setClk _ | .setCe _ | .setDio _ | .dir _ | .wait _ | .fail _ => false

/-- The event is a rising edge of the clock. -/
def Event.isRise (e : Event) : Bool := decide (e = .setClk .high)

/-- The line records alone. -/
structure Lines where
  ce : Line CeLevel
  clk : Line Level
  dir : Line Direction
  dout : Line Level
deriving DecidableEq, Repr

/-- Nothing known, as at power-on (R21). -/
def Lines.unknown : Lines := ⟨.unknown, .unknown, .unknown, .unknown⟩

/-- The line records of a state. -/
def State.lines (s : State) : Lines := ⟨s.ce, s.clk, s.dir, s.dout⟩

/-- What one event makes of the line records. -/
def Lines.next (l : Lines) : Event → Lines
  | .setClk v => { l with clk := .known v }
  | .setCe c => { l with ce := .known c }
  | .setDio v => { l with dout := .known v }
  | .dir d => { l with dir := .known d, dout := .unknown }
  | .get _ => l
  | .wait _ => l
  | .fail (.setClk _) => { l with clk := .unknown }
  | .fail (.setCe _) => { l with ce := .unknown }
  | .fail (.setDio _) => { l with dout := .unknown }
  | .fail (.dir _) => { l with dir := .unknown, dout := .unknown }
  | .fail .get => l
  | .fail (.wait _) => l

/-- What a list of events, oldest first, makes of the line records. -/
def Lines.replay (l : Lines) : List Event → Lines
  | [] => l
  | e :: es => (l.next e).replay es

end Sys2Proof.Machine
end

