-- ==== Sys2Proof/Machine/Responder.lean ====
section
/-! DEFINITION. The reference responder of 10_state.md R33: a deterministic device that reads the trace in order. It is a
test fixture and a named premise of claims, no part of the engine: no step of the machine uses it, and the engine's samples
are free (R31; log entries 13 and 14). -/

namespace Sys2Proof.Machine

/-- Where the responder is in a transaction (R33). -/
inductive Phase where
  | idle
  | cmd (k : Nat) (sr : Byte)
  | ignore
  | wdata (a : Address) (k : Nat) (sr : Byte)
  | rpending (a : Address)
  | rdata (a : Address) (j : Nat)
  | done
  | broken
deriving DecidableEq, Repr

/-- The responder: the clock registers `REG`, its phase, and the lines as the trace has them so far. -/
structure Responder where
  reg : Vector Byte 32
  phase : Phase
  lines : Lines
deriving DecidableEq, Repr

/-- The register at an address. -/
def Responder.regAt (d : Responder) (a : Address) : Byte := d.reg[a.toNat]'a.isLt

/-- The bit on the data line at a rising edge; none if the engine does not drive it or its level is lost (R33). -/
def dioBit (l : Lines) : Option Bool :=
  match l.dir, l.dout with
  | .known .output, .known .high => some true
  | .known .output, .known .low => some false
  | _, _ => none

/-- `sr[k] <- b`, on a shift register whose bit `k` is still 0. -/
def shiftBit (sr : Byte) (k : Nat) (b : Bool) : Byte :=
  sr ||| (if b then 1#8 <<< k else 0)

/-- The phase after the eighth command bit (R33, 20_memory.md R53). -/
def afterCommand (c : Byte) : Phase :=
  match classify c with
  | .ignored _ => .ignore
  | .ramWrite _ => .ignore
  | .ramRead _ => .ignore
  | .clkWrite a => .wdata a 0 0
  | .clkRead a => .rpending a

/-- A rising edge (R33). -/
def Responder.rise (d : Responder) : Responder :=
  match d.phase with
  | .cmd k sr =>
    match dioBit d.lines with
    | none => { d with phase := .broken }
    | some b =>
      if k = 7 then { d with phase := afterCommand (shiftBit sr k b) }
      else { d with phase := .cmd (k + 1) (shiftBit sr k b) }
  | .wdata a k sr =>
    match dioBit d.lines with
    | none => { d with phase := .broken }
    | some b =>
      if k = 7 then { d with reg := d.reg.set a.toNat (shiftBit sr k b) a.isLt, phase := .done }
      else { d with phase := .wdata a (k + 1) (shiftBit sr k b) }
  | .idle | .ignore | .rpending _ | .rdata _ _ | .done | .broken => d

/-- A falling edge (R33). -/
def Responder.fall (d : Responder) : Responder :=
  match d.phase with
  | .rpending a => { d with phase := .rdata a 0 }
  | .rdata a j => { d with phase := .rdata a (j + 1) }
  | .idle | .cmd _ _ | .ignore | .wdata _ _ _ | .done | .broken => d

/-- A failed drive of CLK, DIO or the direction (R33). -/
def Responder.disturb (d : Responder) : Responder :=
  if d.phase = .idle then d else { d with phase := .broken }

/-- What the event does to the responder's phase and registers. A clock edge counts while CE is asserted. -/
def Responder.react (d : Responder) (e : Event) : Responder :=
  match e with
  | .setCe .asserted => { d with phase := .cmd 0 0 }
  | .setCe .deasserted => { d with phase := .idle }
  | .setClk .high => if d.lines.ce = .known .asserted ∧ d.lines.clk = .known .low then d.rise else d
  | .setClk .low => if d.lines.ce = .known .asserted ∧ d.lines.clk = .known .high then d.fall else d
  | .setDio _ => d
  | .dir _ => d
  | .get _ => d
  | .wait _ => d
  | .fail (.setCe _) => { d with phase := .idle }
  | .fail (.setClk _) => d.disturb
  | .fail (.setDio _) => d.disturb
  | .fail (.dir _) => d.disturb
  | .fail .get => d
  | .fail (.wait _) => d

/-- One event of the trace. -/
def Responder.next (d : Responder) (e : Event) : Responder :=
  { d.react e with lines := d.lines.next e }

/-- The bit the responder presents; none where R33 leaves it unspecified. -/
def Responder.answer (d : Responder) : Option Bool :=
  match d.phase with
  | .rdata a j => if j ≤ 7 then some ((d.regAt a).getLsbD j) else none
  | .idle | .cmd _ _ | .ignore | .wdata _ _ _ | .rpending _ | .done | .broken => none

/-- The responder after the events, oldest first. -/
def Responder.run (d : Responder) : List Event → Responder
  | [] => d
  | e :: es => (d.next e).run es

/-- The event is one the responder allows: a sample is the bit it presents, where it presents one. -/
def Responder.allows (d : Responder) (e : Event) : Bool :=
  match e, d.answer with
  | .get b, some v => decide (b = v)
  | _, _ => true

/-- Every sample among the events is the responder's: the premise "under the reference responder". -/
def Responder.explains (d : Responder) : List Event → Bool
  | [] => true
  | e :: es => d.allows e && (d.next e).explains es

end Sys2Proof.Machine
end

