-- ==== Sys2Proof/Safety.lean ====
section
/-! DEFINITION. What counts as a safe run, in the terms the statements use: the framing of the bus by chip-enable over the
whole trace (70_reset_and_hazards.md R213 to R215), the timing contract (R216), what the platform's answers are assumed to
be, and the invariant of the operation boundary. -/

namespace Sys2Proof.Machine

/-! ### Framing -/

/-- The primitive call respects the framing of the bus, on the lines as they are before it: the clock rises only from Low and
inside an assertion of CE (R213); CE is asserted only from the idle lines (R213, R214); the data line is driven and sampled
only inside the assertion, with CLK Low and in its direction (R215); and it is turned to output only where CE is not
asserted (R215). -/
def respectsFraming (l : Lines) : Prim → Bool
  | .setClk .high => decide (l.ce = .known .asserted ∧ l.clk = .known .low)
  | .setClk .low => true
  | .setCe .asserted => decide (l.ce = .known .deasserted ∧ l.clk = .known .low ∧ l.dir = .known .output)
  | .setCe .deasserted => true
  | .setDio _ => decide (l.ce = .known .asserted ∧ l.clk = .known .low ∧ l.dir = .known .output)
  | .dir .output => decide (l.ce ≠ .known .asserted)
  | .dir .input => decide (l.clk = .known .low)
  | .get => decide (l.ce = .known .asserted ∧ l.clk = .known .low ∧ l.dir = .known .input)
  | .wait _ => true

/-- Every event of the trace, successful or failed, respects the framing. -/
def framed (l : Lines) : List Event → Bool
  | [] => true
  | e :: es => respectsFraming l e.prim && framed (l.next e) es

/-- The invariant of the operation boundary, from power-on: no transaction is open (R25); CE is not asserted and CLK is not
High (10_state.md R22, R23); the line records are what the trace makes of the lines (R26, R28); and the whole trace respects
the framing. -/
structure Boundary (s : State) : Prop where
  closed : s.txn = false
  ceOff : s.ce ≠ .known .asserted
  clkDown : s.clk ≠ .known .high
  recorded : s.lines = Lines.unknown.replay s.trace
  framing : framed Lines.unknown s.trace = true

/-! ### Timing -/

/-- The parameter's value. -/
def timeOf (t : Timing) : DelayTime → Nat
  | .tDC => t.tDC
  | .tCH => t.tCH
  | .tCL => t.tCL
  | .tCC => t.tCC
  | .tCCH => t.tCCH
  | .tCWH => t.tCWH

/-- The constraints on the parameters' values (R216). -/
abbrev TimingConsistent (t : Timing) : Prop :=
  t.tCDD ≤ t.tCL ∧ t.tCDH ≤ t.tCH + t.tCL

/-- The least time since the last event of each kind; none before the first. -/
structure Elapsed where
  dio : Option Nat
  rise : Option Nat
  fall : Option Nat
  ceOn : Option Nat
  ceOff : Option Nat
deriving DecidableEq, Repr

/-- No event yet. -/
def Elapsed.fresh : Elapsed := ⟨none, none, none, none, none⟩

/-- At least `d` later. -/
def Elapsed.later (n : Elapsed) (d : Nat) : Elapsed :=
  ⟨n.dio.map (· + d), n.rise.map (· + d), n.fall.map (· + d), n.ceOn.map (· + d), n.ceOff.map (· + d)⟩

/-- The event is at least `d` later than the other, or the first of the two has not been. -/
def atLeast (d : Nat) : Option Nat → Bool
  | none => true
  | some n => decide (d ≤ n)

/-- The separations an event needs before it (R216). -/
def onTime (t : Timing) (n : Elapsed) : Event → Bool
  | .setDio _ => atLeast t.tCDH n.rise
  | .setClk .high => atLeast t.tDC n.dio && atLeast t.tCL n.fall && atLeast t.tCC n.ceOn
  | .setClk .low => atLeast t.tCH n.rise
  | .get _ => atLeast t.tCDD n.fall
  | .setCe .deasserted => atLeast t.tCCH n.fall
  | .setCe .asserted => atLeast t.tCWH n.ceOff
  | .dir _ => true
  | .wait _ => true
  | .fail _ => true

/-- The times after an event: a `Wait(T)` lasts at least `T` (10_state.md R27). -/
def Elapsed.next (t : Timing) (n : Elapsed) : Event → Elapsed
  | .setDio _ => { n with dio := some 0 }
  | .setClk .high => { n with rise := some 0 }
  | .setClk .low => { n with fall := some 0 }
  | .setCe .asserted => { n with ceOn := some 0 }
  | .setCe .deasserted => { n with ceOff := some 0 }
  | .wait d => n.later (timeOf t d)
  | .get _ => n
  | .dir _ => n
  | .fail _ => n

/-- The times after the events. -/
def Elapsed.run (t : Timing) (n : Elapsed) : List Event → Elapsed
  | [] => n
  | e :: es => (n.next t e).run t es

/-- The events meet the timing contract of R216 by their waits alone. -/
def timely (t : Timing) (n : Elapsed) : List Event → Bool
  | [] => true
  | e :: es => onTime t n e && timely t (n.next t e) es

/-- The separations that a transaction needs from what went before it (R216). -/
abbrev Settled (t : Timing) (n : Elapsed) : Prop :=
  atLeast t.tCWH n.ceOff = true ∧ atLeast t.tCL n.fall = true ∧ atLeast t.tCDH n.rise = true

/-! ### What the platform answers -/

/-- None of the next `n` primitive calls fails: where its draw says so, the parameters let no primitive fail (R28). -/
def NoFailure (s : State) (n : Nat) : Prop :=
  ∀ k, k < n → (s.drawAt k).fails = true → s.params.pinCanFail = false ∧ s.params.delayCanFail = false

/-- The primitive call `k` places ahead, if it is of `p`, fails (R28). -/
abbrev CallFails (s : State) (k : Nat) (p : Prim) : Prop :=
  canFail p s = true ∧ (s.drawAt k).fails = true

/-- None of the `n` primitive calls from the one `k` places ahead has a failing draw. -/
abbrev QuietFrom (s : State) (k n : Nat) : Prop :=
  ∀ j, k ≤ j → j < k + n → (s.drawAt j).fails = false

/-- The byte of the eight samples a read takes, the first of them by the primitive call `k` places ahead; a read bit cycle
makes five calls (40_transport.md R102). -/
def sampledByte (s : State) (k : Nat) : Byte :=
  byteOf ((List.range 8).map fun i => (s.drawAt (k + 5 * i)).bit)

/-- The state after `n` primitive calls that appended these events, but for the lines. -/
def State.played (s : State) (n : Nat) (es : List Event) : State :=
  { s with trace := s.trace ++ es, draws := s.draws.drop n, drawIx := s.drawIx + n }

/-! ### The events of fault-free operations -/

/-- A write bit cycle (40_transport.md R101). -/
def writeBitEvents (b : Bool) : List Event :=
  [.setDio (if b then .high else .low), .wait .tDC, .setClk .high, .wait .tCH, .setClk .low, .wait .tCL]

/-- A read bit cycle (R102). -/
def readBitEvents (b : Bool) : List Event :=
  [.get b, .setClk .high, .wait .tCH, .setClk .low, .wait .tCL]

/-- The eight write bit cycles of a byte, bit 0 first (R104). -/
def writeByteEvents (v : Byte) : List Event :=
  (List.range 8).flatMap fun i => writeBitEvents (v.getLsbD i)

/-- The eight read bit cycles of a byte, bit 0 first (R105). -/
def readByteEvents (v : Byte) : List Event :=
  (List.range 8).flatMap fun i => readBitEvents (v.getLsbD i)

/-- The opening of a transaction (R106). -/
def openEvents : List Event := [.setCe .asserted, .wait .tCC]

/-- The cleanup of a transaction whose data line is an output (R107). -/
def closeWriteEvents : List Event := [.wait .tCCH, .setCe .deasserted, .wait .tCWH]

/-- The cleanup of a transaction whose data line is an input (R107). -/
def closeReadEvents : List Event := [.wait .tCCH, .setCe .deasserted, .dir .output, .wait .tCWH]

/-- The cleanup of a transaction, all of whose calls succeed, on the lines it finds (R107). -/
def cleanupEvents (l : Lines) : List Event :=
  [.wait .tCCH, .setCe .deasserted]
    ++ (if l.clk = .known .low then [] else [.setClk .low])
    ++ (if l.dir = .known .output then [] else [.dir .output])
    ++ [.wait .tCWH]

/-- The state with these line records. -/
def State.setLines (s : State) (l : Lines) : State :=
  { s with ce := l.ce, clk := l.clk, dir := l.dir, dout := l.dout }

/-- The state after primitive calls that appended these events, one each: the lines are as the events make them, and nothing
else changes (10_state.md R26, R28). -/
def State.after (s : State) (es : List Event) : State :=
  (s.played es.length es).setLines (s.lines.replay es)

/-- The same, the operation having ended with this outcome. -/
def afterEvents (s : State) (es : List Event) (r : Result) : State := (s.after es).setOutcome r

/-- The events of an access whose call of the `k`-th event fails: those before it, the `Fail` event, and a cleanup whose
calls succeed (R106, R107). -/
def faultedEvents (l : Lines) (es : List Event) (k : Nat) (p : Prim) : List Event :=
  let before := es.take k ++ [.fail p]
  before ++ cleanupEvents (l.replay before)

/-- `write_register` sending a command byte and a data byte (41_register_engine.md R132). -/
def writeAccessEvents (c v : Byte) : List Event :=
  openEvents ++ writeByteEvents c ++ writeByteEvents v ++ closeWriteEvents

/-- `read_register` sending a command byte and sampling a data byte (R131). -/
def readAccessEvents (c v : Byte) : List Event :=
  openEvents ++ writeByteEvents c ++ [.dir .input] ++ readByteEvents v ++ closeReadEvents

/-- The state after a fault-free read access, with this outcome (R131). -/
def afterRead (s : State) (c : Byte) (r : Result) : State :=
  { s.played 95 (readAccessEvents c (sampledByte s 51)) with dout := .unknown, outcome := some r }

/-- The state after a fault-free write access (R132). -/
def afterWrite (s : State) (c v : Byte) : State :=
  { s.played 101 (writeAccessEvents c v) with
    dout := .known (if v.getLsbD 7 then .high else .low), outcome := some (.ok .unit) }

/-- The operation runs a transaction of its own: `transaction` and every register and time operation. -/
def opensTransaction : Instr → Bool
  | .transaction _ => true
  | .readRegister _ => true
  | .writeRegister _ _ => true
  | .readSeconds => true
  | .readMinutes => true
  | .readHours => true
  | .writeSeconds _ _ => true
  | .writeMinutes _ => true
  | .writeHours _ _ => true
  | .init | .setDataDirection _ | .writeByte _ | .readByte | .decodeBcd _ | .encodeBcd _ => false
  | .ignoredCommand _ | .ramWriteCommand _ | .ramReadCommand _ => false

/-- The calls are none that is refused in a transaction whose data line has the given direction: bytes go in its direction,
it is turned to input only, and `encode_bcd` takes a literal in its range. -/
def callsAdmitted : Direction → List BodyCall → Bool
  | _, [] => true
  | d, .writeByte _ :: cs => decide (d = .output) && callsAdmitted d cs
  | d, .readByte :: cs => decide (d = .input) && callsAdmitted d cs
  | _, .setDataDirection .input :: cs => callsAdmitted .input cs
  | _, .setDataDirection .output :: _ => false
  | d, .decodeBcd _ :: cs => callsAdmitted d cs
  | d, .encodeBcd (.lit v) :: cs => decide (v.toNat ≤ 99) && callsAdmitted d cs
  | _, .encodeBcd (.result _) :: _ => false
  | _, .barred _ :: _ => false

end Sys2Proof.Machine
end

