-- ==== Sys2Proof/Certificates/Slice0/Obligations.lean ====
section
/-! DEFINITION. The statements for the provers, each with the rule of spec/ it formalises. A statement about samples and
failures holds for every value of the free draws; where a statement says which draws it assumes, it assumes them of the
state alone (`NoFailure`, `CallFails`, `QuietFrom` in Safety.lean). -/

open Sys2Proof Sys2Proof.Machine

/-! ### Reset and the boundary -/

/-- 70_reset_and_hazards.md R210, 10_state.md R21: the state at power-on, no call refused yet (the mark of a refused run,
log entry 6), and the state a fault-free `init` leaves whatever the lines were. -/
def Obligations.PowerOnAndAfterInit : Prop :=
  (State.reset.ce = .unknown ∧ State.reset.clk = .unknown ∧ State.reset.dir = .unknown ∧ State.reset.dout = .unknown ∧
    State.reset.txn = false ∧ State.reset.trace = [] ∧ State.reset.refused = false) ∧
  (∀ s : State, s.txn = false → NoFailure s 4 → ∃ t, exec .init s = .next t ∧
    t.ce = .known .deasserted ∧ t.clk = .known .low ∧ t.dir = .known .output ∧ t.dout = .unknown ∧ t.txn = false ∧
    t.trace = s.trace ++ [.setCe .deasserted, .setClk .low, .dir .output, .wait .tCWH])

/-- The invariant of the operation boundary holds at power-on (R210; 10_state.md R22, R23, R25). -/
def Obligations.BoundaryHoldsAtReset : Prop := Boundary State.reset

/-- Every step keeps the invariant of the operation boundary: no transaction stays open, CE is never left asserted, CLK is
never left High, the line records are what the trace makes of them, and every event of the trace respects the framing of the
bus by CE (10_state.md R22, R23, R25, R26, R28; 70_reset_and_hazards.md R213 to R215). -/
def Obligations.StepKeepsBoundary : Prop :=
  ∀ s t : State, Boundary s → step s = .next t → Boundary t

/-- The parameters are arguments of the model: no step writes them (00_scope.md R9); a run marked as refused stays so
(60_exceptions.md R185); and a step with a call pending uses up exactly the record of that call, one without changes nothing
(the call records are the model's choice, log entries 1, 2 and 12). -/
def Obligations.StepKeepsParams : Prop :=
  ∀ s t : State, step s = .next t → t.params = s.params ∧ (s.refused = true → t.refused = true) ∧
    ((s.calls = [] ∧ t = s) ∨ ∃ i, decode s.calls = .ok i t.calls)

/-- A step runs the call that the pending bytes decode to, on the state without its record. -/
def Obligations.StepRunsDecodedCall : Prop :=
  ∀ (s : State) (i : Instr) (rest : List Byte), decode s.calls = .ok i rest → step s = exec i { s with calls := rest }

/-- A step with no call pending changes nothing, and pending bytes that are no call record stop the machine by name (log
entries 12 and 18). -/
def Obligations.StepWithoutCall : Prop :=
  (∀ s : State, s.calls = [] → step s = .next s) ∧
  (∀ (s : State) (r : Reject), s.calls ≠ [] → decode s.calls = .reject r → step s = .fault (.badCall r))

/-- A table word placed as the next call is what the next step runs. -/
def Obligations.PlacedWordRuns : Prop :=
  ∀ (s : State) (nbits w : Nat) (i : Instr), decodeTableWord nbits w = some i →
    ∃ rest, step (s.withFetchWord nbits w) = exec i { s with calls := rest }

/-! ### Encodings -/

/-- Decoding the record of a well-formed instruction gives the instruction back, with the bytes after it (log entry 2). -/
def Obligations.DecodeEncode : Prop :=
  ∀ (i : Instr) (rest : List Byte), i.wf = true → decode (encode i ++ rest) = .ok i rest

/-- Words written out from the opcode table decode to rows they match. That a command byte which two rows match means the
row with the longer mask (0x81, 0x83, 0x85 and 0x80 the time operations), and that operand bytes a word does not give are
zeros, is the model's choice (log entry 2). -/
def Obligations.SampleWordsDecode : Prop :=
  decodeTableWord 8 0x81 = some .readSeconds ∧
  decodeTableWord 8 0x83 = some .readMinutes ∧
  decodeTableWord 8 0x85 = some .readHours ∧
  decodeTableWord 8 0x80 = some (.writeSeconds 0 false) ∧
  decodeTableWord 8 0xBF = some (.readRegister 31) ∧
  decodeTableWord 8 0x86 = some (.writeRegister 3 0) ∧
  decodeTableWord 8 0x7F = some (.ignoredCommand 0x7F) ∧
  decodeTableWord 8 0xC2 = some (.ramWriteCommand 1) ∧
  decodeTableWord 8 0xFF = some (.ramReadCommand 31)

/-- 30_encoding.md R72: `cmd(a, d) = {1, 0, a[4:0], d} = 0x80 | (a << 1) | d`, in 0x80..0xBF. -/
def Obligations.CommandByteAssembly : Prop :=
  ∀ a : Nat, a ≤ 31 →
    (cmdByte a .write).toNat = 0x80 + 2 * a ∧ (cmdByte a .read).toNat = 0x80 + 2 * a + 1 ∧
    (∀ d : Access, 0x80 ≤ (cmdByte a d).toNat ∧ (cmdByte a d).toNat ≤ 0xBF)

/-- 30_encoding.md R82: every byte is of exactly the class whose match and mask it has, with bits 5:1 the address. -/
def Obligations.CommandClassesByMask : Prop :=
  ∀ b : Byte,
    ((b &&& 0x80#8 = 0x00#8) ↔ ∃ x, classify b = .ignored x ∧ x.toNat = b.toNat) ∧
    ((b &&& 0xC1#8 = 0xC0#8) ↔ ∃ a, classify b = .ramWrite a ∧ b.toNat = 0xC0 + 2 * a.toNat) ∧
    ((b &&& 0xC1#8 = 0xC1#8) ↔ ∃ a, classify b = .ramRead a ∧ b.toNat = 0xC1 + 2 * a.toNat) ∧
    ((b &&& 0xC1#8 = 0x80#8) ↔ ∃ a, classify b = .clkWrite a ∧ b.toNat = 0x80 + 2 * a.toNat) ∧
    ((b &&& 0xC1#8 = 0x81#8) ↔ ∃ a, classify b = .clkRead a ∧ b.toNat = 0x81 + 2 * a.toNat)

/-! ### Primitives -/

/-- 10_state.md R26: each primitive call appends exactly one event, that of the call on success and its `Fail` on failure. -/
def Obligations.PrimitiveAppendsOneEvent : Prop :=
  ∀ (p : Prim) (s : State),
    (∃ b t, perform p s = .ok b t ∧ t.trace = s.trace ++
      [match p with
        | .setClk l => .setClk l
        | .setCe c => .setCe c
        | .setDio l => .setDio l
        | .dir d => .dir d
        | .get => .get b
        | .wait w => .wait w]) ∨
    (∃ t, perform p s = .fault (.fail p) t ∧ t.trace = s.trace ++ [.fail p])

/-- 10_state.md R28: a call fails exactly when its parameter admits failure and its draw says so; a failed call appends its
`Fail` event, makes the line it drives `Unknown` and changes no other line, a failed sample or delay changes none, and a
successful call writes the field it drives. -/
def Obligations.PrimitiveFailure : Prop :=
  ∀ (p : Prim) (s : State),
    let fails := (match p with | .wait _ => s.params.delayCanFail | _ => s.params.pinCanFail) && (s.drawAt 0).fails
    (fails = true → ∃ t, perform p s = .fault (.fail p) t ∧ t.trace = s.trace ++ [.fail p] ∧ t.lines =
      (match p with
        | .setClk _ => ⟨s.ce, .unknown, s.dir, s.dout⟩
        | .setCe _ => ⟨.unknown, s.clk, s.dir, s.dout⟩
        | .setDio _ => ⟨s.ce, s.clk, s.dir, .unknown⟩
        | .dir _ => ⟨s.ce, s.clk, .unknown, .unknown⟩
        | .get => s.lines
        | .wait _ => s.lines) ∧ t.txn = s.txn) ∧
    (fails = false → ∃ t, perform p s = .ok (s.drawAt 0).bit t ∧ t.lines =
      (match p with
        | .setClk l => ⟨s.ce, .known l, s.dir, s.dout⟩
        | .setCe c => ⟨.known c, s.clk, s.dir, s.dout⟩
        | .setDio l => ⟨s.ce, s.clk, s.dir, .known l⟩
        | .dir d => ⟨s.ce, s.clk, .known d, .unknown⟩
        | .get => s.lines
        | .wait _ => s.lines) ∧ t.txn = s.txn)

/-! ### Transport -/

/-- 40_transport.md R100: `init` is refused in a transaction; otherwise it attempts its four primitives in order whatever
fails, reports the first failure, and leaves each line as its call left it. -/
def Obligations.InitAttemptsEveryLine : Prop :=
  ∀ s : State,
    (s.txn = true → exec .init s = .next (s.refuse .initInTransaction)) ∧
    (s.txn = false → ∃ es : List Event,
      es.map Event.prim = [.setCe .deasserted, .setClk .low, .dir .output, .wait .tCWH] ∧
      exec .init s = .next (afterEvents s es
        (match es.find? Event.isFail with
          | none => .ok .unit
          | some ev => .err (.pinFault ev))) ∧
      (NoFailure s 4 → es = [.setCe .deasserted, .setClk .low, .dir .output, .wait .tCWH]))

/-- 40_transport.md R103: `set_data_direction` is refused with CLK High, with CE or CLK unknown, and to output in a
transaction; otherwise it emits `Dir(d)`, makes the direction `d` and the level unknown, and changes nothing else; and where
the call fails it leaves the direction unknown and reports the failure. -/
def Obligations.SetDataDirectionCompletes : Prop :=
  ∀ (d : Direction) (s : State),
    (s.clk = .known .high → exec (.setDataDirection d) s = .next (s.refuse .clockNotLow)) ∧
    (s.clk ≠ .known .high → s.ce = .unknown ∨ s.clk = .unknown →
      exec (.setDataDirection d) s = .next (s.refuse .lineUnknown)) ∧
    (s.clk = .known .low → s.ce ≠ .unknown → s.txn = true → d = .output →
      exec (.setDataDirection d) s = .next (s.refuse .outputDuringTransaction)) ∧
    (s.clk = .known .low → s.ce ≠ .unknown → ¬ (s.txn = true ∧ d = .output) →
      (NoFailure s 1 → exec (.setDataDirection d) s = .next
        { s.played 1 [.dir d] with dir := .known d, dout := .unknown, outcome := some (.ok .unit) }) ∧
      (CallFails s 0 (.dir d) → exec (.setDataDirection d) s = .next
        { s.played 1 [.fail (.dir d)] with
          dir := .unknown, dout := .unknown, outcome := some (.err (.pinFault (.fail (.dir d)))) }))

/-- 40_transport.md R104, the fault-free call: eight write bit cycles, bit 0 first, ending with CLK Low and the data line at
bit 7; nothing else changes. -/
def Obligations.WriteByteShiftsOut : Prop :=
  ∀ (v : Byte) (s : State), s.txn = true → s.dir = .known .output → s.clk = .known .low → NoFailure s 48 →
    exec (.writeByte v) s = .next
      { s.played 48 (writeByteEvents v) with
        dout := .known (if v.getLsbD 7 then .high else .low), outcome := some (.ok .unit) }

/-- 40_transport.md R105, the fault-free call: the byte of the eight samples, the first of them bit 0; no line changes. -/
def Obligations.ReadByteShiftsIn : Prop :=
  ∀ (s : State), s.txn = true → s.dir = .known .input → s.clk = .known .low → NoFailure s 40 →
    exec .readByte s = .next
      { s.played 40 (readByteEvents (sampledByte s 0)) with outcome := some (.ok (.byte (sampledByte s 0))) }

/-- The byte of eight samples has each sample as the bit of its place, the first as bit 0 (20_memory.md R54, 40 R105). -/
def Obligations.SamplesStandLsbFirst : Prop :=
  ∀ (s : State) (k i : Nat), i < 8 → (sampledByte s k).getLsbD i = (s.drawAt (k + 5 * i)).bit

/-- 40_transport.md R106, a body that only writes, of any length, the empty body included: the opening, the bytes, the
cleanup; the engine is idle after it. -/
def Obligations.TransactionOfWrites : Prop :=
  ∀ (vs : List Byte) (s : State), s.Idle → NoFailure s (5 + 48 * vs.length) →
    exec (.transaction ⟨vs.map fun v => .writeByte (.lit v), []⟩) s = .next
      { s.played (5 + 48 * vs.length) (openEvents ++ vs.flatMap writeByteEvents ++ closeWriteEvents) with
        dout := match vs.getLast? with
          | none => s.dout
          | some v => .known (if v.getLsbD 7 then .high else .low)
        outcome := some (.ok .unit) }

/-- 40_transport.md R106, a body that writes, turns the data line and reads, returning every byte read: the samples in order;
cleanup turns the line back after CE is deasserted. That a body names a result by the place of its call, and that several
returned bytes come back as a list (`bodyValue`), is the model's choice (log entry 10): R106 leaves the value's type open. -/
def Obligations.TransactionOfWritesThenReads : Prop :=
  ∀ (vs : List Byte) (n : Nat) (s : State), s.Idle → NoFailure s (7 + 48 * vs.length + 40 * n) →
    let read := (List.range n).map fun i => sampledByte s (3 + 48 * vs.length + 40 * i)
    exec (.transaction
        ⟨(vs.map fun v => .writeByte (.lit v)) ++ [.setDataDirection .input] ++ List.replicate n .readByte,
          (List.range n).map fun i => .result (vs.length + 1 + i)⟩) s = .next
      { s.played (7 + 48 * vs.length + 40 * n)
          (openEvents ++ vs.flatMap writeByteEvents ++ [.dir .input] ++ read.flatMap readByteEvents ++ closeReadEvents) with
        dout := .unknown
        outcome := some (.ok (bodyValue read)) }

/-- 40_transport.md R106: from the idle lines, a transaction whose body is well formed and whose calls its transaction admits
comes to its end whatever fails, and is not refused, with no transaction open and CE not left asserted. -/
def Obligations.TransactionCompletes : Prop :=
  ∀ (b : Body) (s : State), s.Idle → b.barred = false → b.bound = true → callsAdmitted .output b.calls = true →
    ∃ t, exec (.transaction b) s = .next t ∧ (∀ r, t.outcome ≠ some (.refused r)) ∧ t.txn = false ∧
      t.ce ≠ .known .asserted

/-- 40_transport.md R107: cleanup attempts every step whatever failed before it, CE first of the lines, CLK and the direction
only where they are not at their idle value; and the error is the first of the transaction's and its own. R107 gives a
`PinFault` as the transaction's; that an `InvalidBcdDigit` raised in the body comes before the cleanup's failures too is the
model's reading (log entry 11). -/
def Obligations.CleanupAttemptsEveryStep : Prop :=
  ∀ (first : Option Error) (s : State), ∃ es : List Event,
    es.map Event.prim = [.wait .tCCH, .setCe .deasserted] ++ (if s.clk = .known .low then [] else [.setClk .low]) ++
      (if s.dir = .known .output then [] else [.dir .output]) ++ [.wait .tCWH] ∧
    cleanup first s =
      ((match first with
        | some e => some e
        | none => (es.find? Event.isFail).map .pinFault),
       ({ s.played es.length es with txn := false }).setLines (s.lines.replay es)) ∧
    (es.find? Event.isFail = none →
      (s.lines.replay es).ce = .known .deasserted ∧ (s.lines.replay es).clk = .known .low ∧
      (s.lines.replay es).dir = .known .output)

/-- 95_test_vectors.md V16: an operation that opens a transaction from the idle lines leaves none open, and CE deasserted,
unless the deassert itself failed and left it unknown. -/
def Obligations.TransactionAlwaysDeasserts : Prop :=
  ∀ (i : Instr) (s t : State), opensTransaction i = true → s.Idle → exec i s = .next t →
    t.txn = false ∧ (t.ce = .known .deasserted ∨
      t.ce = .unknown ∧ .fail (.setCe .deasserted) ∈ t.trace.drop s.trace.length)

/-! ### Registers -/

/-- 41_register_engine.md R131, the fault-free call: the command byte of the address with direction read, the switch to
input, eight samples; the raw byte is returned unvalidated, and the lines are idle again. -/
def Obligations.ReadRegisterReturnsSamples : Prop :=
  ∀ (a : Nat) (s : State), a ≤ 31 → s.Idle → NoFailure s 95 →
    exec (.readRegister a) s = .next (afterRead s (cmdByte a .read) (.ok (.byte (sampledByte s 51))))

/-- 41_register_engine.md R132, the fault-free call: the command byte of the address with direction write, then the data byte
as given. -/
def Obligations.WriteRegisterSendsByte : Prop :=
  ∀ (a : Nat) (v : Byte) (s : State), a ≤ 31 → s.Idle → NoFailure s 101 →
    exec (.writeRegister a v) s = .next (afterWrite s (cmdByte a .write) v)

/-- 41_register_engine.md R131 corner case, 10_state.md R31: for every address and every byte there is a run in which the
read returns that byte. -/
def Obligations.EveryByteCanBeRead : Prop :=
  ∀ (a : Nat) (v : Byte), a ≤ 31 → ∃ s t : State, s.Idle ∧ NoFailure s 95 ∧
    exec (.readRegister a) s = .next t ∧ t.outcome = some (.ok (.byte v))

/-- 41_register_engine.md R133: `decode_bcd` returns `10 * hi + lo`, or `InvalidBcdDigit(raw)` exactly when a nibble exceeds
9, in every state; nothing else changes. -/
def Obligations.DecodeBcdResult : Prop :=
  ∀ (raw : Byte) (s : State),
    let hi := raw.toNat / 16
    let lo := raw.toNat % 16
    (hi > 9 ∨ lo > 9 → exec (.decodeBcd raw) s = .next { s with outcome := some (.err (.invalidBcdDigit raw)) }) ∧
    (hi ≤ 9 → lo ≤ 9 →
      exec (.decodeBcd raw) s = .next { s with outcome := some (.ok (.byte (BitVec.ofNat 8 (10 * hi + lo)))) })

/-- 41_register_engine.md R134: `encode_bcd` returns `((v / 10) << 4) | (v mod 10)` for `v <= 99` and is refused otherwise,
in every state; nothing else changes. -/
def Obligations.EncodeBcdResult : Prop :=
  ∀ (v : Byte) (s : State),
    (v.toNat ≤ 99 → exec (.encodeBcd v) s =
      .next { s with outcome := some (.ok (.byte (BitVec.ofNat 8 (16 * (v.toNat / 10) + v.toNat % 10)))) }) ∧
    (99 < v.toNat → exec (.encodeBcd v) s = .next (s.refuse .bcdRange))

/-- 41_register_engine.md R135: the BCD laws (a), (b), (c) and (d). -/
def Obligations.BcdLaws : Prop :=
  (∀ v : Byte, v.toNat ≤ 99 → decodeDigits (encodeDigits v) = some v) ∧
  (∀ b : Byte, b.toNat / 16 ≤ 9 → b.toNat % 16 ≤ 9 → (decodeDigits b).map encodeDigits = some b) ∧
  ((∀ b c v : Byte, decodeDigits b = some v → decodeDigits c = some v → b = c) ∧
    (∀ b v : Byte, decodeDigits b = some v → v.toNat ≤ 99) ∧
    (∀ v : Byte, v.toNat ≤ 99 → ∃ b : Byte, b.toNat / 16 ≤ 9 ∧ b.toNat % 16 ≤ 9 ∧ decodeDigits b = some v)) ∧
  (∀ b : Byte, decodeDigits b =
    if b.toNat / 16 > 9 ∨ b.toNat % 16 > 9 then none else some (BitVec.ofNat 8 (10 * (b.toNat / 16) + b.toNat % 16)))

/-! ### Time fields -/

/-- 42_time_fields.md R150, the fault-free read of seconds: bit 7 is dropped, the other seven bits decoded, and the error
holds the unmasked byte; values up to 79 are returned (R156). -/
def Obligations.ReadSecondsResult : Prop :=
  ∀ s : State, s.Idle → NoFailure s 95 →
    let raw := sampledByte s 51
    exec .readSeconds s = .next (afterRead s 0x81#8
      (if raw.toNat % 16 > 9 then .err (.invalidBcdDigit raw)
       else .ok (.byte (BitVec.ofNat 8 (10 * (raw.toNat / 16 % 8) + raw.toNat % 16)))))

/-- 42_time_fields.md R151, the fault-free read of minutes: all eight bits decoded; values up to 99 are returned (R156). -/
def Obligations.ReadMinutesResult : Prop :=
  ∀ s : State, s.Idle → NoFailure s 95 →
    let raw := sampledByte s 51
    exec .readMinutes s = .next (afterRead s 0x83#8
      (if raw.toNat / 16 > 9 ∨ raw.toNat % 16 > 9 then .err (.invalidBcdDigit raw)
       else .ok (.byte (BitVec.ofNat 8 (10 * (raw.toNat / 16) + raw.toNat % 16)))))

/-- 42_time_fields.md R152, the fault-free read of hours: bit 7 chooses the mode; in 12-hour mode bits 4:0 are the hour and
bit 5 the PM flag, in 24-hour mode bits 5:0 are the hour and there is no flag; bit 6 is read in neither; values outside the
time range are returned (R156). -/
def Obligations.ReadHoursResult : Prop :=
  ∀ s : State, s.Idle → NoFailure s 95 →
    let raw := sampledByte s 51
    exec .readHours s = .next (afterRead s 0x85#8
      (if raw.toNat % 16 > 9 then .err (.invalidBcdDigit raw)
       else if raw.getLsbD 7 = true then
         .ok (.hours (BitVec.ofNat 8 (10 * (raw.toNat / 16 % 2) + raw.toNat % 16)) (some (raw.getLsbD 5)))
       else
         .ok (.hours (BitVec.ofNat 8 (10 * (raw.toNat / 16 % 4) + raw.toNat % 16)) none)))

/-- 42_time_fields.md R153, the fault-free write of seconds. -/
def Obligations.WriteSecondsSendsByte : Prop :=
  ∀ (v : Byte) (ch : Bool) (s : State), v.toNat ≤ 59 → s.Idle → NoFailure s 101 →
    exec (.writeSeconds v ch) s = .next (afterWrite s 0x80#8
      (BitVec.ofNat 8 ((if ch then 128 else 0) + 16 * (v.toNat / 10) + v.toNat % 10)))

/-- 42_time_fields.md R154, the fault-free write of minutes. -/
def Obligations.WriteMinutesSendsByte : Prop :=
  ∀ (v : Byte) (s : State), v.toNat ≤ 59 → s.Idle → NoFailure s 101 →
    exec (.writeMinutes v) s = .next (afterWrite s 0x82#8 (BitVec.ofNat 8 (16 * (v.toNat / 10) + v.toNat % 10)))

/-- 42_time_fields.md R155, the fault-free write of hours in both modes. -/
def Obligations.WriteHoursSendsByte : Prop :=
  (∀ (h : Byte) (s : State), h.toNat ≤ 23 → s.Idle → NoFailure s 101 →
    exec (.writeHours h .h24) s = .next (afterWrite s 0x84#8 (BitVec.ofNat 8 (16 * (h.toNat / 10) + h.toNat % 10)))) ∧
  (∀ (h : Byte) (pm : Bool) (s : State), 1 ≤ h.toNat → h.toNat ≤ 12 → s.Idle → NoFailure s 101 →
    exec (.writeHours h (.h12 pm)) s = .next (afterWrite s 0x84#8
      (BitVec.ofNat 8 (128 + (if pm then 32 else 0) + 16 * (h.toNat / 10) + h.toNat % 10))))

/-- 42_time_fields.md R153 to R155: a time write in range is `write_register` of its address and data byte in every state,
whatever fails; out of range it is refused before any event. -/
def Obligations.TimeWritesAreRegisterWrites : Prop :=
  (∀ (v : Byte) (ch : Bool) (s : State), exec (.writeSeconds v ch) s =
    if v.toNat ≤ 59 then exec (.writeRegister 0 (BitVec.ofNat 8 ((if ch then 128 else 0) + 16 * (v.toNat / 10) + v.toNat % 10))) s
    else .next (s.refuse .fieldRange)) ∧
  (∀ (v : Byte) (s : State), exec (.writeMinutes v) s =
    if v.toNat ≤ 59 then exec (.writeRegister 1 (BitVec.ofNat 8 (16 * (v.toNat / 10) + v.toNat % 10))) s
    else .next (s.refuse .fieldRange)) ∧
  (∀ (h : Byte) (s : State), exec (.writeHours h .h24) s =
    if h.toNat ≤ 23 then exec (.writeRegister 2 (BitVec.ofNat 8 (16 * (h.toNat / 10) + h.toNat % 10))) s
    else .next (s.refuse .fieldRange)) ∧
  (∀ (h : Byte) (pm : Bool) (s : State), exec (.writeHours h (.h12 pm)) s =
    if 1 ≤ h.toNat ∧ h.toNat ≤ 12 then
      exec (.writeRegister 2 (BitVec.ofNat 8 (128 + (if pm then 32 else 0) + 16 * (h.toNat / 10) + h.toNat % 10))) s
    else .next (s.refuse .fieldRange))

/-- 42_time_fields.md R150 to R152: a time read is `read_register` of its address in every state, whatever fails, and where
that returns a byte, the decode of its field: seconds bits 6:0; minutes all bits; hours bits 4:0 with bit 5 the PM flag where
bit 7 is 1, and bits 5:0 with no flag where it is 0. A digit above 9 is an error that holds the whole byte. -/
def Obligations.TimeReadsAreDecodedRegisterReads : Prop :=
  ∀ s : State,
    (exec .readSeconds s = match exec (.readRegister 0) s with
      | .next t => match t.outcome with
        | some (.ok (.byte raw)) => .next (t.setOutcome
            (if raw.toNat % 16 > 9 then .err (.invalidBcdDigit raw)
             else .ok (.byte (BitVec.ofNat 8 (10 * (raw.toNat / 16 % 8) + raw.toNat % 16)))))
        | _ => .next t
      | .fault r => .fault r
      | .refused r => .refused r) ∧
    (exec .readMinutes s = match exec (.readRegister 1) s with
      | .next t => match t.outcome with
        | some (.ok (.byte raw)) => .next (t.setOutcome
            (if raw.toNat / 16 > 9 ∨ raw.toNat % 16 > 9 then .err (.invalidBcdDigit raw)
             else .ok (.byte (BitVec.ofNat 8 (10 * (raw.toNat / 16) + raw.toNat % 16)))))
        | _ => .next t
      | .fault r => .fault r
      | .refused r => .refused r) ∧
    (exec .readHours s = match exec (.readRegister 2) s with
      | .next t => match t.outcome with
        | some (.ok (.byte raw)) => .next (t.setOutcome
            (if raw.toNat % 16 > 9 then .err (.invalidBcdDigit raw)
             else if raw.getLsbD 7 = true then
               .ok (.hours (BitVec.ofNat 8 (10 * (raw.toNat / 16 % 2) + raw.toNat % 16)) (some (raw.getLsbD 5)))
             else
               .ok (.hours (BitVec.ofNat 8 (10 * (raw.toNat / 16 % 4) + raw.toNat % 16)) none)))
        | _ => .next t
      | .fault r => .fault r
      | .refused r => .refused r)

/-- 42_time_fields.md R156: a valid BCD field outside the time range is returned as decoded: seconds 60..79, minutes 60..99,
hours 0 and 13..19 in 12-hour mode, hours 24..39 in 24-hour mode, each in some run. -/
def Obligations.OutOfRangeValuesAreReturned : Prop :=
  (∀ v : Byte, 60 ≤ v.toNat → v.toNat ≤ 79 →
    ∃ s t : State, exec .readSeconds s = .next t ∧ t.outcome = some (.ok (.byte v))) ∧
  (∀ v : Byte, 60 ≤ v.toNat → v.toNat ≤ 99 →
    ∃ s t : State, exec .readMinutes s = .next t ∧ t.outcome = some (.ok (.byte v))) ∧
  (∀ (h : Byte) (pm : Bool), h.toNat = 0 ∨ (13 ≤ h.toNat ∧ h.toNat ≤ 19) →
    ∃ s t : State, exec .readHours s = .next t ∧ t.outcome = some (.ok (.hours h (some pm)))) ∧
  (∀ h : Byte, 24 ≤ h.toNat → h.toNat ≤ 39 →
    ∃ s t : State, exec .readHours s = .next t ∧ t.outcome = some (.ok (.hours h none)))

/-- 60_exceptions.md R183: a time read that reports `InvalidBcdDigit` has closed its transaction: the lines are idle, and
the error holds the byte sampled; `decode_bcd` reports it for its own argument. -/
def Obligations.InvalidDigitAfterClose : Prop :=
  (∀ (i : Instr) (s t : State) (raw : Byte), i ∈ [Instr.readSeconds, .readMinutes, .readHours] →
    exec i s = .next t → t.outcome = some (.err (.invalidBcdDigit raw)) →
    t.Idle ∧ raw = sampledByte s 51 ∧ (raw.toNat % 16 > 9 ∨ raw.toNat / 16 > 9)) ∧
  (∀ (b : Byte) (s : State), b.toNat / 16 > 9 ∨ b.toNat % 16 > 9 →
    exec (.decodeBcd b) s = .next { s with outcome := some (.err (.invalidBcdDigit b)) })

/-! ### The command classes no operation sends -/

/-- 20_memory.md R53, 30_encoding.md R82: a command byte with bit 7 = 0 has no effect (log entry 7). -/
def Obligations.IgnoredCommandHasNoEffect : Prop :=
  ∀ (x : BitVec 7) (s : State), exec (.ignoredCommand x) s = .next s

/-- 93_implementation_defined.md I5: a RAM command has no meaning in this model (log entry 8). -/
def Obligations.RamCommandsAreRefused : Prop :=
  ∀ (a : Address) (s : State),
    exec (.ramWriteCommand a) s = .refused .ramCommand ∧ exec (.ramReadCommand a) s = .refused .ramCommand

/-! ### Errors and refusals -/

/-- 60_exceptions.md R182, R186: the reported `PinFault` is the first `Fail` event the operation appended, and an `Ok` means
that none was. The ignored command class is no operation and reports nothing. -/
def Obligations.FirstFailureIsReported : Prop :=
  ∀ (i : Instr) (s t : State), (∀ x, i ≠ .ignoredCommand x) → exec i s = .next t → ∃ es, t.trace = s.trace ++ es ∧
    (∀ ev, t.outcome = some (.err (.pinFault ev)) → es.find? Event.isFail = some ev) ∧
    (∀ v, t.outcome = some (.ok v) → es.find? Event.isFail = none)

/-- 40_transport.md R106, R107, 60_exceptions.md R182, R184: a `write_register` whose call of its `k`-th event fails, and no
later call of its cleanup, has emitted the events before it, the `Fail` event and the cleanup, and reports that failure; the
lines are idle. -/
def Obligations.WriteFaultRunsCleanup : Prop :=
  ∀ (a : Nat) (v : Byte) (s : State) (k : Nat) (p : Prim), a ≤ 31 → s.Idle →
    (((writeAccessEvents (cmdByte a .write) v).take 98)[k]?).map Event.prim = some p →
    NoFailure s k → CallFails s k p → QuietFrom s (k + 1) 5 →
    ∃ t, exec (.writeRegister a v) s = .next t ∧ t.Idle ∧
      t = afterEvents s (faultedEvents s.lines (writeAccessEvents (cmdByte a .write) v) k p) (.err (.pinFault (.fail p)))

/-- The same of `read_register`, whose cleanup also turns the data line back to an output. -/
def Obligations.ReadFaultRunsCleanup : Prop :=
  ∀ (a : Nat) (s : State) (k : Nat) (p : Prim), a ≤ 31 → s.Idle →
    (((readAccessEvents (cmdByte a .read) (sampledByte s 51)).take 91)[k]?).map Event.prim = some p →
    NoFailure s k → CallFails s k p → QuietFrom s (k + 1) 5 →
    ∃ t, exec (.readRegister a) s = .next t ∧ t.Idle ∧
      t = afterEvents s (faultedEvents s.lines (readAccessEvents (cmdByte a .read) (sampledByte s 51)) k p)
        (.err (.pinFault (.fail p)))

/-- 60_exceptions.md R185, the refusals by an argument: they come first, in every state. -/
def Obligations.ArgumentRefusals : Prop :=
  (∀ (a : Nat) (v : Byte) (s : State), 31 < a →
    exec (.readRegister a) s = .next (s.refuse .addressOutOfRange) ∧
    exec (.writeRegister a v) s = .next (s.refuse .addressOutOfRange)) ∧
  (∀ (v : Byte) (s : State), 99 < v.toNat → exec (.encodeBcd v) s = .next (s.refuse .bcdRange)) ∧
  (∀ (v : Byte) (ch : Bool) (s : State), 59 < v.toNat →
    exec (.writeSeconds v ch) s = .next (s.refuse .fieldRange) ∧
    exec (.writeMinutes v) s = .next (s.refuse .fieldRange)) ∧
  (∀ (h : Byte) (s : State), 23 < h.toNat → exec (.writeHours h .h24) s = .next (s.refuse .fieldRange)) ∧
  (∀ (h : Byte) (pm : Bool) (s : State), h.toNat < 1 ∨ 12 < h.toNat →
    exec (.writeHours h (.h12 pm)) s = .next (s.refuse .fieldRange))

/-- 60_exceptions.md R185, the refusals of the byte transfers, in the order of R186. -/
def Obligations.ByteTransferRefusals : Prop :=
  ∀ (s : State) (v : Byte),
    (s.txn = false → exec (.writeByte v) s = .next (s.refuse .outsideTransaction) ∧
      exec .readByte s = .next (s.refuse .outsideTransaction)) ∧
    (s.txn = true → s.dir ≠ .known .output → exec (.writeByte v) s = .next (s.refuse .wrongDirection)) ∧
    (s.txn = true → s.dir ≠ .known .input → exec .readByte s = .next (s.refuse .wrongDirection)) ∧
    (s.txn = true → s.dir = .known .output → s.clk = .known .high → exec (.writeByte v) s = .next (s.refuse .clockNotLow)) ∧
    (s.txn = true → s.dir = .known .input → s.clk = .known .high → exec .readByte s = .next (s.refuse .clockNotLow)) ∧
    (s.txn = true → s.dir = .known .output → s.clk = .unknown → exec (.writeByte v) s = .next (s.refuse .lineUnknown)) ∧
    (s.txn = true → s.dir = .known .input → s.clk = .unknown → exec .readByte s = .next (s.refuse .lineUnknown))

/-- 60_exceptions.md R185, R186: an operation that opens a transaction, its arguments in range or a transaction whatever its
body, is refused in a transaction; else where a line is known and not idle; else where a line is unknown. From the idle lines
a body that makes a call R106 bars is refused, and one that uses an unbound name stops the run (the model's choice, log entry
10). A call refused inside a body, after bytes written or after bytes written, the switch to input and bytes read, makes the
transaction refused with its reason, and the run ends there (R106; log entry 6): a byte in the wrong direction, the switch to
output, and `encode_bcd` of a literal or of a byte read that is above 99. -/
def Obligations.TransactionRefusals : Prop :=
  (∀ (i : Instr) (s : State), opensTransaction i = true → (i.wf = true ∨ ∃ b, i = .transaction b) →
    (s.txn = true → exec i s = .next (s.refuse .nestedTransaction)) ∧
    (s.txn = false →
      s.ce = .known .asserted ∨ s.clk = .known .high ∨ s.dir = .known .input → exec i s = .next (s.refuse .notIdle)) ∧
    (s.txn = false → s.ce ≠ .known .asserted → s.clk ≠ .known .high → s.dir ≠ .known .input →
      s.ce = .unknown ∨ s.clk = .unknown ∨ s.dir = .unknown → exec i s = .next (s.refuse .lineUnknown))) ∧
  (∀ (b : Body) (s : State), s.Idle →
    (b.barred = true → exec (.transaction b) s = .next (s.refuse .badBody)) ∧
    (b.barred = false → b.bound = false → exec (.transaction b) s = .refused .unboundName)) ∧
  (∀ (vs : List Byte) (c : BodyCall) (post : List BodyCall) (rets : List Arg) (s : State) (r : Reason),
    let b : Body := ⟨(vs.map fun v => .writeByte (.lit v)) ++ c :: post, rets⟩
    (c = .readByte ∧ r = .wrongDirection) ∨ (c = .setDataDirection .output ∧ r = .outputDuringTransaction) ∨
      (∃ v : Byte, 99 < v.toNat ∧ c = .encodeBcd (.lit v) ∧ r = .bcdRange) →
    s.Idle → NoFailure s (2 + 48 * vs.length) → b.barred = false → b.bound = true →
    exec (.transaction b) s = .refused (.inBody r)) ∧
  (∀ (vs : List Byte) (n : Nat) (c : BodyCall) (post : List BodyCall) (rets : List Arg) (s : State) (r : Reason),
    let b : Body := ⟨(vs.map fun v => .writeByte (.lit v)) ++ [.setDataDirection .input] ++ List.replicate n .readByte ++
      c :: post, rets⟩
    ((∃ a, c = .writeByte a) ∧ r = .wrongDirection) ∨ (c = .setDataDirection .output ∧ r = .outputDuringTransaction) ∨
      (∃ v : Byte, 99 < v.toNat ∧ c = .encodeBcd (.lit v) ∧ r = .bcdRange) ∨
      (∃ k, k < n ∧ 99 < (sampledByte s (3 + 48 * vs.length + 40 * k)).toNat ∧
        c = .encodeBcd (.result (vs.length + 1 + k)) ∧ r = .bcdRange) →
    s.Idle → NoFailure s (3 + 48 * vs.length + 40 * n) → b.barred = false → b.bound = true →
    exec (.transaction b) s = .refused (.inBody r))

/-- 60_exceptions.md R181: the codes of the two errors, and which operations report which: `PinFault` those that emit events,
`InvalidBcdDigit` the decoding ones, and a transaction only where its body calls `decode_bcd` (40_transport.md R106). The
ignored command class is no operation and reports nothing. -/
def Obligations.ErrorsByOperation : Prop :=
  (∀ ev, errorCode (.pinFault ev) = 1) ∧ (∀ raw, errorCode (.invalidBcdDigit raw) = 2) ∧
  (∀ (i : Instr) (s t : State) (ev : Event), (∀ x, i ≠ .ignoredCommand x) → exec i s = .next t →
    t.outcome = some (.err (.pinFault ev)) → (∀ b, i ≠ .decodeBcd b) ∧ (∀ v, i ≠ .encodeBcd v)) ∧
  (∀ (i : Instr) (s t : State) (raw : Byte), (∀ x, i ≠ .ignoredCommand x) → exec i s = .next t →
    t.outcome = some (.err (.invalidBcdDigit raw)) →
    i = .readSeconds ∨ i = .readMinutes ∨ i = .readHours ∨ i = .decodeBcd raw ∨
      ∃ b a, i = .transaction b ∧ .decodeBcd a ∈ b.calls)

/-- 60_exceptions.md R185, R188, 10_state.md R22: with CE unknown at an operation boundary `init` runs, and so do
`decode_bcd` and `encode_bcd`, which read no line; every other operation is refused, and the caller may invoke `init` next
(R187, R194), which then runs. -/
def Obligations.UnknownCeNeedsInit : Prop :=
  ∀ s : State, s.ce = .unknown → s.txn = false →
    (∃ t, exec .init s = .next t ∧ ∀ r, t.outcome ≠ some (.refused r)) ∧
    (∀ b, ∃ t, exec (.decodeBcd b) s = .next t ∧ ∀ r, t.outcome ≠ some (.refused r)) ∧
    (∀ v : Byte, v.toNat ≤ 99 → ∃ t w, exec (.encodeBcd v) s = .next t ∧ t.outcome = some (.ok (.byte w))) ∧
    ∀ i : Instr, i ≠ .init → (∀ b, i ≠ .decodeBcd b) → (∀ v, i ≠ .encodeBcd v) → (∀ x, i ≠ .ignoredCommand x) →
      (∀ a, i ≠ .ramWriteCommand a) → (∀ a, i ≠ .ramReadCommand a) →
      ∃ r, exec i s = .next (s.refuse r) ∧
        ∃ t, exec .init (s.refuse r) = .next t ∧ ∀ r', t.outcome ≠ some (.refused r')

/-! ### Frames and order -/

/-- 20_memory.md R61: an operation appends to the trace and changes nothing before; the line records follow the events
(10_state.md R26, R28); and a refused call appends no event and changes nothing but the outcome and the mark of the run,
which only a refusal sets (60_exceptions.md R185). The ignored command class is no operation and has no outcome. -/
def Obligations.TraceOnlyGrows : Prop :=
  ∀ (i : Instr) (s t : State), exec i s = .next t →
    (∃ es, t.trace = s.trace ++ es ∧ t.lines = s.lines.replay es) ∧ t.params = s.params ∧ t.calls = s.calls ∧
    ((∀ x, i ≠ .ignoredCommand x) →
      (∀ r, t.outcome = some (.refused r) → t = s.refuse r) ∧
      ((∀ r, t.outcome ≠ some (.refused r)) → t.refused = s.refused))

/-- What the transport operations leave unchanged, whatever fails (40_transport.md "State written"); and that only
transactions and `init` write CE and `S.TXN`, and only they and `set_data_direction` the direction (10_state.md R22, R24). -/
def Obligations.TransportFrames : Prop :=
  (∀ (i : Instr) (s t : State), opensTransaction i = false → i ≠ .init → exec i s = .next t →
    t.ce = s.ce ∧ t.txn = s.txn ∧ ((∀ d, i ≠ .setDataDirection d) → t.dir = s.dir)) ∧
  (∀ (d : Direction) (s t : State), exec (.setDataDirection d) s = .next t →
    t.ce = s.ce ∧ t.clk = s.clk ∧ t.txn = s.txn ∧ t.params = s.params ∧ t.calls = s.calls) ∧
  (∀ (v : Byte) (s t : State), exec (.writeByte v) s = .next t →
    t.ce = s.ce ∧ t.dir = s.dir ∧ t.txn = s.txn ∧ t.params = s.params ∧ t.calls = s.calls) ∧
  (∀ (s t : State), exec .readByte s = .next t →
    t.ce = s.ce ∧ t.dir = s.dir ∧ t.dout = s.dout ∧ t.txn = s.txn ∧ t.params = s.params ∧ t.calls = s.calls)

/-- What a register or time operation leaves unchanged when it reports no `PinFault`: CE, CLK, the direction and `S.TXN`
(41_register_engine.md R131 "Net effect on `S.CE`, `S.CLK` and `S.DIR`: none on a fault-free run"). -/
def Obligations.RegisterFrames : Prop :=
  ∀ (i : Instr) (s t : State), opensTransaction i = true → exec i s = .next t →
    (∀ ev, t.outcome ≠ some (.err (.pinFault ev))) → (∀ b, i ≠ .transaction b) →
    t.ce = s.ce ∧ t.clk = s.clk ∧ t.dir = s.dir ∧ t.txn = s.txn ∧ t.params = s.params ∧ t.calls = s.calls

/-- 10_state.md R24: no precondition reads `S.DOUT`, so it decides neither whether a call is refused nor with which reason. -/
def Obligations.DoutNeverRefuses : Prop :=
  ∀ (i : Instr) (s : State) (l : Line Level),
    (∀ r, exec i s = .next (s.refuse r) ↔ exec i { s with dout := l } = .next (State.refuse { s with dout := l } r)) ∧
    (∀ r, exec i s = .refused r ↔ exec i { s with dout := l } = .refused r)

/-- 70_reset_and_hazards.md R221: the events, the clock pulses and the samples of every fault-free operation that is not refused. -/
def Obligations.EventCounts : Prop :=
  ∀ (i : Instr) (s t : State) (es : List Event), NoFailure s 101 → exec i s = .next t → t.trace = s.trace ++ es →
    (∀ r, t.outcome ≠ some (.refused r)) →
    let counts := (es.length, es.countP Event.isRise, es.countP Event.isGet)
    match i with
    | .init => counts = (4, 0, 0)
    | .writeByte _ => counts = (48, 8, 0)
    | .readByte => counts = (40, 8, 8)
    | .setDataDirection _ => counts = (1, 0, 0)
    | .readRegister _ | .readSeconds | .readMinutes | .readHours => counts = (95, 16, 8)
    | .writeRegister _ _ | .writeSeconds _ _ | .writeMinutes _ | .writeHours _ _ => counts = (101, 16, 0)
    | .decodeBcd _ | .encodeBcd _ => counts = (0, 0, 0)
    | .transaction _ | .ignoredCommand _ | .ramWriteCommand _ | .ramReadCommand _ => True

/-! ### Timing and the device -/

/-- 70_reset_and_hazards.md R216: with parameters that meet their constraints, the waits of a fault-free register access keep
every separation of the table, from a bus that has settled, and leave it settled for the next. -/
def Obligations.AccessesKeepTimingContract : Prop :=
  ∀ (i : Instr) (s t : State) (es : List Event) (n : Elapsed),
    (∃ a, i = .readRegister a) ∨ (∃ a v, i = .writeRegister a v) →
    TimingConsistent s.params.timing → Settled s.params.timing n → NoFailure s 101 → exec i s = .next t →
    t.trace = s.trace ++ es →
    timely s.params.timing n es = true ∧ Settled s.params.timing (n.run s.params.timing es)

/-- 10_state.md R33, 41_register_engine.md R132: under the reference responder, a fault-free `write_register` leaves the byte
in the register it addresses, every other register as it was, and the responder idle. -/
def Obligations.WriteReachesResponder : Prop :=
  ∀ (a : Address) (v : Byte) (s t : State) (es : List Event) (d : Responder), s.Idle → NoFailure s 101 →
    d.phase = .idle → d.lines = s.lines → exec (.writeRegister a.toNat v) s = .next t → t.trace = s.trace ++ es →
    (d.run es).phase = .idle ∧ (d.run es).lines = t.lines ∧
    ∀ a' : Address, (d.run es).regAt a' = if a' = a then v else d.regAt a'

/-- 10_state.md R33, 41_register_engine.md R131: under the reference responder, a fault-free `read_register` returns the
register it addresses, and changes none. -/
def Obligations.ReadReturnsResponderRegister : Prop :=
  ∀ (a : Address) (s t : State) (es : List Event) (d : Responder), s.Idle → NoFailure s 95 →
    d.phase = .idle → d.lines = s.lines → exec (.readRegister a.toNat) s = .next t → t.trace = s.trace ++ es →
    d.explains es = true →
    t.outcome = some (.ok (.byte (d.regAt a))) ∧
    (d.run es).phase = .idle ∧ (d.run es).lines = t.lines ∧ ∀ a' : Address, (d.run es).regAt a' = d.regAt a'

/-- 20_memory.md R53, 10_state.md R33: the reference responder ignores a transaction whose command byte has bit 7 = 0 or
bit 6 = 1, whatever the body does after that byte and whatever fails: it writes nothing, presents no bit inside the
transaction (so it constrains no sample), and is idle after it. -/
def Obligations.ResponderIgnoresOtherCommands : Prop :=
  ∀ (c : Byte) (cs : List BodyCall) (rets : List Arg) (s t : State) (es : List Event) (d : Responder), s.Idle →
    d.phase = .idle → d.lines = s.lines → c.getLsbD 7 = false ∨ c.getLsbD 6 = true →
    exec (.transaction ⟨.writeByte (.lit c) :: cs, rets⟩) s = .next t → t.trace = s.trace ++ es →
    (d.run es).reg = d.reg ∧ (d.run es).phase = .idle ∧ (d.run es).lines = t.lines ∧
    ∀ k, (d.run (es.take k)).answer = none

/-- 95_test_vectors.md P1, for every time: under the reference responder, what a fault-free time write sends the next
fault-free read of that field returns, the clock-halt bit masked off. -/
def Obligations.TimeRoundTripUnderResponder : Prop :=
  ∀ (w r : Instr) (v : Value) (s t u : State) (es fs : List Event) (d : Responder), w.wf = true →
    ((∃ x ch, w = .writeSeconds x ch ∧ r = .readSeconds ∧ v = .byte x) ∨
     (∃ x, w = .writeMinutes x ∧ r = .readMinutes ∧ v = .byte x) ∨
     (∃ h, w = .writeHours h .h24 ∧ r = .readHours ∧ v = .hours h none) ∨
     (∃ h pm, w = .writeHours h (.h12 pm) ∧ r = .readHours ∧ v = .hours h (some pm))) →
    s.Idle → NoFailure s 196 → d.phase = .idle → d.lines = s.lines →
    exec w s = .next t → t.trace = s.trace ++ es → exec r t = .next u → u.trace = t.trace ++ fs →
    d.explains (es ++ fs) = true → u.outcome = some (.ok v)

/-- 00_scope.md R9, R13: the physical level of chip-enable is `CE_ACTIVE_LEVEL` while it is asserted, the other level while
it is deasserted, and unknown while it is unknown. -/
def Obligations.CePinByActiveLevel : Prop :=
  ∀ s : State,
    (s.ce = .known .asserted → s.cePin = .known s.params.ceActive) ∧
    (s.ce = .known .deasserted → ∃ l, s.cePin = .known l ∧ l ≠ s.params.ceActive) ∧
    (s.ce = .unknown → s.cePin = .unknown)
end

