-- ==== Sys2Proof/Laws/Decode.lean ====
section
/-! SUPPORT. The class of every command byte the engine builds (30_encoding.md R72, R82), and records read back. -/

namespace Sys2Proof

theorem classify_cmdByte_fin : ∀ a : Fin 32,
    classify (cmdByte a .read) = .clkRead (BitVec.ofNat 5 a) ∧ classify (cmdByte a .write) = .clkWrite (BitVec.ofNat 5 a) := by
  decide

/-- A read command is of class CLK_READ, with its address. -/
theorem classify_cmdByte_read (a : Nat) (h : a ≤ 31) : classify (cmdByte a .read) = .clkRead (BitVec.ofNat 5 a) :=
  (classify_cmdByte_fin ⟨a, by omega⟩).1

/-- A write command is of class CLK_WRITE, with its address. -/
theorem classify_cmdByte_write (a : Nat) (h : a ≤ 31) : classify (cmdByte a .write) = .clkWrite (BitVec.ofNat 5 a) :=
  (classify_cmdByte_fin ⟨a, by omega⟩).2

/-- Operand bytes read back. -/
@[simp] theorem directionOf_directionByte (d : Direction) : directionOf (directionByte d) = some d := by cases d <;> rfl

@[simp] theorem flagOf_flagByte (b : Bool) : flagOf (flagByte b) = some b := by cases b <;> rfl

@[simp] theorem hourModeOf_hourModeByte (m : HourMode) : hourModeOf (hourModeByte m) = some m := by
  match m with
  | .h24 => rfl
  | .h12 false => rfl
  | .h12 true => rfl

@[simp] theorem barredOpOf_barredOpByte (op : BarredOp) : barredOpOf (barredOpByte op) = some op := by cases op <;> rfl

end Sys2Proof
end

