-- ==== Sys2Proof/Laws/State.lean ====
section
/-! SUPPORT. What each field of State is after each named update, and the line records after the updates that touch them. -/

namespace Sys2Proof.Machine

@[simp] theorem State.log_ce (s : State) (e : Event) : (s.log e).ce = s.ce := rfl
@[simp] theorem State.log_clk (s : State) (e : Event) : (s.log e).clk = s.clk := rfl
@[simp] theorem State.log_dir (s : State) (e : Event) : (s.log e).dir = s.dir := rfl
@[simp] theorem State.log_dout (s : State) (e : Event) : (s.log e).dout = s.dout := rfl
@[simp] theorem State.log_txn (s : State) (e : Event) : (s.log e).txn = s.txn := rfl
@[simp] theorem State.log_trace (s : State) (e : Event) : (s.log e).trace = s.trace ++ [e] := rfl
@[simp] theorem State.log_params (s : State) (e : Event) : (s.log e).params = s.params := rfl
@[simp] theorem State.log_refused (s : State) (e : Event) : (s.log e).refused = s.refused := rfl
@[simp] theorem State.log_draws (s : State) (e : Event) : (s.log e).draws = s.draws := rfl
@[simp] theorem State.log_drawIx (s : State) (e : Event) : (s.log e).drawIx = s.drawIx := rfl
@[simp] theorem State.log_outcome (s : State) (e : Event) : (s.log e).outcome = s.outcome := rfl
@[simp] theorem State.log_calls (s : State) (e : Event) : (s.log e).calls = s.calls := rfl

@[simp] theorem State.useDraw_ce (s : State) : s.useDraw.ce = s.ce := rfl
@[simp] theorem State.useDraw_clk (s : State) : s.useDraw.clk = s.clk := rfl
@[simp] theorem State.useDraw_dir (s : State) : s.useDraw.dir = s.dir := rfl
@[simp] theorem State.useDraw_dout (s : State) : s.useDraw.dout = s.dout := rfl
@[simp] theorem State.useDraw_txn (s : State) : s.useDraw.txn = s.txn := rfl
@[simp] theorem State.useDraw_trace (s : State) : s.useDraw.trace = s.trace := rfl
@[simp] theorem State.useDraw_params (s : State) : s.useDraw.params = s.params := rfl
@[simp] theorem State.useDraw_refused (s : State) : s.useDraw.refused = s.refused := rfl
@[simp] theorem State.useDraw_draws (s : State) : s.useDraw.draws = s.draws.tail := rfl
@[simp] theorem State.useDraw_drawIx (s : State) : s.useDraw.drawIx = s.drawIx + 1 := rfl
@[simp] theorem State.useDraw_outcome (s : State) : s.useDraw.outcome = s.outcome := rfl
@[simp] theorem State.useDraw_calls (s : State) : s.useDraw.calls = s.calls := rfl

@[simp] theorem State.setTxn_ce (s : State) (b : Bool) : (s.setTxn b).ce = s.ce := rfl
@[simp] theorem State.setTxn_clk (s : State) (b : Bool) : (s.setTxn b).clk = s.clk := rfl
@[simp] theorem State.setTxn_dir (s : State) (b : Bool) : (s.setTxn b).dir = s.dir := rfl
@[simp] theorem State.setTxn_dout (s : State) (b : Bool) : (s.setTxn b).dout = s.dout := rfl
@[simp] theorem State.setTxn_txn (s : State) (b : Bool) : (s.setTxn b).txn = b := rfl
@[simp] theorem State.setTxn_trace (s : State) (b : Bool) : (s.setTxn b).trace = s.trace := rfl
@[simp] theorem State.setTxn_params (s : State) (b : Bool) : (s.setTxn b).params = s.params := rfl
@[simp] theorem State.setTxn_refused (s : State) (b : Bool) : (s.setTxn b).refused = s.refused := rfl
@[simp] theorem State.setTxn_draws (s : State) (b : Bool) : (s.setTxn b).draws = s.draws := rfl
@[simp] theorem State.setTxn_drawIx (s : State) (b : Bool) : (s.setTxn b).drawIx = s.drawIx := rfl
@[simp] theorem State.setTxn_outcome (s : State) (b : Bool) : (s.setTxn b).outcome = s.outcome := rfl
@[simp] theorem State.setTxn_calls (s : State) (b : Bool) : (s.setTxn b).calls = s.calls := rfl

@[simp] theorem State.setOutcome_ce (s : State) (r : Result) : (s.setOutcome r).ce = s.ce := rfl
@[simp] theorem State.setOutcome_clk (s : State) (r : Result) : (s.setOutcome r).clk = s.clk := rfl
@[simp] theorem State.setOutcome_dir (s : State) (r : Result) : (s.setOutcome r).dir = s.dir := rfl
@[simp] theorem State.setOutcome_dout (s : State) (r : Result) : (s.setOutcome r).dout = s.dout := rfl
@[simp] theorem State.setOutcome_txn (s : State) (r : Result) : (s.setOutcome r).txn = s.txn := rfl
@[simp] theorem State.setOutcome_trace (s : State) (r : Result) : (s.setOutcome r).trace = s.trace := rfl
@[simp] theorem State.setOutcome_params (s : State) (r : Result) : (s.setOutcome r).params = s.params := rfl
@[simp] theorem State.setOutcome_refused (s : State) (r : Result) : (s.setOutcome r).refused = s.refused := rfl
@[simp] theorem State.setOutcome_draws (s : State) (r : Result) : (s.setOutcome r).draws = s.draws := rfl
@[simp] theorem State.setOutcome_drawIx (s : State) (r : Result) : (s.setOutcome r).drawIx = s.drawIx := rfl
@[simp] theorem State.setOutcome_outcome (s : State) (r : Result) : (s.setOutcome r).outcome = some r := rfl
@[simp] theorem State.setOutcome_calls (s : State) (r : Result) : (s.setOutcome r).calls = s.calls := rfl

@[simp] theorem State.refuse_ce (s : State) (r : Reason) : (s.refuse r).ce = s.ce := rfl
@[simp] theorem State.refuse_clk (s : State) (r : Reason) : (s.refuse r).clk = s.clk := rfl
@[simp] theorem State.refuse_dir (s : State) (r : Reason) : (s.refuse r).dir = s.dir := rfl
@[simp] theorem State.refuse_dout (s : State) (r : Reason) : (s.refuse r).dout = s.dout := rfl
@[simp] theorem State.refuse_txn (s : State) (r : Reason) : (s.refuse r).txn = s.txn := rfl
@[simp] theorem State.refuse_trace (s : State) (r : Reason) : (s.refuse r).trace = s.trace := rfl
@[simp] theorem State.refuse_params (s : State) (r : Reason) : (s.refuse r).params = s.params := rfl
@[simp] theorem State.refuse_draws (s : State) (r : Reason) : (s.refuse r).draws = s.draws := rfl
@[simp] theorem State.refuse_drawIx (s : State) (r : Reason) : (s.refuse r).drawIx = s.drawIx := rfl
@[simp] theorem State.refuse_calls (s : State) (r : Reason) : (s.refuse r).calls = s.calls := rfl
@[simp] theorem State.refuse_refused (s : State) (r : Reason) : (s.refuse r).refused = true := rfl
@[simp] theorem State.refuse_outcome (s : State) (r : Reason) : (s.refuse r).outcome = some (.refused r) := rfl

@[simp] theorem State.setCalls_ce (s : State) (bs : List Byte) : (s.setCalls bs).ce = s.ce := rfl
@[simp] theorem State.setCalls_clk (s : State) (bs : List Byte) : (s.setCalls bs).clk = s.clk := rfl
@[simp] theorem State.setCalls_dir (s : State) (bs : List Byte) : (s.setCalls bs).dir = s.dir := rfl
@[simp] theorem State.setCalls_dout (s : State) (bs : List Byte) : (s.setCalls bs).dout = s.dout := rfl
@[simp] theorem State.setCalls_txn (s : State) (bs : List Byte) : (s.setCalls bs).txn = s.txn := rfl
@[simp] theorem State.setCalls_trace (s : State) (bs : List Byte) : (s.setCalls bs).trace = s.trace := rfl
@[simp] theorem State.setCalls_params (s : State) (bs : List Byte) : (s.setCalls bs).params = s.params := rfl
@[simp] theorem State.setCalls_refused (s : State) (bs : List Byte) : (s.setCalls bs).refused = s.refused := rfl
@[simp] theorem State.setCalls_draws (s : State) (bs : List Byte) : (s.setCalls bs).draws = s.draws := rfl
@[simp] theorem State.setCalls_drawIx (s : State) (bs : List Byte) : (s.setCalls bs).drawIx = s.drawIx := rfl
@[simp] theorem State.setCalls_outcome (s : State) (bs : List Byte) : (s.setCalls bs).outcome = s.outcome := rfl
@[simp] theorem State.setCalls_calls (s : State) (bs : List Byte) : (s.setCalls bs).calls = bs := rfl

@[simp] theorem State.played_ce (s : State) (n : Nat) (es : List Event) : (s.played n es).ce = s.ce := rfl
@[simp] theorem State.played_clk (s : State) (n : Nat) (es : List Event) : (s.played n es).clk = s.clk := rfl
@[simp] theorem State.played_dir (s : State) (n : Nat) (es : List Event) : (s.played n es).dir = s.dir := rfl
@[simp] theorem State.played_dout (s : State) (n : Nat) (es : List Event) : (s.played n es).dout = s.dout := rfl
@[simp] theorem State.played_txn (s : State) (n : Nat) (es : List Event) : (s.played n es).txn = s.txn := rfl
@[simp] theorem State.played_trace (s : State) (n : Nat) (es : List Event) : (s.played n es).trace = s.trace ++ es := rfl
@[simp] theorem State.played_params (s : State) (n : Nat) (es : List Event) : (s.played n es).params = s.params := rfl
@[simp] theorem State.played_refused (s : State) (n : Nat) (es : List Event) : (s.played n es).refused = s.refused := rfl
@[simp] theorem State.played_draws (s : State) (n : Nat) (es : List Event) : (s.played n es).draws = s.draws.drop n := rfl
@[simp] theorem State.played_drawIx (s : State) (n : Nat) (es : List Event) : (s.played n es).drawIx = s.drawIx + n := rfl
@[simp] theorem State.played_outcome (s : State) (n : Nat) (es : List Event) : (s.played n es).outcome = s.outcome := rfl
@[simp] theorem State.played_calls (s : State) (n : Nat) (es : List Event) : (s.played n es).calls = s.calls := rfl

@[simp] theorem State.setLines_ce (s : State) (l : Lines) : (s.setLines l).ce = l.ce := rfl
@[simp] theorem State.setLines_clk (s : State) (l : Lines) : (s.setLines l).clk = l.clk := rfl
@[simp] theorem State.setLines_dir (s : State) (l : Lines) : (s.setLines l).dir = l.dir := rfl
@[simp] theorem State.setLines_dout (s : State) (l : Lines) : (s.setLines l).dout = l.dout := rfl
@[simp] theorem State.setLines_txn (s : State) (l : Lines) : (s.setLines l).txn = s.txn := rfl
@[simp] theorem State.setLines_trace (s : State) (l : Lines) : (s.setLines l).trace = s.trace := rfl
@[simp] theorem State.setLines_params (s : State) (l : Lines) : (s.setLines l).params = s.params := rfl
@[simp] theorem State.setLines_refused (s : State) (l : Lines) : (s.setLines l).refused = s.refused := rfl
@[simp] theorem State.setLines_draws (s : State) (l : Lines) : (s.setLines l).draws = s.draws := rfl
@[simp] theorem State.setLines_drawIx (s : State) (l : Lines) : (s.setLines l).drawIx = s.drawIx := rfl
@[simp] theorem State.setLines_outcome (s : State) (l : Lines) : (s.setLines l).outcome = s.outcome := rfl
@[simp] theorem State.setLines_calls (s : State) (l : Lines) : (s.setLines l).calls = s.calls := rfl

@[simp] theorem State.after_ce (s : State) (es : List Event) : (s.after es).ce = (s.lines.replay es).ce := rfl
@[simp] theorem State.after_clk (s : State) (es : List Event) : (s.after es).clk = (s.lines.replay es).clk := rfl
@[simp] theorem State.after_dir (s : State) (es : List Event) : (s.after es).dir = (s.lines.replay es).dir := rfl
@[simp] theorem State.after_dout (s : State) (es : List Event) : (s.after es).dout = (s.lines.replay es).dout := rfl
@[simp] theorem State.after_txn (s : State) (es : List Event) : (s.after es).txn = s.txn := rfl
@[simp] theorem State.after_trace (s : State) (es : List Event) : (s.after es).trace = s.trace ++ es := rfl
@[simp] theorem State.after_params (s : State) (es : List Event) : (s.after es).params = s.params := rfl
@[simp] theorem State.after_refused (s : State) (es : List Event) : (s.after es).refused = s.refused := rfl
@[simp] theorem State.after_draws (s : State) (es : List Event) : (s.after es).draws = s.draws.drop es.length := rfl
@[simp] theorem State.after_drawIx (s : State) (es : List Event) : (s.after es).drawIx = s.drawIx + es.length := rfl
@[simp] theorem State.after_outcome (s : State) (es : List Event) : (s.after es).outcome = s.outcome := rfl
@[simp] theorem State.after_calls (s : State) (es : List Event) : (s.after es).calls = s.calls := rfl

@[simp] theorem State.drive_txn (s : State) (p : Prim) : (s.drive p).txn = s.txn := by cases p <;> rfl
@[simp] theorem State.drive_trace (s : State) (p : Prim) : (s.drive p).trace = s.trace := by cases p <;> rfl
@[simp] theorem State.drive_params (s : State) (p : Prim) : (s.drive p).params = s.params := by cases p <;> rfl
@[simp] theorem State.drive_refused (s : State) (p : Prim) : (s.drive p).refused = s.refused := by cases p <;> rfl
@[simp] theorem State.drive_draws (s : State) (p : Prim) : (s.drive p).draws = s.draws := by cases p <;> rfl
@[simp] theorem State.drive_drawIx (s : State) (p : Prim) : (s.drive p).drawIx = s.drawIx := by cases p <;> rfl
@[simp] theorem State.drive_outcome (s : State) (p : Prim) : (s.drive p).outcome = s.outcome := by cases p <;> rfl
@[simp] theorem State.drive_calls (s : State) (p : Prim) : (s.drive p).calls = s.calls := by cases p <;> rfl

@[simp] theorem State.lose_txn (s : State) (p : Prim) : (s.lose p).txn = s.txn := by cases p <;> rfl
@[simp] theorem State.lose_trace (s : State) (p : Prim) : (s.lose p).trace = s.trace := by cases p <;> rfl
@[simp] theorem State.lose_params (s : State) (p : Prim) : (s.lose p).params = s.params := by cases p <;> rfl
@[simp] theorem State.lose_refused (s : State) (p : Prim) : (s.lose p).refused = s.refused := by cases p <;> rfl
@[simp] theorem State.lose_draws (s : State) (p : Prim) : (s.lose p).draws = s.draws := by cases p <;> rfl
@[simp] theorem State.lose_drawIx (s : State) (p : Prim) : (s.lose p).drawIx = s.drawIx := by cases p <;> rfl
@[simp] theorem State.lose_outcome (s : State) (p : Prim) : (s.lose p).outcome = s.outcome := by cases p <;> rfl
@[simp] theorem State.lose_calls (s : State) (p : Prim) : (s.lose p).calls = s.calls := by cases p <;> rfl

/-- A successful call makes of the lines what its event says. -/
@[simp] theorem State.drive_lines (s : State) (b : Bool) (p : Prim) :
    (s.drive p).lines = s.lines.next (successEvent b p) := by cases p <;> rfl

/-- A failed call makes of the lines what its `Fail` event says. -/
@[simp] theorem State.lose_lines (s : State) (p : Prim) : (s.lose p).lines = s.lines.next (.fail p) := by
  cases p <;> rfl

@[simp] theorem State.log_lines (s : State) (e : Event) : (s.log e).lines = s.lines := rfl
@[simp] theorem State.useDraw_lines (s : State) : s.useDraw.lines = s.lines := rfl
@[simp] theorem State.setTxn_lines (s : State) (b : Bool) : (s.setTxn b).lines = s.lines := rfl
@[simp] theorem State.setOutcome_lines (s : State) (r : Result) : (s.setOutcome r).lines = s.lines := rfl
@[simp] theorem State.refuse_lines (s : State) (r : Reason) : (s.refuse r).lines = s.lines := rfl
@[simp] theorem State.setCalls_lines (s : State) (bs : List Byte) : (s.setCalls bs).lines = s.lines := rfl
@[simp] theorem State.played_lines (s : State) (n : Nat) (es : List Event) : (s.played n es).lines = s.lines := rfl
@[simp] theorem State.setLines_lines (s : State) (l : Lines) : (s.setLines l).lines = l := rfl
@[simp] theorem State.after_lines (s : State) (es : List Event) : (s.after es).lines = s.lines.replay es := rfl

/-- A state is its line records and its other fields. -/
theorem State.eq_of_lines {s t : State} (hl : s.lines = t.lines) (hx : s.txn = t.txn) (htr : s.trace = t.trace)
    (hp : s.params = t.params) (hr : s.refused = t.refused)
    (hd : s.draws = t.draws) (hi : s.drawIx = t.drawIx) (ho : s.outcome = t.outcome)
    (hc : s.calls = t.calls) : s = t := by
  cases s
  cases t
  simp only [State.lines, Lines.mk.injEq] at hl
  simp_all

end Sys2Proof.Machine
end

