-- ==== Sys2Proof/Laws/Trace.lean ====
section
/-! SUPPORT. The lines after several events, and the state after several events. -/

namespace Sys2Proof.Machine

@[simp] theorem Lines.replay_nil (l : Lines) : l.replay [] = l := rfl

@[simp] theorem Lines.replay_cons (l : Lines) (e : Event) (es : List Event) :
    l.replay (e :: es) = (l.next e).replay es := rfl

theorem Lines.replay_append (l : Lines) (es fs : List Event) : l.replay (es ++ fs) = (l.replay es).replay fs := by
  induction es generalizing l with
  | nil => rfl
  | cons e es ih => exact ih _

theorem framed_append (l : Lines) (es fs : List Event) :
    framed l (es ++ fs) = (framed l es && framed (l.replay es) fs) := by
  induction es generalizing l with
  | nil => rfl
  | cons e es ih => simp [framed, ih, Bool.and_assoc]

@[simp] theorem successEvent_prim (b : Bool) (p : Prim) : (successEvent b p).prim = p := by cases p <;> rfl

@[simp] theorem successEvent_isFail (b : Bool) (p : Prim) : (successEvent b p).isFail = false := by cases p <;> rfl

@[simp] theorem fail_prim (p : Prim) : (Event.fail p).prim = p := rfl

@[simp] theorem fail_isFail (p : Prim) : (Event.fail p).isFail = true := rfl

@[simp] theorem State.after_nil (s : State) : s.after [] = s := by
  apply State.eq_of_lines <;> simp

/-- Events after events. -/
@[simp] theorem State.after_after (s : State) (es fs : List Event) : (s.after es).after fs = s.after (es ++ fs) := by
  apply State.eq_of_lines <;> simp [Lines.replay_append, Nat.add_assoc, List.drop_drop]

theorem State.after_setTxn (s : State) (es : List Event) (b : Bool) : (s.setTxn b).after es = (s.after es).setTxn b := rfl

theorem State.setTxn_self (s : State) : s.setTxn s.txn = s := rfl

/-- The draws ahead after some calls are those further ahead before them. -/
@[simp] theorem State.after_drawAt (s : State) (es : List Event) (k : Nat) :
    (s.after es).drawAt k = s.drawAt (es.length + k) := by
  simp [State.drawAt, Nat.add_assoc]

@[simp] theorem State.setTxn_drawAt (s : State) (b : Bool) (k : Nat) : (s.setTxn b).drawAt k = s.drawAt k := rfl

/-- Calls that do not fail, of which the first have been made. -/
theorem NoFailure.after {s : State} {n m : Nat} (h : NoFailure s n) (es : List Event) (hm : es.length + m ≤ n) :
    NoFailure (s.after es) m := by
  intro k hk
  rw [State.after_drawAt]
  exact h _ (by omega)

theorem NoFailure.mono {s : State} {n m : Nat} (h : NoFailure s n) (hm : m ≤ n) : NoFailure s m :=
  fun k hk => h k (by omega)

theorem NoFailure.setTxn {s : State} {n : Nat} (h : NoFailure s n) (b : Bool) : NoFailure (s.setTxn b) n := h

end Sys2Proof.Machine
end

