-- ==== Sys2Proof/Laws/Ops.lean ====
section
/-! SUPPORT. What each shared operation can do, said once: the form of its result in every case, and its result when no call
fails. -/

namespace Sys2Proof.Machine

/-! ### One primitive call -/

/-- A primitive call either succeeds with its event or fails with its `Fail` event, and does nothing else. -/
theorem perform_eq (p : Prim) (s : State) :
    perform p s = if primFails p s then .fault (.fail p) (s.after [.fail p])
      else .ok (s.drawAt 0).bit (s.after [successEvent (s.drawAt 0).bit p]) := by
  unfold perform
  split
  · congr 1
    apply State.eq_of_lines <;> simp [Lines.replay]
  · congr 1
    apply State.eq_of_lines <;> simp [Lines.replay, State.drive_lines _ (s.drawAt 0).bit]

theorem primFails_eq_false {p : Prim} {s : State} {n : Nat} (h : NoFailure s (n + 1)) : primFails p s = false := by
  by_contra hf
  simp only [Bool.not_eq_false, primFails, Bool.and_eq_true] at hf
  obtain ⟨hp, hd⟩ := h 0 (by omega) hf.2
  cases p <;> simp [canFail, hp, hd] at hf

/-- A primitive call that does not fail. -/
theorem perform_quiet {s : State} {n : Nat} (p : Prim) (h : NoFailure s (n + 1)) :
    perform p s = .ok (s.drawAt 0).bit (s.after [successEvent (s.drawAt 0).bit p]) := by
  rw [perform_eq, primFails_eq_false h]
  rfl

/-! ### Sequences that end at the first failure -/

/-- What a sequence of primitive calls, these or the first of them, can do: all succeed, or one fails and ends it. -/
def Performs {α : Type} (ps : List Prim) (s : State) : Ran α → Prop
  | .ok _ t => ∃ es, t = s.after es ∧ es.map Event.prim = ps ∧ ∀ e ∈ es, e.isFail = false
  | .fault ev t => ∃ es p qs, ev = .fail p ∧ t = s.after (es ++ [ev]) ∧ es.map Event.prim ++ p :: qs = ps ∧
      ∀ e ∈ es, e.isFail = false

theorem Performs.nil {α : Type} (s : State) (a : α) : Performs [] s (.ok a s) := ⟨[], by simp⟩

theorem perform_performs (p : Prim) (s : State) : Performs [p] s (perform p s) := by
  rw [perform_eq]
  split
  · exact ⟨[], p, [], by simp⟩
  · exact ⟨_, rfl, by simp⟩

/-- One part after another performs the calls of both. -/
theorem Performs.andThen {α β : Type} {ps qs : List Prim} {s : State} {r : Ran α} {f : α → State → Ran β}
    (hr : Performs ps s r) (hf : ∀ a t, r = .ok a t → Performs qs t (f a t)) : Performs (ps ++ qs) s (r.andThen f) := by
  cases r with
  | ok a t =>
    obtain ⟨es, rfl, rfl, hes⟩ := hr
    have h := hf a _ rfl
    simp only [Ran.andThen]
    cases hfa : f a (s.after es) with
    | ok b u =>
      rw [hfa] at h
      obtain ⟨fs, rfl, rfl, hfs⟩ := h
      refine ⟨es ++ fs, by simp, by simp, ?_⟩
      intro e he
      rcases List.mem_append.mp he with he | he
      · exact hes e he
      · exact hfs e he
    | fault ev u =>
      rw [hfa] at h
      obtain ⟨fs, p, rs, rfl, rfl, rfl, hfs⟩ := h
      refine ⟨es ++ fs, p, rs, rfl, by simp, by simp, ?_⟩
      intro e he
      rcases List.mem_append.mp he with he | he
      · exact hes e he
      · exact hfs e he
  | fault ev t =>
    obtain ⟨es, p, rs, rfl, rfl, rfl, hes⟩ := hr
    exact ⟨es, p, rs ++ qs, rfl, rfl, by simp, hes⟩

theorem performAll_performs (ps : List Prim) (s : State) : Performs ps s (performAll ps s) := by
  induction ps generalizing s with
  | nil => exact Performs.nil s ()
  | cons p ps ih => exact (perform_performs p s).andThen fun _ t _ => ih t

/-- The calls of a write bit cycle. -/
def writeBitPrims (b : Bool) : List Prim := (writeBitEvents b).map Event.prim

/-- The calls of a read bit cycle. -/
def readBitPrims : List Prim := (readBitEvents false).map Event.prim

theorem driveBit_performs (b : Bool) (s : State) : Performs (writeBitPrims b) s (driveBit b s) :=
  performAll_performs _ s

theorem sampleBit_performs (s : State) : Performs readBitPrims s (sampleBit s) := by
  have h := (perform_performs .get s).andThen (f := fun b s' =>
    (performAll [.setClk .high, .wait .tCH, .setClk .low, .wait .tCL] s').andThen fun _ s'' => Ran.ok b s'')
    fun b t _ => (performAll_performs _ t).andThen (qs := []) fun _ u _ => Performs.nil u b
  simpa [readBitPrims, readBitEvents, Event.prim, sampleBit] using h

theorem driveBits_performs (bs : List Bool) (s : State) : Performs (bs.flatMap writeBitPrims) s (driveBits bs s) := by
  induction bs generalizing s with
  | nil => exact Performs.nil s ()
  | cons b bs ih => exact (driveBit_performs b s).andThen fun _ t _ => ih t

theorem sampleBits_performs (n : Nat) (s : State) :
    Performs (List.replicate n readBitPrims).flatten s (sampleBits n s) := by
  induction n generalizing s with
  | zero => exact Performs.nil s []
  | succ n ih =>
    have h := (sampleBit_performs s).andThen (f := fun b s' => (sampleBits n s').andThen fun bs s'' => Ran.ok (b :: bs) s'')
      fun b t _ => (ih t).andThen (qs := []) fun bs u _ => Performs.nil u (b :: bs)
    simpa [List.replicate_succ, sampleBits] using h

/-! ### Sequences every step of which is attempted -/

/-- Every needed step is attempted, one event each, and the first `Fail` event is reported. -/
theorem attemptAll_spec (needed : Prim → State → Bool) (ps : List Prim) (s : State) :
    ∃ es, attemptAll needed ps s = (es.find? Event.isFail, s.after es) ∧ (es.map Event.prim).Sublist ps := by
  induction ps generalizing s with
  | nil => exact ⟨[], by simp [attemptAll]⟩
  | cons p ps ih =>
    unfold attemptAll
    split
    · rw [perform_eq]
      by_cases hf : primFails p s = true
      · obtain ⟨es, he, hp⟩ := ih (s.after [.fail p])
        refine ⟨.fail p :: es, ?_, ?_⟩
        · simp [hf, he, List.find?_cons]
        · simpa using hp.cons_cons p
      · obtain ⟨es, he, hp⟩ := ih (s.after [successEvent (s.drawAt 0).bit p])
        refine ⟨successEvent (s.drawAt 0).bit p :: es, ?_, ?_⟩
        · simp [hf, he]
        · simpa using hp.cons_cons p
    · obtain ⟨es, he, hp⟩ := ih s
      exact ⟨es, he, hp.cons p⟩

/-! ### The same when no call fails -/

/-- Calls that take no sample and do not fail. -/
theorem performAll_quiet (es : List Event) (s : State) (h : NoFailure s es.length)
    (he : ∀ e ∈ es, e.isFail = false ∧ e.isGet = false) :
    performAll (es.map Event.prim) s = .ok () (s.after es) := by
  induction es generalizing s with
  | nil => simp [performAll]
  | cons e es ih =>
    have h1 : successEvent (s.drawAt 0).bit e.prim = e := by
      have := he e (by simp)
      cases e <;> simp_all [Event.isFail, Event.isGet, Event.prim, successEvent]
    have h2 : NoFailure (s.after [e]) es.length := h.after [e] (by simp [Nat.add_comm])
    simp only [List.map_cons, performAll, perform_quiet e.prim h, Ran.andThen, h1]
    rw [ih _ h2 fun e' he' => he e' (List.mem_cons_of_mem _ he')]
    simp

theorem driveBit_quiet (b : Bool) (s : State) (h : NoFailure s 6) :
    driveBit b s = .ok () (s.after (writeBitEvents b)) := by
  have := performAll_quiet (writeBitEvents b) s h (by simp [writeBitEvents, Event.isFail, Event.isGet])
  simpa [writeBitEvents, Event.prim, driveBit, levelOf] using this

theorem sampleBit_quiet (s : State) (h : NoFailure s 5) :
    sampleBit s = .ok (s.drawAt 0).bit (s.after (readBitEvents (s.drawAt 0).bit)) := by
  have h2 := performAll_quiet [.setClk .high, .wait .tCH, .setClk .low, .wait .tCL] (s.after [.get (s.drawAt 0).bit])
    (h.after _ (by simp)) (by simp [Event.isFail, Event.isGet])
  simp only [List.map_cons, List.map_nil, Event.prim] at h2
  simp [sampleBit, perform_quiet .get h, Ran.andThen, successEvent, h2, readBitEvents]

theorem driveBits_quiet (bs : List Bool) (s : State) (h : NoFailure s (6 * bs.length)) :
    driveBits bs s = .ok () (s.after (bs.flatMap writeBitEvents)) := by
  induction bs generalizing s with
  | nil => simp [driveBits]
  | cons b bs ih =>
    simp only [List.length_cons] at h
    have h2 : NoFailure (s.after (writeBitEvents b)) (6 * bs.length) := h.after _ (by simp [writeBitEvents]; omega)
    simp [driveBits, driveBit_quiet b s (h.mono (by omega)), Ran.andThen, ih _ h2]

theorem sampleBits_quiet (n : Nat) (s : State) (h : NoFailure s (5 * n)) :
    sampleBits n s = .ok ((List.range n).map fun i => (s.drawAt (5 * i)).bit)
      (s.after (((List.range n).map fun i => (s.drawAt (5 * i)).bit).flatMap readBitEvents)) := by
  induction n generalizing s with
  | zero => simp [sampleBits]
  | succ n ih =>
    have h2 : NoFailure (s.after (readBitEvents (s.drawAt 0).bit)) (5 * n) :=
      h.after _ (by simp [readBitEvents]; omega)
    have h3 : (fun i => ((s.after (readBitEvents (s.drawAt 0).bit)).drawAt (5 * i)).bit) =
        fun i => (s.drawAt (5 * (i + 1))).bit := by
      funext i
      simp [readBitEvents, Nat.mul_add, Nat.add_comm]
    simp only [sampleBits, sampleBit_quiet s (h.mono (by omega)), Ran.andThen, ih _ h2, h3]
    simp [List.range_succ_eq_map, Function.comp_def]

/-! ### Checks and ends -/

@[simp] theorem guarded_cons {α : Type} (b : Bool) (r : Reason) (cs : List (Bool × Reason)) (c : Called α) :
    guarded ((b, r) :: cs) c = if b then .refused r else guarded cs c := by
  cases b <;> rfl

@[simp] theorem guarded_nil {α : Type} (c : Called α) : guarded [] c = c := rfl

/-- Checks that answer a call let it run. -/
theorem guarded_ok {α : Type} {cs : List (Bool × Reason)} {c : Called α} {a : α} {t : State}
    (h : guarded cs c = .ok a t) : firstRefusal cs = none ∧ c = .ok a t := by
  unfold guarded at h
  split at h
  · cases h
  · exact ⟨by assumption, h⟩

/-- A next state is that of an operation that returned, reported an error, or was refused. -/
theorem finish_next {α : Type} {value : α → Value} {s t : State} {c : Called α} (h : finish value s c = .next t) :
    (∃ a u, c = .ok a u ∧ t = u.setOutcome (.ok (value a))) ∨ (∃ e u, c = .err e u ∧ t = u.setOutcome (.err e)) ∨
      ∃ r, c = .refused r ∧ t = s.refuse r := by
  cases c with
  | ok a u => exact .inl ⟨a, u, rfl, by injection h with h; exact h.symm⟩
  | err e u => exact .inr (.inl ⟨e, u, rfl, by injection h with h; exact h.symm⟩)
  | refused r => exact .inr (.inr ⟨r, rfl, by injection h with h; exact h.symm⟩)
  | stopped r => cases h

end Sys2Proof.Machine
end

