-- ==== Sys2Proof/Laws/PerInstr.lean ====
section
/-! SUPPORT. Statements about every instruction as syntax, one lemma for each constructor.

`CommandByte`: a command byte an operation sends of itself is of class CLK_READ or CLK_WRITE, so the engine never emits a
command of the other classes (20_memory.md R53, 30_encoding.md R82, 41_register_engine.md R130). -/

namespace Sys2Proof.Laws.CommandByte

/-- The command byte the operation sends, if any, reads or writes a clock register. -/
def Statement (i : Instr) : Prop :=
  ∀ c, commandByte i = some c → ∃ a, classify c = .clkRead a ∨ classify c = .clkWrite a

theorem of_none {i : Instr} (h : commandByte i = none) : Statement i := fun c hc => by rw [h] at hc; cases hc

theorem of_read {i : Instr} {a : Nat} (ha : a ≤ 31) (h : commandByte i = some (cmdByte a .read)) : Statement i :=
  fun c hc => by
    rw [h] at hc
    cases hc
    exact ⟨_, .inl (classify_cmdByte_read a ha)⟩

theorem of_write {i : Instr} {a : Nat} (ha : a ≤ 31) (h : commandByte i = some (cmdByte a .write)) : Statement i :=
  fun c hc => by
    rw [h] at hc
    cases hc
    exact ⟨_, .inr (classify_cmdByte_write a ha)⟩

theorem init : Statement .init := of_none rfl
theorem setDataDirection (d : Direction) : Statement (.setDataDirection d) := of_none rfl
theorem writeByte (v : Byte) : Statement (.writeByte v) := of_none rfl
theorem readByte : Statement .readByte := of_none rfl
theorem transaction (body : Body) : Statement (.transaction body) := of_none rfl
theorem readRegister (a : Nat) : Statement (.readRegister a) := by
  by_cases h : a ≤ 31
  · exact of_read h (by simp [commandByte, h])
  · exact of_none (by simp [commandByte, h])
theorem writeRegister (a : Nat) (v : Byte) : Statement (.writeRegister a v) := by
  by_cases h : a ≤ 31
  · exact of_write h (by simp [commandByte, h])
  · exact of_none (by simp [commandByte, h])
theorem decodeBcd (raw : Byte) : Statement (.decodeBcd raw) := of_none rfl
theorem encodeBcd (v : Byte) : Statement (.encodeBcd v) := of_none rfl
theorem readSeconds : Statement .readSeconds := of_read (by omega) rfl
theorem readMinutes : Statement .readMinutes := of_read (by omega) rfl
theorem readHours : Statement .readHours := of_read (by omega) rfl
theorem writeSeconds (v : Byte) (ch : Bool) : Statement (.writeSeconds v ch) := of_write (a := 0) (by omega) rfl
theorem writeMinutes (v : Byte) : Statement (.writeMinutes v) := of_write (a := 1) (by omega) rfl
theorem writeHours (h : Byte) (m : HourMode) : Statement (.writeHours h m) := of_write (a := 2) (by omega) rfl
theorem ignoredCommand (x : BitVec 7) : Statement (.ignoredCommand x) := of_none rfl
theorem ramWriteCommand (a : Address) : Statement (.ramWriteCommand a) := of_none rfl
theorem ramReadCommand (a : Address) : Statement (.ramReadCommand a) := of_none rfl

end Sys2Proof.Laws.CommandByte
end

