-- ==== Sys2Proof/Laws/Transport.lean ====
section
/-! SUPPORT. What the byte transfers, the direction switch, the initialisation and the frame of a transaction do: in every
case, and when no call fails. -/

namespace Sys2Proof.Machine

/-! ### Bits and bytes -/

theorem bitsOf_byteOf_eight (a b c d e f g h : Bool) :
    bitsOf (byteOf [a, b, c, d, e, f, g, h]) = [a, b, c, d, e, f, g, h] := by
  revert a b c d e f g h
  decide

/-- The bits of the byte of eight bits. -/
theorem bitsOf_byteOf (bs : List Bool) (h : bs.length = 8) : bitsOf (byteOf bs) = bs := by
  match bs, h with
  | [a, b, c, d, e, f, g, h], _ => exact bitsOf_byteOf_eight a b c d e f g h

theorem bitsOf_sampledByte (s : State) (k : Nat) :
    bitsOf (sampledByte s k) = (List.range 8).map fun i => (s.drawAt (k + 5 * i)).bit :=
  bitsOf_byteOf _ (by simp)

theorem bitsOf_writeEvents (v : Byte) : (bitsOf v).flatMap writeBitEvents = writeByteEvents v := rfl

theorem bitsOf_readEvents (v : Byte) : (bitsOf v).flatMap readBitEvents = readByteEvents v := rfl

@[simp] theorem writeByteEvents_length (v : Byte) : (writeByteEvents v).length = 48 := rfl

@[simp] theorem readByteEvents_length (v : Byte) : (readByteEvents v).length = 40 := rfl

/-! ### Lines after byte transfers -/

theorem replay_writeBits (l : Lines) (bs : List Bool) (h : l.clk = .known .low) :
    l.replay (bs.flatMap writeBitEvents) =
      { l with dout := match bs.getLast? with
          | none => l.dout
          | some b => .known (if b then .high else .low) } := by
  induction bs generalizing l with
  | nil => simp
  | cons b bs ih =>
    rw [List.flatMap_cons, Lines.replay_append, ih _ (by simp [writeBitEvents, Lines.next])]
    cases hb : bs.getLast? <;> simp [writeBitEvents, Lines.next, h, List.getLast?_cons, hb]

/-- Writing a byte leaves CLK Low and the data line at its bit 7. -/
theorem replay_writeByte (l : Lines) (v : Byte) (h : l.clk = .known .low) :
    l.replay (writeByteEvents v) = { l with dout := .known (if v.getLsbD 7 then .high else .low) } := by
  rw [← bitsOf_writeEvents, replay_writeBits l _ h]
  rfl

theorem replay_readBits (l : Lines) (bs : List Bool) (h : l.clk = .known .low) :
    l.replay (bs.flatMap readBitEvents) = l := by
  induction bs generalizing l with
  | nil => rfl
  | cons b bs ih =>
    rw [List.flatMap_cons, Lines.replay_append, ih _ (by simp [readBitEvents, Lines.next])]
    simp [readBitEvents, Lines.next, ← h]

/-- Reading a byte leaves the lines as they were. -/
theorem replay_readByte (l : Lines) (v : Byte) (h : l.clk = .known .low) : l.replay (readByteEvents v) = l :=
  replay_readBits l (bitsOf v) h

/-! ### Operations of the transport when no call fails -/

/-- `write_byte` past its checks. -/
theorem shiftOut_quiet (v : Byte) (s : State) (hx : s.txn = true) (hd : s.dir = .known .output)
    (hc : s.clk = .known .low) (hn : NoFailure s 48) : shiftOut v s = .ok () (s.after (writeByteEvents v)) := by
  simp [shiftOut, byteRefusals, hx, hd, hc, isUnknown, driveBits_quiet (bitsOf v) s hn, bitsOf_writeEvents, Ran.called]

/-- `read_byte` past its checks. -/
theorem shiftIn_quiet (s : State) (hx : s.txn = true) (hd : s.dir = .known .input)
    (hc : s.clk = .known .low) (hn : NoFailure s 40) :
    shiftIn s = .ok (sampledByte s 0) (s.after (readByteEvents (sampledByte s 0))) := by
  rw [← bitsOf_readEvents, bitsOf_sampledByte]
  simp [shiftIn, byteRefusals, hx, hd, hc, isUnknown, sampleBits_quiet 8 s hn, Ran.called, Ran.andThen, sampledByte]

/-- `set_data_direction` past its checks. -/
theorem setDirection_quiet (d : Direction) (s : State) (hc : s.clk = .known .low) (he : s.ce ≠ .unknown)
    (hx : ¬ (s.txn = true ∧ d = .output)) (hn : NoFailure s 1) : setDirection d s = .ok () (s.after [.dir d]) := by
  have hp := performAll_quiet [.dir d] s hn (by simp [Event.isFail, Event.isGet])
  simp only [List.map_cons, List.map_nil, Event.prim] at hp
  have hu : isUnknown s.ce = false := by cases h : s.ce <;> simp_all [isUnknown]
  have hk : isUnknown s.clk = false := by rw [hc]; rfl
  simp only [setDirection, directionRefusals, guarded_cons, guarded_nil, hp, Ran.called, hu, hk]
  simp [hc, hx]

/-! ### The frame of a transaction -/

/-- An activity of the engine: it only appends events, one for each draw it uses, and the lines follow them. -/
def Appends {α : Type} (s : State) : Called α → Prop
  | .ok _ t => ∃ es, t = s.after es
  | .err _ t => ∃ es, t = s.after es
  | .refused _ => True
  | .stopped _ => True

theorem Performs.appends {α : Type} {ps : List Prim} {s : State} {r : Ran α} (h : Performs ps s r) :
    Appends s r.called := by
  cases r with
  | ok a t => obtain ⟨es, rfl, -⟩ := h; exact ⟨es, rfl⟩
  | fault ev t => obtain ⟨es, p, qs, -, rfl, -⟩ := h; exact ⟨_, rfl⟩

theorem Appends.guarded {α : Type} {s : State} {c : Called α} (h : Appends s c) (cs : List (Bool × Reason)) :
    Appends s (guarded cs c) := by
  unfold Machine.guarded
  split
  · trivial
  · exact h

theorem Appends.andThen {α β : Type} {s : State} {c : Called α} {f : α → State → Called β}
    (h : Appends s c) (hf : ∀ a t, c = .ok a t → Appends t (f a t)) : Appends s (c.andThen f) := by
  cases c with
  | ok a t =>
    obtain ⟨es, rfl⟩ := h
    have hfa := hf a _ rfl
    simp only [Called.andThen]
    cases hc : f a (s.after es) with
    | ok b u => rw [hc] at hfa; obtain ⟨fs, rfl⟩ := hfa; exact ⟨es ++ fs, by simp⟩
    | err e u => rw [hc] at hfa; obtain ⟨fs, rfl⟩ := hfa; exact ⟨es ++ fs, by simp⟩
    | refused r => trivial
    | stopped r => trivial
  | err e t => exact h
  | refused r => trivial
  | stopped r => trivial

theorem shiftOut_appends (v : Byte) (s : State) : Appends s (shiftOut v s) :=
  (driveBits_performs _ s).appends.guarded _

theorem shiftIn_appends (s : State) : Appends s (shiftIn s) :=
  ((sampleBits_performs 8 s).andThen (qs := []) fun bs t _ => Performs.nil t (byteOf bs)).appends.guarded _

theorem setDirection_appends (d : Direction) (s : State) : Appends s (setDirection d s) :=
  (performAll_performs _ s).appends.guarded _

theorem initLines_appends (s : State) : Appends s (initLines s) := by
  refine Appends.guarded ?_ _
  obtain ⟨es, he, -⟩ := attemptAll_spec (fun _ _ => true) [.setCe .deasserted, .setClk .low, .dir .output, .wait .tCWH] s
  rw [he]
  cases es.find? Event.isFail with
  | none => exact ⟨es, rfl⟩
  | some ev => exact ⟨es, rfl⟩

theorem decodeField_appends (r b : Byte) (s : State) : Appends s (decodeField r b s) := by
  unfold decodeField
  split
  · exact ⟨[], by simp⟩
  · exact ⟨[], by simp⟩

theorem encodeField_appends (v : Byte) (s : State) : Appends s (encodeField v s) :=
  Appends.guarded (c := Called.ok (encodeDigits v) s) ⟨[], by simp⟩ _

theorem withArg_appends {α : Type} (results : List (Option Byte)) (a : Arg) (f : Byte → Called α) (s : State)
    (h : ∀ b, Appends s (f b)) : Appends s (withArg results a f) := by
  unfold withArg
  split
  · exact h _
  · trivial

/-- Every call of a body only appends events. -/
theorem runBodyCall_appends (results : List (Option Byte)) (c : BodyCall) (s : State) :
    Appends s (runBodyCall results c s) := by
  cases c with
  | writeByte v =>
    exact withArg_appends _ _ _ s fun b => (shiftOut_appends b s).andThen fun _ t _ => ⟨[], by simp⟩
  | readByte => exact (shiftIn_appends s).andThen fun _ t _ => ⟨[], by simp⟩
  | setDataDirection d => exact (setDirection_appends d s).andThen fun _ t _ => ⟨[], by simp⟩
  | decodeBcd raw =>
    exact withArg_appends _ _ _ s fun b => (decodeField_appends b b s).andThen fun _ t _ => ⟨[], by simp⟩
  | encodeBcd v =>
    exact withArg_appends _ _ _ s fun b => (encodeField_appends b s).andThen fun _ t _ => ⟨[], by simp⟩
  | barred op => trivial

theorem runBodyCalls_appends (results : List (Option Byte)) (cs : List BodyCall) (s : State) :
    Appends s (runBodyCalls results cs s) := by
  induction cs generalizing results s with
  | nil => exact ⟨[], by simp⟩
  | cons c cs ih => exact (runBodyCall_appends results c s).andThen fun r t _ => ih _ t

theorem runBody_appends (b : Body) (s : State) : Appends s (runBody b s) :=
  (runBodyCalls_appends [] b.calls s).andThen fun results t _ => by
    split
    · exact ⟨[], by simp⟩
    · trivial

theorem readBody_appends (c : Byte) (s : State) : Appends s (readBody c s) :=
  (shiftOut_appends c s).andThen fun _ t _ => (setDirection_appends .input t).andThen fun _ u _ => shiftIn_appends u

theorem writeBody_appends (c v : Byte) (s : State) : Appends s (writeBody c v s) :=
  (shiftOut_appends c s).andThen fun _ t _ => shiftOut_appends v t

/-- Cleanup appends events, closes the transaction, and changes nothing else. -/
theorem cleanup_appends (first : Option Error) (s : State) (b : Bool) :
    ∃ es, (cleanup first (s.setTxn b)).2 = (s.after es).setTxn false := by
  obtain ⟨es, he, -⟩ := attemptAll_spec cleanupNeeds
    [.wait .tCCH, .setCe .deasserted, .setClk .low, .dir .output, .wait .tCWH] (s.setTxn false)
  refine ⟨es, ?_⟩
  have hs : (s.setTxn b).setTxn false = s.setTxn false := rfl
  unfold cleanup
  simp only [hs, he]
  cases first <;> rfl

theorem perform_ok {p : Prim} {s t : State} {b : Bool} (h : perform p s = .ok b t) :
    t = s.after [successEvent b p] := by
  rw [perform_eq] at h
  split at h <;> cases h
  rfl

theorem perform_fault {p : Prim} {s t : State} {ev : Event} (h : perform p s = .fault ev t) :
    ev = .fail p ∧ t = s.after [.fail p] := by
  rw [perform_eq] at h
  split at h <;> cases h
  exact ⟨rfl, rfl⟩

/-- The result of a part that ends with no transaction open and otherwise only appends events. -/
def Closes {α : Type} (s : State) : Called α → Prop
  | .ok _ t => ∃ es, t = (s.after es).setTxn false
  | .err _ t => ∃ es, t = (s.after es).setTxn false
  | .refused _ => True
  | .stopped _ => True

theorem abortFrame_closes {α : Type} (e : Error) (s : State) (es : List Event) (b : Bool) :
    Closes s (abortFrame (α := α) e ((s.after es).setTxn b)) := by
  obtain ⟨fs, hf⟩ := cleanup_appends (some e) (s.after es) b
  exact ⟨es ++ fs, by rw [hf, State.after_after]⟩

theorem closeFrame_closes {α : Type} (a : α) (s : State) (es : List Event) (b : Bool) :
    Closes s (closeFrame a ((s.after es).setTxn b)) := by
  obtain ⟨fs, hf⟩ := cleanup_appends none (s.after es) b
  unfold closeFrame
  split
  · next e t heq => exact ⟨es ++ fs, by rw [heq] at hf; rw [← State.after_after]; exact hf⟩
  · next t heq => exact ⟨es ++ fs, by rw [heq] at hf; rw [← State.after_after]; exact hf⟩

/-- A transaction frame ends with no transaction open and otherwise only appends events, if its body only appends events. -/
theorem frame_closes {α : Type} (body : State → Called α) (s : State) (hb : ∀ t, Appends t (body t)) :
    Closes s (frame body s) := by
  unfold frame
  cases h1 : perform (.setCe .asserted) s with
  | fault ev s1 =>
    obtain ⟨-, rfl⟩ := perform_fault h1
    exact abortFrame_closes _ s [.fail (.setCe .asserted)] s.txn
  | ok b1 s1 =>
    obtain rfl := perform_ok h1
    simp only
    cases h2 : perform (.wait .tCC) ((s.after [successEvent b1 (.setCe .asserted)]).setTxn true) with
    | fault ev s2 =>
      obtain ⟨-, rfl⟩ := perform_fault h2
      rw [State.after_setTxn, State.after_after]
      exact abortFrame_closes _ s _ true
    | ok b2 s2 =>
      obtain rfl := perform_ok h2
      rw [State.after_setTxn, State.after_after]
      simp only
      have ht := hb ((s.after ([successEvent b1 (.setCe .asserted)] ++ [successEvent b2 (.wait .tCC)])).setTxn true)
      split
      · trivial
      · trivial
      · next e t heq =>
        rw [heq] at ht
        obtain ⟨es, rfl⟩ := ht
        rw [State.after_setTxn, State.after_after]
        exact abortFrame_closes _ s _ true
      · next a t heq =>
        rw [heq] at ht
        obtain ⟨es, rfl⟩ := ht
        rw [State.after_setTxn, State.after_after]
        exact closeFrame_closes a s _ true

theorem Closes.guarded {α : Type} {s : State} {c : Called α} (h : Closes s c) (cs : List (Bool × Reason)) :
    Closes s (guarded cs c) := by
  unfold Machine.guarded
  split
  · trivial
  · exact h

/-- A register access ends with no transaction open and otherwise only appends events. -/
theorem readRegister_closes (a : Nat) (s : State) : Closes s (readRegister a s) :=
  (frame_closes _ s fun t => readBody_appends _ t).guarded _

theorem writeRegister_closes (a : Nat) (v : Byte) (s : State) : Closes s (writeRegister a v s) :=
  (frame_closes _ s fun t => writeBody_appends _ _ t).guarded _

theorem writeField_closes (a : Nat) (inRange : Bool) (data : Byte) (s : State) :
    Closes s (writeField a inRange data s) :=
  (writeRegister_closes a data s).guarded _

theorem readField_closes (a : Nat) (field : Byte → Byte) (value : Byte → Byte → Value) (s : State) :
    Closes s (readField a field value s) := by
  have h := readRegister_closes a s
  unfold readField
  cases hr : readRegister a s with
  | ok raw t =>
    rw [hr] at h
    simp only [Called.andThen, decodeField]
    cases decodeDigits (field raw) with
    | none => exact h
    | some v => exact h
  | err e t => rw [hr] at h; exact h
  | refused r => trivial
  | stopped r => trivial

/-! ### The frame of a transaction when no call fails -/

theorem attemptAll_quiet (needed : Prim → State → Bool) (e : Event) (ps : List Prim) (s : State) (n : Nat)
    (hn : NoFailure s (n + 1)) (hf : e.isFail = false) (hg : e.isGet = false) (h : needed e.prim s = true) :
    attemptAll needed (e.prim :: ps) s = attemptAll needed ps (s.after [e]) := by
  have he : successEvent (s.drawAt 0).bit e.prim = e := by
    cases e <;> simp_all [Event.isFail, Event.isGet, Event.prim, successEvent]
  simp only [attemptAll, h, if_true, perform_quiet e.prim hn, he]

theorem attemptAll_skip (needed : Prim → State → Bool) (p : Prim) (ps : List Prim) (s : State)
    (h : needed p s = false) : attemptAll needed (p :: ps) s = attemptAll needed ps s := by
  simp [attemptAll, h]

/-- Cleanup when none of its calls fails: its steps on the lines it finds, and the error it was given. -/
theorem cleanup_quiet (first : Option Error) (s : State) (hn : NoFailure s (cleanupEvents s.lines).length) :
    cleanup first s = (first, (s.after (cleanupEvents s.lines)).setTxn false) := by
  have key : attemptAll cleanupNeeds [.wait .tCCH, .setCe .deasserted, .setClk .low, .dir .output, .wait .tCWH]
      (s.setTxn false) = (none, (s.setTxn false).after (cleanupEvents s.lines)) := by
    by_cases hc : s.clk = .known .low <;> by_cases hd : s.dir = .known .output
    all_goals
      have hc' : s.lines.clk = s.clk := rfl
      have hd' : s.lines.dir = s.dir := rfl
      simp only [cleanupEvents, hc', hd', hc, hd, if_true, if_false] at hn ⊢
      replace hn := hn.setTxn false
      refine (attemptAll_quiet _ (.wait .tCCH) _ _ 0 (hn.mono (by simp)) rfl rfl rfl).trans ?_
      refine (attemptAll_quiet _ (.setCe .deasserted) _ _ 0 (hn.after _ (by simp)) rfl rfl rfl).trans ?_
      rw [State.after_after]
    · refine (attemptAll_skip _ _ _ _ (by simp [cleanupNeeds, Lines.next, hc', hc])).trans ?_
      refine (attemptAll_skip _ _ _ _ (by simp [cleanupNeeds, Lines.next, hd', hd])).trans ?_
      refine (attemptAll_quiet _ (.wait .tCWH) _ _ 0 (hn.after _ (by simp)) rfl rfl rfl).trans ?_
      simp [attemptAll]
    · refine (attemptAll_skip _ _ _ _ (by simp [cleanupNeeds, Lines.next, hc', hc])).trans ?_
      refine (attemptAll_quiet _ (.dir .output) _ _ 0 (hn.after _ (by simp)) rfl rfl
        (by simp [cleanupNeeds, Event.prim, Lines.next, hd', hd])).trans ?_
      rw [State.after_after]
      refine (attemptAll_quiet _ (.wait .tCWH) _ _ 0 (hn.after _ (by simp)) rfl rfl rfl).trans ?_
      simp [attemptAll]
    · refine (attemptAll_quiet _ (.setClk .low) _ _ 0 (hn.after _ (by simp)) rfl rfl
        (by simp [cleanupNeeds, Event.prim, Lines.next, hc', hc])).trans ?_
      rw [State.after_after]
      refine (attemptAll_skip _ _ _ _ (by simp [cleanupNeeds, Lines.next, hd', hd])).trans ?_
      refine (attemptAll_quiet _ (.wait .tCWH) _ _ 0 (hn.after _ (by simp)) rfl rfl rfl).trans ?_
      simp [attemptAll]
    · refine (attemptAll_quiet _ (.setClk .low) _ _ 0 (hn.after _ (by simp)) rfl rfl
        (by simp [cleanupNeeds, Event.prim, Lines.next, hc', hc])).trans ?_
      rw [State.after_after]
      refine (attemptAll_quiet _ (.dir .output) _ _ 0 (hn.after _ (by simp)) rfl rfl
        (by simp [cleanupNeeds, Event.prim, Lines.next, hd', hd])).trans ?_
      rw [State.after_after]
      refine (attemptAll_quiet _ (.wait .tCWH) _ _ 0 (hn.after _ (by simp)) rfl rfl rfl).trans ?_
      simp [attemptAll]
  unfold cleanup
  simp only [key]
  cases first <;> rfl

theorem cleanupEvents_length (l : Lines) : (cleanupEvents l).length ≤ 5 := by
  unfold cleanupEvents
  split <;> split <;> simp

/-- A transaction whose body appends some events without an error. -/
theorem frame_quiet {α : Type} (body : State → Called α) (s : State) (a : α) (es : List Event)
    (hn : NoFailure s (2 + es.length + (cleanupEvents (s.lines.replay (openEvents ++ es))).length))
    (hb : body ((s.after openEvents).setTxn true) = .ok a ((s.after (openEvents ++ es)).setTxn true)) :
    frame body s = .ok a
      ((s.after (openEvents ++ es ++ cleanupEvents (s.lines.replay (openEvents ++ es)))).setTxn false) := by
  have h1 := perform_quiet (n := 0) (.setCe .asserted) (hn.mono (by omega))
  have n2 : NoFailure ((s.after [.setCe .asserted]).setTxn true) (0 + 1) :=
    (hn.after [.setCe .asserted] (by simp; omega)).setTxn true
  have h2 := perform_quiet (n := 0) (.wait .tCC) n2
  have n3 : NoFailure ((s.after (openEvents ++ es)).setTxn true)
      (cleanupEvents (s.lines.replay (openEvents ++ es))).length :=
    (hn.after (openEvents ++ es) (by simp [openEvents]; omega)).setTxn true
  have h3 := cleanup_quiet none ((s.after (openEvents ++ es)).setTxn true) n3
  have e2 : ((s.after [.setCe .asserted]).setTxn true).after [.wait .tCC] = (s.after openEvents).setTxn true := by
    rw [State.after_setTxn, State.after_after]
    rfl
  simp only [successEvent] at h1 h2
  rw [e2] at h2
  simp only [frame, h1, h2, hb, closeFrame, h3, State.after_setTxn, State.after_after]
  rfl

end Sys2Proof.Machine
end

