-- ==== Sys2Proof/Tests/Slice0.lean ====
section
/-! SUPPORT. The model's own tests: the refused ill-formed terms, words decoded, single steps on small states against the
vectors of 95_test_vectors.md. -/

namespace Sys2Proof.Tests

open Sys2Proof.Machine

-- Each check runs in the kernel: one after another, so that few threads are needed.
set_option Elab.async false

/-! ### Small states -/

/-- An answer that neither fails nor samples a one. -/
def calm : Draw := ⟨false, false⟩

/-- An answer that fails. -/
def bad : Draw := ⟨true, false⟩

/-- Parameters that admit failure. -/
def fallible : Params := ⟨.high, ⟨1, 1, 1, 1, 1, 1, 1, 1⟩, true, true⟩

/-- The idle state with these answers to come. -/
def idleWith (ds : List Draw) : State :=
  { ce := .known .deasserted, clk := .known .low, dir := .known .output, dout := .unknown, txn := false, trace := []
    params := fallible, refused := false, draws := ds, drawIx := 0, outcome := none, calls := [] }

/-- The idle state, nothing failing for a while. -/
def idle : State := idleWith (List.replicate 400 calm)

/-- Inside a transaction, the data line in a direction. -/
def inside (d : Direction) : State :=
  { idle with ce := .known .asserted, dir := .known d, txn := true }

/-- Power-on, nothing failing for a while. -/
def powerOn : State :=
  { idle with ce := .unknown, clk := .unknown, dir := .unknown }

/-- Five answers, the first with the sample. -/
def sampleDraws (bs : List Bool) : List Draw := bs.flatMap fun b => [⟨false, b⟩, calm, calm, calm, calm]

/-- The idle state before a read of this byte. -/
def idleReading (v : Byte) : State :=
  idleWith (List.replicate 51 calm ++ sampleDraws (bitsOf v) ++ List.replicate 200 calm)

/-- The idle state whose `k`-th primitive call fails. -/
def idleFailing (k : Nat) : State :=
  idleWith (List.replicate k calm ++ [bad] ++ List.replicate 20 calm)

def outcomeOf : Host.Outcome State Fault Refusal → Option Result
  | .next t => t.outcome
  | .fault _ => none
  | .refused _ => none

def refusalOf : Host.Outcome State Fault Refusal → Option Refusal
  | .next _ => none
  | .fault _ => none
  | .refused r => some r

/-- The reason of a refused call. -/
def reasonOf (o : Host.Outcome State Fault Refusal) : Option Reason :=
  match outcomeOf o with
  | some (.refused r) => some r
  | some (.ok _) | some (.err _) | none => none

def nextOf : Host.Outcome State Fault Refusal → Option State
  | .next t => some t
  | .fault _ => none
  | .refused _ => none

def traceOf (o : Host.Outcome State Fault Refusal) : List Event := ((nextOf o).map State.trace).getD []

/-- The data line's levels of the write cycles, in order. -/
def levelsOf (es : List Event) : List Level :=
  es.filterMap fun e => match e with
    | .setDio l => some l
    | .setClk _ | .setCe _ | .dir _ | .get _ | .wait _ | .fail _ => none

/-! ### Well-formedness: one ill-formed term for each check -/

theorem test_wf_refuses_read_address : (Instr.readRegister 32).wf = false := by decide
theorem test_wf_refuses_write_address : (Instr.writeRegister 32 0).wf = false := by decide
theorem test_wf_refuses_encode_range : (Instr.encodeBcd 100).wf = false := by decide
theorem test_wf_refuses_seconds : (Instr.writeSeconds 60 false).wf = false := by decide
theorem test_wf_refuses_minutes : (Instr.writeMinutes 60).wf = false := by decide
theorem test_wf_refuses_hours_24 : (Instr.writeHours 24 .h24).wf = false := by decide
theorem test_wf_refuses_hours_12_low : (Instr.writeHours 0 (.h12 false)).wf = false := by decide
theorem test_wf_refuses_hours_12_high : (Instr.writeHours 13 (.h12 true)).wf = false := by decide
theorem test_wf_refuses_barred_body : (Instr.transaction ⟨[.barred .transaction], []⟩).wf = false := by decide
theorem test_wf_refuses_unbound_name : (Instr.transaction ⟨[.writeByte (.lit 1), .decodeBcd (.result 0)], []⟩).wf = false := by
  decide
theorem test_wf_refuses_unbound_return : (Instr.transaction ⟨[.readByte], [.result 1]⟩).wf = false := by decide
theorem test_wf_refuses_large_name :
    Body.fits ⟨[.decodeBcd (.result 256)], []⟩ = false ∧ Body.fits ⟨[], [.result 256]⟩ = false := by decide
theorem test_wf_admits_bounds : (Instr.readRegister 31).wf = true ∧ (Instr.encodeBcd 99).wf = true ∧
    (Instr.writeHours 12 (.h12 true)).wf = true ∧ (Instr.writeHours 23 .h24).wf = true := by decide

/-! ### Decoding: command bytes from 30_encoding.md R71, R73 and R82, and the records of the calls -/

theorem test_decode_read_seconds : decode [0x81, 0, 0, 0] = .ok .readSeconds [] := by decide
theorem test_decode_read_minutes : decode [0x83, 0, 0, 0] = .ok .readMinutes [] := by decide
theorem test_decode_read_hours : decode [0x85, 0, 0, 0] = .ok .readHours [] := by decide
theorem test_decode_write_seconds : decode [0x80, 0, 29, 1] = .ok (.writeSeconds 29 true) [] := by decide
theorem test_decode_write_minutes : decode [0x82, 0, 45, 0] = .ok (.writeMinutes 45) [] := by decide
theorem test_decode_write_hours : decode [0x84, 0, 12, 2] = .ok (.writeHours 12 (.h12 true)) [] := by decide
/-- E8: `cmd(31, Read) = 0xBF`. -/
theorem test_decode_read_register : decode [0b10111111, 0, 0, 0] = .ok (.readRegister 31) [] := by decide
/-- E7: `cmd(31, Write) = 0xBE`. -/
theorem test_decode_write_register : decode [0b10111110, 0, 0x45, 0] = .ok (.writeRegister 31 0x45) [] := by decide
theorem test_decode_ignored : decode [0b01010101, 0, 0, 0] = .ok (.ignoredCommand 0b1010101) [] := by decide
theorem test_decode_ram_write : decode [0b11010100, 0, 0, 0] = .ok (.ramWriteCommand 0b01010) [] := by decide
theorem test_decode_ram_read : decode [0b11010101, 0, 0, 0] = .ok (.ramReadCommand 0b01010) [] := by decide
theorem test_decode_init : decode [0, 1, 0, 0, 0x81] = .ok .init [0x81] := by decide
theorem test_decode_direction : decode [1, 2, 0, 0] = .ok (.setDataDirection .input) [] := by decide
theorem test_decode_write_byte : decode [0xA5, 3, 0, 0] = .ok (.writeByte 0xA5) [] := by decide
theorem test_decode_read_byte : decode [0, 4, 0, 0] = .ok .readByte [] := by decide
theorem test_decode_transaction :
    decode [0, 5, 0, 0, 1, 0, 0x81, 3, 0, 1, 2, 0, 0, 7, 1, 2, 0, 0, 0, 9] =
      .ok (.transaction ⟨[.writeByte (.lit 0x81), .setDataDirection .input, .readByte], [.result 2]⟩) [9] := by decide
theorem test_decode_low_registers :
    decode [1, 6, 0, 0] = .ok (.readRegister 1) [] ∧ decode [1, 7, 0x45, 0] = .ok (.writeRegister 1 0x45) [] := by decide
theorem test_decode_bcd_calls :
    decode [0x29, 8, 0, 0] = .ok (.decodeBcd 0x29) [] ∧ decode [45, 9, 0, 0] = .ok (.encodeBcd 45) [] := by decide
theorem test_decode_rejects :
    decode [0x81, 0, 0] = .reject .truncated ∧ decode [0, 10, 0, 0] = .reject .unknownSelector ∧
    decode [0x81, 0, 1, 0] = .reject .badOperand ∧ decode [0, 5, 0, 0, 8, 0, 0] = .reject .badBodyEntry := by decide

/-! ### Transport -/

/-- T1. -/
theorem test_init_from_power_on : traceOf (exec .init powerOn) =
    [.setCe .deasserted, .setClk .low, .dir .output, .wait .tCWH] := by decide +kernel
/-- T2. -/
theorem test_init_clk_fault : (nextOf (exec .init { powerOn with draws := [calm, bad, calm, calm] })).map
    (fun t => (t.outcome, t.clk, t.trace)) =
    some (some (.err (.pinFault (.fail (.setClk .low)))), .unknown,
      [.setCe .deasserted, .fail (.setClk .low), .dir .output, .wait .tCWH]) := by decide +kernel
/-- T4. -/
theorem test_direction_idle : (nextOf (exec (.setDataDirection .input) idle)).map (fun t => (t.dir, t.trace)) =
    some (.known .input, [.dir .input]) := by decide +kernel
/-- T11. -/
theorem test_direction_output_inside :
    reasonOf (exec (.setDataDirection .output) (inside .input)) = some .outputDuringTransaction := by decide +kernel
/-- V1: the levels of 0xA5, bit 0 first. -/
theorem test_write_byte_a5 : levelsOf (traceOf (exec (.writeByte 0xA5) (inside .output))) =
    [.high, .low, .high, .low, .low, .high, .low, .high] := by decide +kernel
/-- T5. -/
theorem test_write_byte_outside : reasonOf (exec (.writeByte 0) idle) = some .outsideTransaction := by decide +kernel
/-- V1: the draws 1,0,1,0,0,1,0,1 read as 0xA5. -/
theorem test_read_byte_a5 : outcomeOf (exec .readByte
    { inside .input with draws := sampleDraws [true, false, true, false, false, true, false, true] }) =
    some (.ok (.byte 0xA5)) := by decide +kernel
/-- T9. -/
theorem test_read_byte_direction : reasonOf (exec .readByte (inside .output)) = some .wrongDirection := by decide +kernel
/-- T10. -/
theorem test_transaction_empty : (nextOf (exec (.transaction ⟨[], [.lit 7]⟩) idle)).map (fun t => (t.outcome, t.trace)) =
    some (some (.ok (.byte 7)),
      [.setCe .asserted, .wait .tCC, .wait .tCCH, .setCe .deasserted, .wait .tCWH]) := by decide +kernel
/-- T14. -/
theorem test_transaction_nested : reasonOf (exec (.transaction ⟨[.barred .transaction], []⟩) idle) = some .badBody := by
  decide +kernel

/-! ### Registers and BCD -/

/-- V20. -/
theorem test_read_register_0 : (nextOf (exec (.readRegister 0) (idleReading 0x29))).map (fun t => (t.outcome, t.trace.length)) =
    some (some (.ok (.byte 0x29)), 95) := by decide +kernel
/-- E9. -/
theorem test_read_register_32 : reasonOf (exec (.readRegister 32) idle) = some .addressOutOfRange := by decide +kernel
/-- V21: 0x82 and then 0x45 on the data line. -/
theorem test_write_register_1 : levelsOf (traceOf (exec (.writeRegister 1 0x45) idle)) =
    [.low, .high, .low, .low, .low, .low, .low, .high, .high, .low, .high, .low, .low, .low, .high, .low] := by
  decide +kernel
/-- T12. -/
theorem test_write_register_assert_fault : (nextOf (exec (.writeRegister 1 0x45) (idleFailing 0))).map
    (fun t => (t.outcome, t.trace)) = some (some (.err (.pinFault (.fail (.setCe .asserted)))),
      [.fail (.setCe .asserted), .wait .tCCH, .setCe .deasserted, .wait .tCWH]) := by decide +kernel
/-- B6 and B1. -/
theorem test_decode_bcd_ok : outcomeOf (exec (.decodeBcd 0x99) idle) = some (.ok (.byte 99)) ∧
    outcomeOf (exec (.decodeBcd 0x00) idle) = some (.ok (.byte 0)) := by decide +kernel
/-- B7 and B8. -/
theorem test_decode_bcd_bad : outcomeOf (exec (.decodeBcd 0x9A) idle) = some (.err (.invalidBcdDigit 0x9A)) ∧
    outcomeOf (exec (.decodeBcd 0xA0) idle) = some (.err (.invalidBcdDigit 0xA0)) := by decide +kernel
/-- B13. -/
theorem test_encode_bcd_45 : outcomeOf (exec (.encodeBcd 45) idle) = some (.ok (.byte 0x45)) := by decide +kernel
/-- B15. -/
theorem test_encode_bcd_100 : reasonOf (exec (.encodeBcd 100) idle) = some .bcdRange := by decide +kernel

/-! ### Time fields -/

/-- F2: the clock-halt bit is masked. -/
theorem test_read_seconds_ch : outcomeOf (exec .readSeconds (idleReading 0xA9)) = some (.ok (.byte 29)) := by decide +kernel
/-- F5: the unmasked byte is recorded. -/
theorem test_read_seconds_bad : outcomeOf (exec .readSeconds (idleReading 0xFA)) = some (.err (.invalidBcdDigit 0xFA)) := by
  decide +kernel
/-- F9. -/
theorem test_read_minutes_80 : outcomeOf (exec .readMinutes (idleReading 0x80)) = some (.ok (.byte 80)) := by decide +kernel
/-- F10. -/
theorem test_read_minutes_bad : outcomeOf (exec .readMinutes (idleReading 0xA0)) = some (.err (.invalidBcdDigit 0xA0)) := by
  decide +kernel
/-- F13. -/
theorem test_read_hours_pm : outcomeOf (exec .readHours (idleReading 0xB2)) = some (.ok (.hours 12 (some true))) := by
  decide +kernel
/-- F25. -/
theorem test_read_hours_39 : outcomeOf (exec .readHours (idleReading 0x39)) = some (.ok (.hours 39 none)) := by decide +kernel
/-- F30: 0x80 and then 0xA9. -/
theorem test_write_seconds_ch : (levelsOf (traceOf (exec (.writeSeconds 29 true) idle))).drop 8 =
    [.high, .low, .low, .high, .low, .high, .low, .high] := by decide +kernel
/-- F32. -/
theorem test_write_seconds_60 : reasonOf (exec (.writeSeconds 60 false) idle) = some .fieldRange := by decide +kernel
/-- P3: the 17th primitive fails; 21 events, the last four the cleanup. -/
theorem test_write_minutes_fault : (nextOf (exec (.writeMinutes 45) (idleFailing 16))).map
    (fun t => (t.outcome, t.trace.length, t.trace.drop 16)) =
    some (some (.err (.pinFault (.fail (.setClk .high)))), 21,
      [.fail (.setClk .high), .wait .tCCH, .setCe .deasserted, .setClk .low, .wait .tCWH]) := by decide +kernel
/-- F35. -/
theorem test_write_minutes_60 : reasonOf (exec (.writeMinutes 60) idle) = some .fieldRange := by decide +kernel
/-- F42: 0x84 and then 0xB1. -/
theorem test_write_hours_11pm : levelsOf (traceOf (exec (.writeHours 11 (.h12 true)) idle)) =
    [.low, .low, .high, .low, .low, .low, .low, .high, .high, .low, .low, .low, .high, .high, .low, .high] := by
  decide +kernel
/-- F38. -/
theorem test_write_hours_24 : reasonOf (exec (.writeHours 24 .h24) idle) = some .fieldRange := by decide +kernel

/-! ### The step -/

theorem test_ram_refused : refusalOf (step (idle.withFetchWord 8 0xC1)) = some .ramCommand := by decide +kernel
/-- T3: a read at power-on is refused. -/
theorem test_step_read_at_reset : reasonOf (step (State.reset.withFetchWord 8 0x81)) = some .lineUnknown := by
  decide +kernel
theorem test_step_ignored_at_reset : (nextOf (step (State.reset.withFetchWord 8 0x00))).map State.trace = some [] := by
  decide +kernel
/-- A refused call appends nothing and marks the run, and the caller may call `init` next (60_exceptions.md R185, R187). -/
theorem test_step_refused_then_init :
    (nextOf (step { powerOn with calls := [0x81, 0, 0, 0, 0, 1, 0, 0] })).map (fun t =>
      (t.outcome, t.refused, t.trace, t.calls, outcomeOf (step t))) =
    some (some (.refused .lineUnknown), true, [], [0, 1, 0, 0], some (.ok .unit)) := by decide +kernel
/-- A call refused inside a body ends the run (40_transport.md R106). -/
theorem test_transaction_refused_inside : refusalOf (exec (.transaction ⟨[.writeByte (.lit 0x81), .readByte], []⟩) idle) =
    some (.inBody .wrongDirection) := by decide +kernel
/-- T13: after a failed deassert CE is unknown and no transaction is open. -/
theorem test_deassert_fault : (nextOf (exec (.writeRegister 1 0x45) (idleFailing 99))).map
    (fun t => (t.outcome, t.ce, t.txn, t.trace.length)) =
    some (some (.err (.pinFault (.fail (.setCe .deasserted)))), .unknown, false, 101) := by decide +kernel

end Sys2Proof.Tests
end

