-- ==== Sys2Proof/Tests/Witnesses.lean ====
section
/-! SUPPORT. For every statement with hypotheses, a concrete state and operands that meet all of them together, at the bounds
of each clause. -/

namespace Sys2Proof.Tests

open Sys2Proof.Machine

-- Each check runs in the kernel: one after another, so that few threads are needed.
set_option Elab.async false

/-- Answers listed as not failing make the calls they answer not fail. -/
theorem noFailure_of_calm {s : State} {n : Nat} (hl : n ≤ s.draws.length)
    (h : (s.draws.take n).all (fun d => !d.fails) = true) : NoFailure s n := by
  intro k hk hf
  have hk' : k < (s.draws.take n).length := by simp; omega
  have hd := List.all_eq_true.mp h _ (List.getElem_mem hk')
  have he : s.drawAt k = (s.draws.take n)[k] := by
    unfold State.drawAt
    rw [List.getElem?_eq_getElem (by omega)]
    simp
  rw [← he, hf] at hd
  cases hd

theorem next_of {o : Host.Outcome State Fault Refusal} (p : State → Bool) (h : (nextOf o).any p = true) :
    ∃ t, o = .next t ∧ p t = true := by
  cases o with
  | next t => exact ⟨t, rfl, h⟩
  | fault r => cases h
  | refused r => cases h

theorem idle_quiet (n : Nat) (h : n ≤ 400) : NoFailure idle n :=
  (noFailure_of_calm (n := 400) (by decide +kernel) (by decide +kernel)).mono h

theorem idle_idle : idle.Idle := ⟨rfl, rfl, rfl, rfl⟩

theorem trace_drop {s t : State} (h : t.trace.take s.trace.length = s.trace) :
    t.trace = s.trace ++ t.trace.drop s.trace.length := by
  conv_lhs => rw [← List.take_append_drop s.trace.length t.trace, h]

/-! ### Reset, boundary, step -/

theorem witness_PowerOnAndAfterInit :
    ∃ s : State, s.txn = false ∧ NoFailure s 4 :=
  ⟨powerOn, rfl, idle_quiet 4 (by omega)⟩

/-- The invariant holds at power-on, and a step runs from there. -/
theorem witness_StepKeepsBoundary : ∃ s t : State, Boundary s ∧ step s = .next t ∧ s.calls ≠ [] := by
  obtain ⟨t, ht, -⟩ := next_of (o := step { powerOn with calls := [0, 1, 0, 0] }) (fun _ => true) (by decide +kernel)
  exact ⟨{ powerOn with calls := [0, 1, 0, 0] }, t, ⟨rfl, by decide, by decide, rfl, rfl⟩, ht, by decide⟩

/-- A step with a call pending, and one without, in a run already marked as refused. -/
theorem witness_StepKeepsParams : (∃ s t : State, step s = .next t ∧ s.calls ≠ []) ∧
    ∃ s t : State, step s = .next t ∧ s.refused = true := by
  obtain ⟨s, t, -, h, hc⟩ := witness_StepKeepsBoundary
  exact ⟨⟨s, t, h, hc⟩, ⟨{ idle with refused := true }, { idle with refused := true }, rfl, rfl⟩⟩

theorem witness_StepRunsDecodedCall : ∃ s : State, decode s.calls = .ok .readSeconds [7] :=
  ⟨{ idle with calls := [0x81, 0, 0, 0, 7] }, by decide⟩

theorem witness_StepWithoutCall :
    (∃ s : State, s.calls = []) ∧ ∃ s : State, s.calls ≠ [] ∧ decode s.calls = .reject .truncated :=
  ⟨⟨idle, rfl⟩, ⟨{ idle with calls := [0x81] }, by decide, by decide⟩⟩

theorem witness_PlacedWordRuns : decodeTableWord 8 0x85 = some .readHours ∧
    decodeTableWord 8 0x00 = some (.ignoredCommand 0) := by decide

theorem witness_DecodeEncode : (Instr.readRegister 2).wf = true ∧ (Instr.readRegister 31).wf = true ∧
    (Instr.writeHours 12 (.h12 true)).wf = true ∧
    (Instr.transaction ⟨[.readByte, .decodeBcd (.result 0)], [.result 1]⟩).wf = true := by decide

theorem witness_CommandByteAssembly : ∃ a : Nat, a ≤ 31 ∧ cmdByte a .read = 0xBF#8 := ⟨31, by omega, by decide⟩

/-- A byte of each command class, at the bounds of the class. -/
theorem witness_CommandClassesByMask : classify 0x7F = .ignored 0x7F ∧ classify 0x80 = .clkWrite 0 ∧
    classify 0xBF = .clkRead 31 ∧ classify 0xC0 = .ramWrite 0 ∧ classify 0xFF = .ramRead 31 := by decide

/-! ### Primitives and transport -/

theorem witness_PrimitiveFailure :
    (∃ s : State, s.params.pinCanFail = true ∧ (s.drawAt 0).fails = true) ∧
    (∃ s : State, s.params.pinCanFail = true ∧ (s.drawAt 0).fails = false) ∧
    (∃ s : State, s.params.pinCanFail = false ∧ (s.drawAt 0).fails = true) :=
  ⟨⟨idleFailing 0, by decide, by decide⟩, ⟨idle, by decide, by decide⟩,
    ⟨{ idleFailing 0 with params := { fallible with pinCanFail := false } }, by decide, by decide⟩⟩

theorem witness_InitAttemptsEveryLine :
    (∃ s : State, s.txn = true) ∧ (∃ s : State, s.txn = false ∧ NoFailure s 4) :=
  ⟨⟨inside .output, rfl⟩, ⟨powerOn, rfl, idle_quiet 4 (by omega)⟩⟩

/-- A state for each clause, in their order. -/
theorem witness_SetDataDirectionCompletes :
    (∃ s : State, s.clk = .known .high) ∧
    (∃ s : State, s.clk ≠ .known .high ∧ (s.ce = .unknown ∨ s.clk = .unknown)) ∧
    (∃ s : State, s.clk = .known .low ∧ s.ce ≠ .unknown ∧ s.txn = true) ∧
    (∃ s : State, s.clk = .known .low ∧ s.ce ≠ .unknown ∧ ¬ (s.txn = true ∧ Direction.output = .output) ∧ NoFailure s 1) ∧
    (∃ s : State, s.clk = .known .low ∧ s.ce ≠ .unknown ∧ s.txn = true ∧ ¬ (s.txn = true ∧ Direction.input = .output) ∧
      NoFailure s 1) ∧
    (∃ s : State, s.clk = .known .low ∧ s.ce ≠ .unknown ∧ ¬ (s.txn = true ∧ Direction.input = .output) ∧
      CallFails s 0 (.dir .input)) :=
  ⟨⟨{ idle with clk := .known .high }, rfl⟩, ⟨powerOn, by decide, .inl rfl⟩, ⟨inside .input, rfl, by decide, rfl⟩,
    ⟨idle, rfl, by decide, by decide, idle_quiet 1 (by omega)⟩,
    ⟨inside .output, rfl, by decide, rfl, by decide, idle_quiet 1 (by omega)⟩,
    ⟨idleFailing 0, rfl, by decide, by decide, by decide⟩⟩

theorem witness_WriteByteShiftsOut :
    ∃ s : State, s.txn = true ∧ s.dir = .known .output ∧ s.clk = .known .low ∧ NoFailure s 48 :=
  ⟨inside .output, rfl, rfl, rfl, idle_quiet 48 (by omega)⟩

theorem witness_ReadByteShiftsIn :
    ∃ s : State, s.txn = true ∧ s.dir = .known .input ∧ s.clk = .known .low ∧ NoFailure s 40 :=
  ⟨inside .input, rfl, rfl, rfl, idle_quiet 40 (by omega)⟩

theorem witness_SamplesStandLsbFirst : ∃ i : Nat, i < 8 ∧ (sampledByte (idleReading 0x80) 51).getLsbD i = true :=
  ⟨7, by omega, by decide +kernel⟩

/-- The empty body, and one of two bytes. -/
theorem witness_TransactionOfWrites :
    (∃ s : State, s.Idle ∧ NoFailure s (5 + 48 * ([] : List Byte).length)) ∧
    ∃ s : State, s.Idle ∧ NoFailure s (5 + 48 * [0x82#8, 0x45#8].length) :=
  ⟨⟨idle, idle_idle, idle_quiet _ (by decide)⟩, ⟨idle, idle_idle, idle_quiet _ (by decide)⟩⟩

theorem witness_TransactionOfWritesThenReads :
    ∃ s : State, s.Idle ∧ NoFailure s (7 + 48 * [0x81#8].length + 40 * 1) :=
  ⟨idle, idle_idle, idle_quiet _ (by decide)⟩

theorem witness_TransactionCompletes : ∃ (b : Body) (s : State), s.Idle ∧ b.barred = false ∧ b.bound = true ∧
    callsAdmitted .output b.calls = true ∧ b.calls.length = 5 :=
  ⟨⟨[.writeByte (.lit 0x81), .setDataDirection .input, .readByte, .decodeBcd (.result 2), .encodeBcd (.lit 99)],
    [.result 3]⟩, idle, idle_idle, by decide, by decide, by decide, by decide⟩

/-- A cleanup whose calls all succeed, after an error and after none, and one whose deassert fails. -/
theorem witness_CleanupAttemptsEveryStep :
    (cleanup none (inside .input)).1 = none ∧
    (cleanup (some (.invalidBcdDigit 0xFF)) (inside .input)).1 = some (.invalidBcdDigit 0xFF) ∧
    (cleanup none (idleFailing 1)).1 = some (.pinFault (.fail (.setCe .deasserted))) := by decide +kernel

theorem witness_TransactionAlwaysDeasserts :
    (∃ s t : State, opensTransaction .readMinutes = true ∧ s.Idle ∧ exec .readMinutes s = .next t ∧
      t.ce = .known .deasserted) ∧
    (∃ s t : State, s.Idle ∧ exec (.writeRegister 1 0x45) s = .next t ∧ t.ce = .unknown) := by
  obtain ⟨t, ht, h1⟩ := next_of (o := exec .readMinutes idle) (fun t => decide (t.ce = .known .deasserted)) (by decide +kernel)
  obtain ⟨u, hu, h2⟩ := next_of (o := exec (.writeRegister 1 0x45) (idleFailing 99)) (fun t => decide (t.ce = .unknown))
    (by decide +kernel)
  exact ⟨⟨idle, t, rfl, idle_idle, ht, of_decide_eq_true h1⟩,
    ⟨idleFailing 99, u, ⟨rfl, rfl, rfl, rfl⟩, hu, of_decide_eq_true h2⟩⟩

/-! ### Registers, BCD and time fields -/

theorem witness_ReadRegisterReturnsSamples : ∃ (a : Nat) (s : State), a ≤ 31 ∧ s.Idle ∧ NoFailure s 95 ∧ a = 31 :=
  ⟨31, idle, by omega, idle_idle, idle_quiet _ (by omega), rfl⟩

theorem witness_WriteRegisterSendsByte : ∃ (a : Nat) (s : State), a ≤ 31 ∧ s.Idle ∧ NoFailure s 101 ∧ a = 31 :=
  ⟨31, idle, by omega, idle_idle, idle_quiet _ (by omega), rfl⟩

theorem witness_EveryByteCanBeRead : ∃ a : Nat, a ≤ 31 ∧ outcomeOf (exec (.readRegister a) (idleReading 0xFF)) =
    some (.ok (.byte 0xFF)) := ⟨31, by omega, by decide +kernel⟩

theorem witness_DecodeBcdResult :
    (∃ raw : Byte, raw.toNat / 16 > 9 ∨ raw.toNat % 16 > 9) ∧
    (∃ raw : Byte, raw.toNat / 16 ≤ 9 ∧ raw.toNat % 16 ≤ 9 ∧ raw = 0x99#8) :=
  ⟨⟨0x9A#8, by decide⟩, ⟨0x99#8, by decide⟩⟩

theorem witness_EncodeBcdResult : (∃ v : Byte, v.toNat ≤ 99 ∧ v = 99#8) ∧ ∃ v : Byte, 99 < v.toNat ∧ v = 100#8 :=
  ⟨⟨99#8, by decide⟩, ⟨100#8, by decide⟩⟩

theorem witness_BcdLaws : (∃ v : Byte, v.toNat ≤ 99 ∧ v = 99#8) ∧
    (∃ b : Byte, b.toNat / 16 ≤ 9 ∧ b.toNat % 16 ≤ 9 ∧ b = 0x99#8) ∧ decodeDigits 0x99#8 = some 99#8 := by
  refine ⟨⟨99#8, by decide⟩, ⟨0x99#8, by decide⟩, by decide⟩

/-- The three time reads share these hypotheses. -/
theorem witness_TimeReads : ∃ s : State, s.Idle ∧ NoFailure s 95 ∧ sampledByte s 51 = 0xB2#8 := by
  refine ⟨idleReading 0xB2, ⟨rfl, rfl, rfl, rfl⟩, noFailure_of_calm ?_ ?_, ?_⟩ <;> decide +kernel

/-- The time writes share these hypotheses; each range at its bounds. -/
theorem witness_TimeWrites : ∃ s : State, s.Idle ∧ NoFailure s 101 ∧
    (59#8).toNat ≤ 59 ∧ (23#8).toNat ≤ 23 ∧ (1 ≤ (1#8).toNat ∧ (1#8).toNat ≤ 12) ∧ (1 ≤ (12#8).toNat ∧ (12#8).toNat ≤ 12) :=
  ⟨idle, idle_idle, idle_quiet _ (by omega), by decide⟩

theorem witness_OutOfRangeValuesAreReturned :
    outcomeOf (exec .readSeconds (idleReading 0x60)) = some (.ok (.byte 60)) ∧
    outcomeOf (exec .readSeconds (idleReading 0x79)) = some (.ok (.byte 79)) ∧
    outcomeOf (exec .readMinutes (idleReading 0x99)) = some (.ok (.byte 99)) ∧
    outcomeOf (exec .readHours (idleReading 0x80)) = some (.ok (.hours 0 (some false))) ∧
    outcomeOf (exec .readHours (idleReading 0x99)) = some (.ok (.hours 19 (some false))) ∧
    outcomeOf (exec .readHours (idleReading 0x39)) = some (.ok (.hours 39 none)) := by decide +kernel

theorem witness_InvalidDigitAfterClose :
    (∃ s t : State, exec .readHours s = .next t ∧ t.outcome = some (.err (.invalidBcdDigit 0x8A))) ∧
    ∃ b : Byte, b.toNat / 16 > 9 ∨ b.toNat % 16 > 9 := by
  obtain ⟨t, ht, h⟩ := next_of (o := exec .readHours (idleReading 0x8A))
    (fun t => decide (t.outcome = some (.err (.invalidBcdDigit 0x8A)))) (by decide +kernel)
  exact ⟨⟨idleReading 0x8A, t, ht, of_decide_eq_true h⟩, ⟨0x0A#8, by decide⟩⟩

/-! ### Errors and refusals -/

theorem witness_FirstFailureIsReported :
    (∃ s t : State, exec .init s = .next t ∧ t.outcome = some (.err (.pinFault (.fail (.setCe .deasserted))))) ∧
    (∃ s t : State, exec .init s = .next t ∧ t.outcome = some (.ok .unit)) := by
  obtain ⟨t, ht, h⟩ := next_of (o := exec .init (idleFailing 0))
    (fun t => decide (t.outcome = some (.err (.pinFault (.fail (.setCe .deasserted)))))) (by decide +kernel)
  obtain ⟨u, hu, h'⟩ := next_of (o := exec .init idle) (fun t => decide (t.outcome = some (.ok .unit))) (by decide +kernel)
  exact ⟨⟨idleFailing 0, t, ht, of_decide_eq_true h⟩, ⟨idle, u, hu, of_decide_eq_true h'⟩⟩

theorem idleFailing_draws (k j : Nat) (h : j < k + 21) :
    (idleFailing k).drawAt j = if j = k then bad else calm := by
  unfold State.drawAt
  rcases Nat.lt_trichotomy j k with hj | hj | hj
  · simp [idleFailing, idleWith, List.getElem?_append, hj, Nat.ne_of_lt hj]
  · subst hj
    simp [idleFailing, idleWith]
  · obtain ⟨m, rfl⟩ : ∃ m, j = k + (m + 1) := ⟨j - (k + 1), by omega⟩
    have h2 : m < 20 := by omega
    simp [-List.reduceReplicate, idleFailing, idleWith, List.getElem?_append, h2]

/-- The answers before and after the failing one. -/
theorem idleFailing_calm (k : Nat) : NoFailure (idleFailing k) k ∧ QuietFrom (idleFailing k) (k + 1) 5 ∧
    ∀ p, canFail p (idleFailing k) = true → CallFails (idleFailing k) k p := by
  refine ⟨fun j hj hf => ?_, fun j hj hj' => ?_, fun p hp => ⟨hp, ?_⟩⟩
  · rw [idleFailing_draws k j (by omega), if_neg (by omega)] at hf
    cases hf
  · rw [idleFailing_draws k j (by omega), if_neg (by omega)]
    rfl
  · rw [idleFailing_draws k k (by omega), if_pos rfl]
    rfl

/-- The first call, the CE assert, and the last before the cleanup. -/
theorem witness_WriteFaultRunsCleanup :
    (∃ (s : State) (p : Prim), s.Idle ∧
      (((writeAccessEvents (cmdByte 31 .write) 0x45).take 98)[0]?).map Event.prim = some p ∧
      NoFailure s 0 ∧ CallFails s 0 p ∧ QuietFrom s 1 5) ∧
    (∃ (s : State) (p : Prim), s.Idle ∧
      (((writeAccessEvents (cmdByte 31 .write) 0x45).take 98)[97]?).map Event.prim = some p ∧
      NoFailure s 97 ∧ CallFails s 97 p ∧ QuietFrom s 98 5) := by
  obtain ⟨a1, a2, a3⟩ := idleFailing_calm 0
  obtain ⟨b1, b2, b3⟩ := idleFailing_calm 97
  exact ⟨⟨idleFailing 0, .setCe .asserted, ⟨rfl, rfl, rfl, rfl⟩, by decide +kernel, a1, a3 _ rfl, a2⟩,
    ⟨idleFailing 97, .wait .tCL, ⟨rfl, rfl, rfl, rfl⟩, by decide +kernel, b1, b3 _ rfl, b2⟩⟩

/-- The direction switch, and the last call before the cleanup. -/
theorem witness_ReadFaultRunsCleanup :
    (∃ (s : State) (p : Prim), s.Idle ∧
      (((readAccessEvents (cmdByte 31 .read) (sampledByte s 51)).take 91)[50]?).map Event.prim = some p ∧
      NoFailure s 50 ∧ CallFails s 50 p ∧ QuietFrom s 51 5) ∧
    (∃ (s : State) (p : Prim), s.Idle ∧
      (((readAccessEvents (cmdByte 31 .read) (sampledByte s 51)).take 91)[90]?).map Event.prim = some p ∧
      NoFailure s 90 ∧ CallFails s 90 p ∧ QuietFrom s 91 5) := by
  obtain ⟨a1, a2, a3⟩ := idleFailing_calm 50
  obtain ⟨b1, b2, b3⟩ := idleFailing_calm 90
  exact ⟨⟨idleFailing 50, .dir .input, ⟨rfl, rfl, rfl, rfl⟩, by decide +kernel, a1, a3 _ rfl, a2⟩,
    ⟨idleFailing 90, .wait .tCL, ⟨rfl, rfl, rfl, rfl⟩, by decide +kernel, b1, b3 _ rfl, b2⟩⟩

/-- Each range just past its bound. -/
theorem witness_ArgumentRefusals : (31 : Nat) < 32 ∧ 99 < (100#8).toNat ∧ 59 < (60#8).toNat ∧ 23 < (24#8).toNat ∧
    (0#8).toNat < 1 ∧ 12 < (13#8).toNat := by decide

/-- A state for each clause, in their order. -/
theorem witness_ByteTransferRefusals :
    (∃ s : State, s.txn = false) ∧
    (∃ s : State, s.txn = true ∧ s.dir ≠ .known .output) ∧
    (∃ s : State, s.txn = true ∧ s.dir ≠ .known .input) ∧
    (∃ s : State, s.txn = true ∧ s.dir = .known .output ∧ s.clk = .known .high) ∧
    (∃ s : State, s.txn = true ∧ s.dir = .known .input ∧ s.clk = .known .high) ∧
    (∃ s : State, s.txn = true ∧ s.dir = .known .output ∧ s.clk = .unknown) ∧
    (∃ s : State, s.txn = true ∧ s.dir = .known .input ∧ s.clk = .unknown) :=
  ⟨⟨idle, rfl⟩, ⟨inside .input, rfl, by decide⟩, ⟨inside .output, rfl, by decide⟩,
    ⟨{ inside .output with clk := .known .high }, rfl, rfl, rfl⟩, ⟨{ inside .input with clk := .known .high }, rfl, rfl, rfl⟩,
    ⟨{ inside .output with clk := .unknown }, rfl, rfl, rfl⟩, ⟨{ inside .input with clk := .unknown }, rfl, rfl, rfl⟩⟩

/-- A state and operands for each clause, in their order. -/
theorem witness_TransactionRefusals :
    opensTransaction (.writeHours 12 (.h12 true)) = true ∧ (Instr.writeHours 12 (.h12 true)).wf = true ∧
    (∃ s : State, s.txn = true) ∧
    (∃ s : State, s.txn = false ∧ s.dir = .known .input) ∧
    (∃ s : State, s.txn = false ∧ s.ce ≠ .known .asserted ∧ s.clk ≠ .known .high ∧ s.dir ≠ .known .input ∧ s.clk = .unknown) ∧
    (∃ (b : Body) (s : State), s.Idle ∧ b.barred = true) ∧
    (∃ (b : Body) (s : State), s.Idle ∧ b.barred = false ∧ b.bound = false) :=
  ⟨rfl, by decide, ⟨inside .output, rfl⟩, ⟨{ idle with dir := .known .input }, rfl, rfl⟩,
    ⟨powerOn, rfl, by decide, by decide, by decide, rfl⟩, ⟨⟨[.barred .init], []⟩, idle, idle_idle, rfl⟩,
    ⟨⟨[.writeByte (.result 0)], []⟩, idle, idle_idle, rfl, rfl⟩⟩

/-- The calls refused inside a body: each after the bytes written, and each after the bytes read. -/
theorem witness_TransactionRefusals_inside :
    (∀ c ∈ [BodyCall.readByte, .setDataDirection .output, .encodeBcd (.lit 100)],
      let b : Body := ⟨([0x81#8].map fun v => .writeByte (.lit v)) ++ c :: [], []⟩
      b.barred = false ∧ b.bound = true ∧ idle.Idle ∧ NoFailure idle (2 + 48 * 1)) ∧
    (∀ c ∈ [BodyCall.writeByte (.lit 0), .setDataDirection .output, .encodeBcd (.lit 100), .encodeBcd (.result 2)],
      let b : Body := ⟨([0x81#8].map fun v => .writeByte (.lit v)) ++ [.setDataDirection .input] ++
        List.replicate 1 .readByte ++ c :: [], []⟩
      b.barred = false ∧ b.bound = true ∧ (idleReading 100).Idle ∧ NoFailure (idleReading 100) (3 + 48 * 1 + 40 * 1)) ∧
    99 < (sampledByte (idleReading 100) (3 + 48 * 1 + 40 * 0)).toNat := by
  have hq : NoFailure (idleReading 100) (3 + 48 * 1 + 40 * 1) :=
    noFailure_of_calm (by decide +kernel) (by decide +kernel)
  refine ⟨fun c hc => ⟨?_, ?_, idle_idle, idle_quiet _ (by omega)⟩, fun c hc => ⟨?_, ?_, ⟨rfl, rfl, rfl, rfl⟩, hq⟩,
    by decide +kernel⟩ <;> (revert c; decide)

theorem witness_ErrorsByOperation :
    (∃ s t : State, exec .readSeconds s = .next t ∧ t.outcome = some (.err (.invalidBcdDigit 0x7F))) ∧
    (∃ s t : State, exec .readSeconds s = .next t ∧ t.outcome = some (.err (.pinFault (.fail .get)))) ∧
    (∃ s t : State, exec (.transaction ⟨[.decodeBcd (.lit 0x0A)], []⟩) s = .next t ∧
      t.outcome = some (.err (.invalidBcdDigit 0x0A))) := by
  obtain ⟨t, ht, h⟩ := next_of (o := exec .readSeconds (idleReading 0x7F))
    (fun t => decide (t.outcome = some (.err (.invalidBcdDigit 0x7F)))) (by decide +kernel)
  obtain ⟨u, hu, h'⟩ := next_of (o := exec .readSeconds (idleFailing 51))
    (fun t => decide (t.outcome = some (.err (.pinFault (.fail .get))))) (by decide +kernel)
  obtain ⟨v, hv, h''⟩ := next_of (o := exec (.transaction ⟨[.decodeBcd (.lit 0x0A)], []⟩) idle)
    (fun t => decide (t.outcome = some (.err (.invalidBcdDigit 0x0A)))) (by decide +kernel)
  exact ⟨⟨_, t, ht, of_decide_eq_true h⟩, ⟨_, u, hu, of_decide_eq_true h'⟩, ⟨_, v, hv, of_decide_eq_true h''⟩⟩

theorem witness_UnknownCeNeedsInit : (∃ s : State, s.ce = .unknown ∧ s.txn = false ∧ s.clk = .known .low) ∧
    (99#8).toNat ≤ 99 := ⟨⟨{ idle with ce := .unknown }, rfl, rfl, rfl⟩, by decide⟩

/-! ### Frames, order, timing and the device -/

/-- A next state of each kind of operation the frames speak of, not refused, and one of a refused call. -/
theorem witness_Frames :
    (∃ s t : State, exec (.setDataDirection .input) s = .next t ∧ t.outcome = some (.ok .unit)) ∧
    (∃ s t : State, exec (.writeByte 0xA5) s = .next t ∧ t.outcome = some (.ok .unit)) ∧
    (∃ s t : State, exec .readByte s = .next t ∧ t.refused = false) ∧
    (∃ s t : State, exec (.writeMinutes 45) s = .next t ∧ t.outcome = some (.ok .unit)) ∧
    (∃ s t : State, exec (.writeByte 0xA5) s = .next t ∧ t.outcome = some (.refused .outsideTransaction)) := by
  have ended {i : Instr} {s : State} {r : Result}
      (h : (nextOf (exec i s)).any (fun t => decide (t.outcome = some r)) = true) :
      ∃ s t : State, exec i s = .next t ∧ t.outcome = some r := by
    obtain ⟨t, ht, h⟩ := next_of _ h
    exact ⟨s, t, ht, of_decide_eq_true h⟩
  obtain ⟨t, ht, h⟩ := next_of (o := exec .readByte (inside .input)) (fun t => !t.refused) (by decide +kernel)
  exact ⟨ended (s := idle) (by decide +kernel), ended (s := inside .output) (by decide +kernel),
    ⟨_, t, ht, by simpa using h⟩, ended (s := idle) (by decide +kernel), ended (s := idle) (by decide +kernel)⟩

theorem witness_EventCounts : ∃ s t : State, ∃ es, NoFailure s 101 ∧ exec .readHours s = .next t ∧
    t.trace = s.trace ++ es ∧ t.outcome = some (.ok (.hours 0 none)) := by
  obtain ⟨t, ht, h⟩ := next_of (o := exec .readHours idle) (fun t => decide (t.outcome = some (.ok (.hours 0 none))))
    (by decide +kernel)
  exact ⟨idle, t, t.trace, idle_quiet _ (by omega), ht, rfl, of_decide_eq_true h⟩

theorem witness_AccessesKeepTimingContract : ∃ s t : State, ∃ es, TimingConsistent s.params.timing ∧
    Settled s.params.timing Elapsed.fresh ∧ NoFailure s 101 ∧ exec (.readRegister 31) s = .next t ∧
    t.trace = s.trace ++ es := by
  obtain ⟨t, ht, -⟩ := next_of (o := exec (.readRegister 31) idle) (fun _ => true) (by decide +kernel)
  exact ⟨idle, t, t.trace, by decide, by decide, idle_quiet _ (by omega), ht, rfl⟩

/-- A responder with this byte in every register, on the lines of the idle state. -/
def responder (v : Byte) : Responder := ⟨Vector.replicate 32 v, .idle, idle.lines⟩

theorem witness_WriteReachesResponder : ∃ s t : State, ∃ es, ∃ d : Responder, s.Idle ∧ NoFailure s 101 ∧
    d.phase = .idle ∧ d.lines = s.lines ∧ exec (.writeRegister (31#5).toNat 0x45) s = .next t ∧ t.trace = s.trace ++ es := by
  obtain ⟨t, ht, -⟩ := next_of (o := exec (.writeRegister (31#5).toNat 0x45) idle) (fun _ => true) (by decide +kernel)
  exact ⟨idle, t, t.trace, responder 0, idle_idle, idle_quiet _ (by omega), rfl, rfl, ht, rfl⟩

theorem witness_ReadReturnsResponderRegister : ∃ s t : State, ∃ es, ∃ d : Responder, s.Idle ∧ NoFailure s 95 ∧
    d.phase = .idle ∧ d.lines = s.lines ∧ exec (.readRegister (31#5).toNat) s = .next t ∧ t.trace = s.trace ++ es ∧
    d.explains es = true := by
  obtain ⟨t, ht, h⟩ := next_of (o := exec (.readRegister (31#5).toNat) (idleReading 0x29))
    (fun t => (responder 0x29).explains t.trace) (by decide +kernel)
  exact ⟨idleReading 0x29, t, t.trace, responder 0x29, ⟨rfl, rfl, rfl, rfl⟩,
    noFailure_of_calm (by decide +kernel) (by decide +kernel), rfl, rfl, ht, rfl, h⟩

/-- A command byte with bit 7 = 0, and one with bit 6 = 1; a body that writes on, and one that turns the line and reads. -/
theorem witness_ResponderIgnoresOtherCommands : ((0x01#8).getLsbD 7 = false ∧ (0xC0#8).getLsbD 6 = true) ∧
    (responder 0).phase = .idle ∧ (responder 0).lines = idle.lines ∧ idle.Idle ∧
    (∃ t : State, exec (.transaction ⟨[.writeByte (.lit 0xC0), .writeByte (.lit 0x45), .writeByte (.lit 0)], []⟩) idle =
      .next t ∧ t.refused = false) ∧
    (∃ t : State, exec (.transaction ⟨[.writeByte (.lit 0x01), .setDataDirection .input, .readByte], [.result 2]⟩) idle =
      .next t ∧ t.refused = false) := by
  have ran {b : Body} (h : (nextOf (exec (.transaction b) idle)).any (fun t => !t.refused) = true) :
      ∃ t : State, exec (.transaction b) idle = .next t ∧ t.refused = false := by
    obtain ⟨t, ht, h⟩ := next_of _ h
    exact ⟨t, ht, by simpa using h⟩
  exact ⟨by decide, rfl, rfl, idle_idle, ran (by decide +kernel), ran (by decide +kernel)⟩

/-- The answers to a write of a register and then a read that samples this byte. -/
def idleWritingThenReading (v : Byte) : State :=
  idleWith (List.replicate 152 calm ++ sampleDraws (bitsOf v) ++ List.replicate 20 calm)

theorem idleWith_lines (l : List Draw) : (idleWith l).lines = idle.lines ∧ (idleWith l).trace = [] := ⟨rfl, rfl⟩

/-- A write and then a read, the samples the responder's: the hypotheses of the round trip. -/
theorem roundTrip_witness (w r : Instr) (v : Byte)
    (hl : 196 ≤ (idleWritingThenReading v).draws.length)
    (hq : ((idleWritingThenReading v).draws.take 196).all (fun d => !d.fails) = true)
    (h : (nextOf (exec w (idleWritingThenReading v))).any (fun t => (nextOf (exec r t)).any fun u =>
      decide (u.trace.take t.trace.length = t.trace) && (responder 0).explains u.trace) = true) :
    ∃ s t u : State, ∃ es fs, s.Idle ∧ NoFailure s 196 ∧ (responder 0).phase = .idle ∧ (responder 0).lines = s.lines ∧
      exec w s = .next t ∧ t.trace = s.trace ++ es ∧ exec r t = .next u ∧ u.trace = t.trace ++ fs ∧
      (responder 0).explains (es ++ fs) = true := by
  obtain ⟨t, ht, h1⟩ := next_of (o := exec w (idleWritingThenReading v)) _ h
  obtain ⟨u, hu, h2⟩ := next_of (o := exec r t) _ h1
  simp only [Bool.and_eq_true, decide_eq_true_eq] at h2
  have hx := trace_drop (s := t) (t := u) h2.1
  refine ⟨idleWritingThenReading v, t, u, t.trace, u.trace.drop t.trace.length, ⟨rfl, rfl, rfl, rfl⟩,
    noFailure_of_calm hl hq, rfl, (idleWith_lines _).1.symm, ht, ?_, hu, hx, ?_⟩
  · rw [idleWritingThenReading, (idleWith_lines _).2, List.nil_append]
  rw [← hx]
  exact h2.2

theorem witness_TimeRoundTripUnderResponder : (Instr.writeHours 12 (.h12 true)).wf = true ∧
    ∃ s t u : State, ∃ es fs, s.Idle ∧ NoFailure s 196 ∧ (responder 0).phase = .idle ∧ (responder 0).lines = s.lines ∧
      exec (.writeHours 12 (.h12 true)) s = .next t ∧ t.trace = s.trace ++ es ∧ exec .readHours t = .next u ∧
      u.trace = t.trace ++ fs ∧ (responder 0).explains (es ++ fs) = true :=
  ⟨by decide, roundTrip_witness (.writeHours 12 (.h12 true)) .readHours 0xB2 (by decide +kernel) (by decide +kernel)
    (by decide +kernel)⟩

theorem witness_CePinByActiveLevel : (∃ s : State, s.ce = .known .asserted) ∧ (∃ s : State, s.ce = .known .deasserted) ∧
    ∃ s : State, s.ce = .unknown := ⟨⟨inside .input, rfl⟩, ⟨idle, rfl⟩, ⟨powerOn, rfl⟩⟩

end Sys2Proof.Tests
end

section
/-! PROOFS. The primitive calls (10_state.md R26, R28): the two ends of a call, told apart by whether it fails. -/

namespace Sys2Proof.Machine

/-! ### The two ends of a primitive call -/

theorem perform_of_primFails {p : Prim} {s : State} (h : primFails p s = true) :
    perform p s = .fault (.fail p) (s.after [.fail p]) := by
  rw [perform_eq, if_pos h]

theorem perform_of_not_primFails {p : Prim} {s : State} (h : primFails p s = false) :
    perform p s = .ok (s.drawAt 0).bit (s.after [successEvent (s.drawAt 0).bit p]) := by
  rw [perform_eq, h, if_neg Bool.false_ne_true]

/-- One event leaves of the lines what that event alone makes of them. -/
theorem State.after_singleton_lines (s : State) (e : Event) : (s.after [e]).lines = s.lines.next e := rfl

/-! ### The statements -/

/-- Settles O12: the call fails or it does not, and each end is the state after its one event. -/
theorem primitiveAppendsOneEvent : Obligations.PrimitiveAppendsOneEvent := by
  intro p s
  cases hf : primFails p s with
  | true => exact .inr ⟨_, perform_of_primFails hf, State.after_trace s _⟩
  | false =>
    refine .inl ⟨_, _, perform_of_not_primFails hf, ?_⟩
    rw [State.after_trace]
    cases p <;> rfl

/-- Settles O13: the statement's condition is `primFails`, and the lines after either end are those its event makes
(`Lines.next`), one case for each primitive. -/
theorem primitiveFailure : Obligations.PrimitiveFailure := by
  intro p s fails
  have hfails : primFails p s = fails := by cases p <;> rfl
  refine ⟨fun h => ?_, fun h => ?_⟩
  · refine ⟨_, perform_of_primFails (hfails.trans h), State.after_trace s _, ?_, State.after_txn s _⟩
    rw [State.after_singleton_lines]
    cases p <;> rfl
  · refine ⟨_, perform_of_not_primFails (hfails.trans h), ?_, State.after_txn s _⟩
    rw [State.after_singleton_lines]
    cases p <;> rfl

end Sys2Proof.Machine
end

section
/-! PROOFS. The value of the command byte the engine builds (30_encoding.md R72). -/

namespace Sys2Proof

theorem accessBit_toNat_lt (d : Access) : (accessBit d).toNat < 2 ^ 1 := by cases d <;> decide

/-- The fixed bit 7, the address and the direction bit share no bit, so that `|` adds them. -/
theorem cmdByte_toNat {a : Nat} (ha : a ≤ 31) (d : Access) :
    (cmdByte a d).toNat = 0x80 + 2 * a + (accessBit d).toNat := by
  have haddr : (BitVec.ofNat 8 a <<< 1).toNat = 2 * a := by
    rw [BitVec.toNat_shiftLeft, BitVec.toNat_ofNat, Nat.shiftLeft_eq]
    omega
  have hbase : 0x80 ||| 2 * a = 2 ^ 1 * (0x40 + a) :=
    (Nat.two_pow_add_eq_or_of_lt (i := 7) (by omega) 1).symm.trans (by omega)
  calc (cmdByte a d).toNat
      = 0x80 ||| 2 * a ||| (accessBit d).toNat := by
        rw [cmdByte, BitVec.toNat_or, BitVec.toNat_or, haddr, BitVec.toNat_ofNat]
    _ = 2 ^ 1 * (0x40 + a) + (accessBit d).toNat := by
        rw [hbase, Nat.two_pow_add_eq_or_of_lt (accessBit_toNat_lt d)]
    _ = 0x80 + 2 * a + (accessBit d).toNat := by omega

/-- Settles O10: the sum of the three parts, at each direction and at the ends of the address range. -/
theorem commandByteAssembly : Obligations.CommandByteAssembly := by
  intro a ha
  refine ⟨cmdByte_toNat ha .write, cmdByte_toNat ha .read, fun d => ?_⟩
  have hval := cmdByte_toNat ha d
  have hdir := accessBit_toNat_lt d
  omega

end Sys2Proof
end

section
/-! PROOFS. The transport operations `init` and `set_data_direction` (40_transport.md R100, R103): what checks make of an
operation, a sequence of which every call is attempted, and the ends of the two operations. -/

namespace Sys2Proof.Machine

/-! ### Checks -/

theorem guarded_refused {α : Type} {cs : List (Bool × Reason)} {r : Reason} (h : firstRefusal cs = some r)
    (c : Called α) : guarded cs c = .refused r := by
  rw [guarded, h]

theorem guarded_admitted {α : Type} {cs : List (Bool × Reason)} (h : firstRefusal cs = none) (c : Called α) :
    guarded cs c = c := by
  rw [guarded, h]

theorem isUnknown_iff {α : Type} (l : Line α) : isUnknown l = true ↔ l = .unknown := by
  cases l <;> simp [isUnknown]

/-! ### Sequences every call of which is made -/

/-- Where no call is skipped, each call has its event, in order, whatever failed before it. -/
theorem attemptAll_always (ps : List Prim) (s : State) :
    ∃ es, es.map Event.prim = ps ∧ attemptAll (fun _ _ => true) ps s = (es.find? Event.isFail, s.after es) := by
  induction ps generalizing s with
  | nil => exact ⟨[], rfl, by simp [attemptAll]⟩
  | cons p ps ih =>
    cases hf : primFails p s with
    | true =>
      obtain ⟨es, hp, he⟩ := ih (s.after [.fail p])
      exact ⟨.fail p :: es, by simp [hp], by simp [attemptAll, perform_of_primFails hf, he, List.find?_cons]⟩
    | false =>
      obtain ⟨es, hp, he⟩ := ih (s.after [successEvent (s.drawAt 0).bit p])
      exact ⟨successEvent (s.drawAt 0).bit p :: es, by simp [hp], by simp [attemptAll, perform_of_not_primFails hf, he]⟩

/-- The same for calls that take no sample and do not fail. -/
theorem attemptAll_always_quiet (es : List Event) (s : State) (hn : NoFailure s es.length)
    (he : ∀ e ∈ es, e.isFail = false ∧ e.isGet = false) :
    attemptAll (fun _ _ => true) (es.map Event.prim) s = (none, s.after es) := by
  induction es generalizing s with
  | nil => simp [attemptAll]
  | cons e es ih =>
    obtain ⟨hfail, hget⟩ := he e List.mem_cons_self
    rw [List.map_cons, attemptAll_quiet _ e _ s es.length hn hfail hget rfl,
      ih _ (hn.after [e] (by simp [Nat.add_comm])) fun e' he' => he e' (List.mem_cons_of_mem e he')]
    simp

/-- The trace tells which events led to a state. -/
theorem State.after_injective (s : State) : Function.Injective s.after := by
  intro es fs h
  have htrace : s.trace ++ es = s.trace ++ fs := congrArg State.trace h
  exact List.append_cancel_left htrace

/-! ### `init` -/

/-- The events of an `init` none of whose calls fails (R100). -/
def initEvents : List Event := [.setCe .deasserted, .setClk .low, .dir .output, .wait .tCWH]

theorem exec_init (s : State) : exec .init s = finish unitValue s (initLines s) := rfl

theorem initRefusals_admit {s : State} (hx : s.txn = false) : firstRefusal (initRefusals s) = none := by
  simp [initRefusals, firstRefusal, hx]

/-- Settles O14: the check refuses, or every one of the four calls has its event; where none of them fails, the state they
lead to is also that of `initEvents`, so the events are those. -/
theorem initAttemptsEveryLine : Obligations.InitAttemptsEveryLine := by
  intro s
  refine ⟨fun hx => ?_, fun hx => ?_⟩
  · have hfirst : firstRefusal (initRefusals s) = some .initInTransaction := by simp [initRefusals, firstRefusal, hx]
    rw [exec_init, initLines, guarded_refused hfirst]
    rfl
  · obtain ⟨es, hprims, hes⟩ := attemptAll_always [.setCe .deasserted, .setClk .low, .dir .output, .wait .tCWH] s
    refine ⟨es, hprims, ?_, fun hn => ?_⟩
    · rw [exec_init, initLines, guarded_admitted (initRefusals_admit hx), hes]
      cases es.find? Event.isFail <;> rfl
    · have hquiet := attemptAll_always_quiet initEvents s hn (by decide)
      exact s.after_injective (congrArg Prod.snd (hes.symm.trans hquiet))

/-! ### `set_data_direction` -/

theorem exec_setDataDirection (d : Direction) (s : State) :
    exec (.setDataDirection d) s = finish unitValue s (setDirection d s) := rfl

theorem exec_setDataDirection_refused {d : Direction} {s : State} {r : Reason}
    (h : firstRefusal (directionRefusals d s) = some r) : exec (.setDataDirection d) s = .next (s.refuse r) := by
  rw [exec_setDataDirection, setDirection, guarded_refused h]
  rfl

theorem directionRefusals_admit {d : Direction} {s : State} (hc : s.clk = .known .low) (he : s.ce ≠ .unknown)
    (hx : ¬ (s.txn = true ∧ d = .output)) : firstRefusal (directionRefusals d s) = none := by
  simp [directionRefusals, firstRefusal, isUnknown_iff, hc, he, hx]

/-- `set_data_direction` past its checks, where its call fails. -/
theorem setDirection_fails {d : Direction} {s : State} (hc : s.clk = .known .low) (he : s.ce ≠ .unknown)
    (hx : ¬ (s.txn = true ∧ d = .output)) (hf : primFails (.dir d) s = true) :
    setDirection d s = .err (.pinFault (.fail (.dir d))) (s.after [.fail (.dir d)]) := by
  rw [setDirection, guarded_admitted (directionRefusals_admit hc he hx), performAll, perform_of_primFails hf]
  rfl

/-- Settles O15: the first check that holds refuses the call; past the checks there is one call, and the lines are those its
event makes. -/
theorem setDataDirectionCompletes : Obligations.SetDataDirectionCompletes := by
  intro d s
  refine ⟨fun hc => ?_, fun hc hu => ?_, fun hc he hx hd => ?_, fun hc he hx => ⟨fun hn => ?_, fun ⟨hcan, hdraw⟩ => ?_⟩⟩
  · exact exec_setDataDirection_refused (by simp [directionRefusals, firstRefusal, hc])
  · exact exec_setDataDirection_refused (by simp [directionRefusals, firstRefusal, isUnknown_iff, hc, hu])
  · exact exec_setDataDirection_refused (by simp [directionRefusals, firstRefusal, isUnknown_iff, hc, he, hx, hd])
  · rw [exec_setDataDirection, setDirection_quiet d s hc he hx hn]
    rfl
  · have hfails : primFails (.dir d) s = true := by simp [primFails, hcan, hdraw]
    rw [exec_setDataDirection, setDirection_fails hc he hx hfails]
    rfl

end Sys2Proof.Machine
end

section
/-! PROOFS. The BCD operations (41_register_engine.md R133, R134): the two digits of a byte as numbers, the byte of two
digits, and the ends of `decode_bcd` and `encode_bcd`. -/

namespace Sys2Proof.Machine

/-! ### Digits -/

theorem tens_eq_div (raw : Byte) : tens raw = raw.toNat / 16 := by
  rw [tens, BitVec.extractLsb'_toNat, Nat.shiftRight_eq_div_pow]
  omega

theorem units_eq_mod (raw : Byte) : units raw = raw.toNat % 16 := by
  rw [units, BitVec.extractLsb'_toNat, Nat.shiftRight_zero]

theorem decodeDigits_of_digit_gt {raw : Byte} (h : raw.toNat / 16 > 9 ∨ raw.toNat % 16 > 9) :
    decodeDigits raw = none := by
  rw [decodeDigits, tens_eq_div, units_eq_mod, if_pos h]

theorem decodeDigits_of_digits_le {raw : Byte} (htens : raw.toNat / 16 ≤ 9) (hunits : raw.toNat % 16 ≤ 9) :
    decodeDigits raw = some (BitVec.ofNat 8 (10 * (raw.toNat / 16) + raw.toNat % 16)) := by
  rw [decodeDigits, tens_eq_div, units_eq_mod, if_neg (by omega)]

/-- The units digit stands below the shifted tens digit, so that `|` adds them. -/
theorem encodeDigits_eq_ofNat (v : Byte) : encodeDigits v = BitVec.ofNat 8 (16 * (v.toNat / 10) + v.toNat % 10) := by
  have hunits : v.toNat % 10 < 2 ^ 4 := by omega
  have hshift : BitVec.ofNat 8 (v.toNat / 10) <<< 4 = BitVec.ofNat 8 (2 ^ 4 * (v.toNat / 10)) := by
    apply BitVec.eq_of_toNat_eq
    rw [BitVec.toNat_shiftLeft, BitVec.toNat_ofNat, BitVec.toNat_ofNat, Nat.shiftLeft_eq]
    omega
  rw [encodeDigits, hshift, ← BitVec.ofNat_or, ← Nat.two_pow_add_eq_or_of_lt hunits]

/-! ### `decode_bcd` -/

theorem exec_decodeBcd (raw : Byte) (s : State) : exec (.decodeBcd raw) s = finish .byte s (decodeField raw raw s) := rfl

theorem decodeField_of_none {field : Byte} (h : decodeDigits field = none) (recorded : Byte) (s : State) :
    decodeField recorded field s = .err (.invalidBcdDigit recorded) s := by
  rw [decodeField, h]

theorem decodeField_of_some {field v : Byte} (h : decodeDigits field = some v) (recorded : Byte) (s : State) :
    decodeField recorded field s = .ok v s := by
  rw [decodeField, h]

/-- Settles O27: the digits are those of the byte, and each end leaves the state it was called in but for the outcome. -/
theorem decodeBcdResult : Obligations.DecodeBcdResult := by
  intro raw s hi lo
  refine ⟨fun hdigit => ?_, fun htens hunits => ?_⟩
  · rw [exec_decodeBcd, decodeField_of_none (decodeDigits_of_digit_gt hdigit)]
    rfl
  · rw [exec_decodeBcd, decodeField_of_some (decodeDigits_of_digits_le htens hunits)]
    rfl

/-! ### `encode_bcd` -/

theorem exec_encodeBcd (v : Byte) (s : State) : exec (.encodeBcd v) s = finish .byte s (encodeField v s) := rfl

theorem encodeField_of_le {v : Byte} (h : v.toNat ≤ 99) (s : State) : encodeField v s = .ok (encodeDigits v) s :=
  guarded_admitted (by simp [firstRefusal, h]) _

theorem encodeField_of_gt {v : Byte} (h : 99 < v.toNat) (s : State) : encodeField v s = .refused .bcdRange :=
  guarded_refused (by simp [firstRefusal, h]) _

/-- Settles O28: past the check the outcome is the byte of the two digits; the check refuses every other value. -/
theorem encodeBcdResult : Obligations.EncodeBcdResult := by
  intro v s
  refine ⟨fun hle => ?_, fun hgt => ?_⟩
  · rw [exec_encodeBcd, encodeField_of_le hle, encodeDigits_eq_ofNat]
    rfl
  · rw [exec_encodeBcd, encodeField_of_gt hgt]
    rfl

end Sys2Proof.Machine
end

section
/-! PROOFS. The time field operations (42_time_fields.md R150 to R155) as register accesses: the data byte of a time write and
the digits of a raw time field as numbers, and what either makes of the register access, whatever that access does. -/

namespace Sys2Proof.Machine

/-! ### The data byte of a time write -/

/-- Flag bits and a number below them share no bit, so that `|` adds them. -/
theorem ofNat_or_ofNat_of_lt {i n : Nat} (h : n < 2 ^ i) (flags : Nat) :
    (BitVec.ofNat 8 (2 ^ i * flags) ||| BitVec.ofNat 8 n : Byte) = BitVec.ofNat 8 (2 ^ i * flags + n) := by
  rw [← BitVec.ofNat_or, ← Nat.two_pow_add_eq_or_of_lt h]

/-- The tens digit of a value below 80 leaves bit 7 free for the clock-halt bit. -/
theorem secondsData_eq_ofNat {v : Byte} (hv : v.toNat ≤ 59) (ch : Bool) :
    secondsData v ch = BitVec.ofNat 8 ((if ch then 128 else 0) + 16 * (v.toNat / 10) + v.toNat % 10) := by
  have hlow : 16 * (v.toNat / 10) + v.toNat % 10 < 2 ^ 7 := by omega
  rw [secondsData, encodeDigits_eq_ofNat, Nat.add_assoc]
  cases ch with
  | false => exact ofNat_or_ofNat_of_lt hlow 0
  | true => exact ofNat_or_ofNat_of_lt hlow 1

/-- The tens digit of a value below 20 leaves bits 7 and 5 free for the mode and the PM flag. -/
theorem hoursData_h12_eq_ofNat {h : Byte} (hh : h.toNat ≤ 12) (pm : Bool) :
    hoursData h (.h12 pm) =
      BitVec.ofNat 8 (128 + (if pm then 32 else 0) + 16 * (h.toNat / 10) + h.toNat % 10) := by
  have hlow : 16 * (h.toNat / 10) + h.toNat % 10 < 2 ^ 5 := by omega
  rw [hoursData, encodeDigits_eq_ofNat, Nat.add_assoc]
  cases pm with
  | false => exact ofNat_or_ofNat_of_lt hlow 4
  | true => exact ofNat_or_ofNat_of_lt hlow 5

/-! ### A time write as a register write -/

/-- A time write whose range check is `p` and whose data byte on that range is `data'`. -/
theorem finish_writeField {p : Prop} [Decidable p] {data data' : Byte} (hdata : p → data = data') (a : Nat) (s : State) :
    finish unitValue s (writeField a (decide p) data s) =
      if p then exec (.writeRegister a data') s else .next (s.refuse .fieldRange) := by
  split
  next hp =>
    rw [writeField, guarded_admitted (by simp [fieldRefusals, firstRefusal, hp]), hdata hp]
    rfl
  next hp =>
    rw [writeField, guarded_refused (r := .fieldRange) (by simp [fieldRefusals, firstRefusal, hp])]
    rfl

/-- Settles O36: each operation is a time write with the data byte of its digits. -/
theorem timeWritesAreRegisterWrites : Obligations.TimeWritesAreRegisterWrites := by
  refine ⟨fun v ch s => ?seconds, fun v s => ?minutes, fun h s => ?hours24, fun h pm s => ?hours12⟩
  case seconds => exact finish_writeField (fun hv => secondsData_eq_ofNat hv ch) 0 s
  case minutes => exact finish_writeField (fun _ => encodeDigits_eq_ofNat v) 1 s
  case hours24 => exact finish_writeField (fun _ => encodeDigits_eq_ofNat h) 2 s
  case hours12 => exact finish_writeField (fun hh => hoursData_h12_eq_ofNat hh.2 pm) 2 s

/-! ### The decode of a raw time field -/

/-- A mask of all units bits and the lowest `k` tens bits keeps the units digit, and of the tens digit those bits. -/
theorem digits_and_mask {mask : Byte} {k : Nat} (hmask : mask.toNat = 2 ^ (4 + k) - 1) (raw : Byte) :
    (raw &&& mask).toNat / 16 = raw.toNat / 16 % 2 ^ k ∧ (raw &&& mask).toNat % 16 = raw.toNat % 16 := by
  have hand : (raw &&& mask).toNat = raw.toNat % (16 * 2 ^ k) := by
    rw [BitVec.toNat_and, hmask, Nat.and_two_pow_sub_one_eq_mod, Nat.pow_add]
  exact ⟨hand ▸ Nat.mod_mul_right_div_self .., hand ▸ Nat.mod_mul_right_mod ..⟩

theorem finish_decodeField (value : Byte → Value) (recorded field : Byte) (s : State) :
    finish value s (decodeField recorded field s) = .next (s.setOutcome
      (if field.toNat / 16 > 9 ∨ field.toNat % 16 > 9 then .err (.invalidBcdDigit recorded)
       else .ok (value (BitVec.ofNat 8 (10 * (field.toNat / 16) + field.toNat % 16))))) := by
  split
  next hdigit =>
    rw [decodeField_of_none (decodeDigits_of_digit_gt hdigit)]
    rfl
  next hdigits =>
    rw [decodeField_of_some (decodeDigits_of_digits_le (by omega) (by omega))]
    rfl

/-- A tens digit of at most three bits is never above 9, so that the units digit alone decides. -/
theorem finish_decodeField_masked {mask : Byte} {k : Nat} (hmask : mask.toNat = 2 ^ (4 + k) - 1) (hk : k ≤ 3)
    (value : Byte → Value) (raw : Byte) (s : State) :
    finish value s (decodeField raw (raw &&& mask) s) = .next (s.setOutcome
      (if raw.toNat % 16 > 9 then .err (.invalidBcdDigit raw)
       else .ok (value (BitVec.ofNat 8 (10 * (raw.toNat / 16 % 2 ^ k) + raw.toNat % 16))))) := by
  obtain ⟨htens, hunits⟩ := digits_and_mask hmask raw
  have hlt : raw.toNat / 16 % 2 ^ k < 2 ^ k := Nat.mod_lt _ (Nat.two_pow_pos k)
  have hle : 2 ^ k ≤ 2 ^ 3 := Nat.pow_le_pow_right (by omega) hk
  have htens_le : ¬ raw.toNat / 16 % 2 ^ k > 9 := by omega
  simp only [finish_decodeField, htens, hunits, htens_le, false_or]

/-! ### A time read as a decoded register read -/

/-- The end of a time read, by that of its `read_register`: a byte is decoded, and every other end passes through. -/
def decodedRead (decoded : Byte → Result) :
    Host.Outcome State Fault Refusal → Host.Outcome State Fault Refusal
  | .next t => match t.outcome with
    | some (.ok (.byte raw)) => .next (t.setOutcome (decoded raw))
    | _ => .next t
  | .fault r => .fault r
  | .refused r => .refused r

/-- A time read whose decode of the raw byte gives the result `decoded`. -/
theorem finish_readField {field : Byte → Byte} {value : Byte → Byte → Value} {decoded : Byte → Result}
    (hdecoded : ∀ raw t, finish (value raw) t (decodeField raw (field raw) t) = .next (t.setOutcome (decoded raw)))
    (a : Nat) (s : State) :
    finish id s (readField a field value s) = decodedRead decoded (exec (.readRegister a) s) := by
  have hexec : exec (.readRegister a) s = finish .byte s (readRegister a s) := rfl
  rw [hexec, readField]
  cases readRegister a s with
  | ok raw t =>
    refine Eq.trans ?_ (hdecoded raw t)
    simp only [Called.andThen, decodeField]
    cases decodeDigits (field raw) <;> rfl
  | err e t => rfl
  | refused r => rfl
  | stopped r => rfl

/-- Settles O37: each operation is a time read, and the digits of its masked field are those of the raw byte; in a raw hours
byte bit 7 says which field is decoded. -/
theorem timeReadsAreDecodedRegisterReads : Obligations.TimeReadsAreDecodedRegisterReads := by
  refine fun s => ⟨finish_readField (fun raw t => ?seconds) 0 s, finish_readField (fun raw t => ?minutes) 1 s,
    finish_readField (fun raw t => ?hours) 2 s⟩
  case seconds => exact finish_decodeField_masked (k := 3) rfl (by omega) _ raw t
  case minutes => exact finish_decodeField _ raw raw t
  case hours =>
    cases hmode : raw.getLsbD 7 with
    | true =>
      simp only [hoursField, hoursPm, twelveHour, hmode, if_true]
      exact finish_decodeField_masked (k := 1) rfl (by omega) _ raw t
    | false =>
      simp only [hoursField, hoursPm, twelveHour, hmode, Bool.false_eq_true, if_false]
      exact finish_decodeField_masked (k := 2) rfl (by omega) _ raw t

end Sys2Proof.Machine
end

section
/-! PROOFS. Refusals (60_exceptions.md R185, R186): a call with a refusal check that holds is refused, whichever check
is reported; and which checks an unknown CE makes hold. -/

namespace Sys2Proof.Machine

/-! ### Calls that are refused, whatever the reason -/

/-- The call is refused, with some reason (R186: claims should not depend on which). -/
def Called.IsRefused {α : Type} (c : Called α) : Prop := ∃ r, c = .refused r

theorem firstRefusal_ne_none_of_mem {cs : List (Bool × Reason)} {r : Reason} (h : (true, r) ∈ cs) :
    firstRefusal cs ≠ none := by
  induction cs with
  | nil => cases h
  | cons c cs ih =>
    obtain ⟨holds, r'⟩ := c
    cases holds with
    | true => simp [firstRefusal]
    | false => exact ih (by simpa using h)

theorem guarded_isRefused_of_mem {α : Type} {cs : List (Bool × Reason)} {r : Reason} (h : (true, r) ∈ cs)
    (c : Called α) : (guarded cs c).IsRefused := by
  obtain ⟨r', hr'⟩ := Option.ne_none_iff_exists'.mp (firstRefusal_ne_none_of_mem h)
  exact ⟨r', guarded_refused hr' c⟩

/-- Checks before a refused call refuse it too, for their own reason or for that of the call. -/
theorem Called.IsRefused.guarded {α : Type} {c : Called α} (h : c.IsRefused) (cs : List (Bool × Reason)) :
    (guarded cs c).IsRefused := by
  cases hfirst : firstRefusal cs with
  | none => rwa [guarded_admitted hfirst]
  | some r => exact ⟨r, guarded_refused hfirst c⟩

theorem Called.IsRefused.andThen {α β : Type} {c : Called α} (h : c.IsRefused) (f : α → State → Called β) :
    (c.andThen f).IsRefused := by
  obtain ⟨r, rfl⟩ := h
  exact ⟨r, rfl⟩

theorem Called.IsRefused.finish {α : Type} {c : Called α} (h : c.IsRefused) (value : α → Value) (s : State) :
    ∃ r, finish value s c = .next (s.refuse r) := by
  obtain ⟨r, rfl⟩ := h
  exact ⟨r, rfl⟩

/-! ### With CE unknown -/

section
variable {s : State} (hce : s.ce = .unknown)
include hce

theorem lineUnknown_mem_of_ce_unknown : (true, .lineUnknown) ∈ transactionRefusals s := by
  simp [transactionRefusals, hce, isUnknown]

theorem setDirection_isRefused_of_ce_unknown (d : Direction) : (setDirection d s).IsRefused :=
  guarded_isRefused_of_mem (r := .lineUnknown) (by simp [directionRefusals, hce, isUnknown]) _

theorem runTransaction_isRefused_of_ce_unknown (b : Body) : (runTransaction b s).IsRefused :=
  guarded_isRefused_of_mem (List.mem_append_left _ (lineUnknown_mem_of_ce_unknown hce)) _

theorem readRegister_isRefused_of_ce_unknown (a : Nat) : (readRegister a s).IsRefused :=
  guarded_isRefused_of_mem (List.mem_append_right _ (lineUnknown_mem_of_ce_unknown hce)) _

theorem writeRegister_isRefused_of_ce_unknown (a : Nat) (v : Byte) : (writeRegister a v s).IsRefused :=
  guarded_isRefused_of_mem (List.mem_append_right _ (lineUnknown_mem_of_ce_unknown hce)) _

theorem readField_isRefused_of_ce_unknown (a : Nat) (field : Byte → Byte) (value : Byte → Byte → Value) :
    (readField a field value s).IsRefused :=
  (readRegister_isRefused_of_ce_unknown hce a).andThen _

theorem writeField_isRefused_of_ce_unknown (a : Nat) (inRange : Bool) (data : Byte) :
    (writeField a inRange data s).IsRefused :=
  (writeRegister_isRefused_of_ce_unknown hce a data).guarded _

end

/-! ### Outside a transaction -/

section
variable {s : State} (htxn : s.txn = false)
include htxn

theorem outsideTransaction_mem_of_not_txn (d : Direction) : (true, .outsideTransaction) ∈ byteRefusals d s := by
  simp [byteRefusals, htxn]

theorem shiftOut_isRefused_of_not_txn (v : Byte) : (shiftOut v s).IsRefused :=
  guarded_isRefused_of_mem (outsideTransaction_mem_of_not_txn htxn .output) _

theorem shiftIn_isRefused_of_not_txn : (shiftIn s).IsRefused :=
  guarded_isRefused_of_mem (outsideTransaction_mem_of_not_txn htxn .input) _

/-- `init` reads no line, so that it runs whatever the lines are (R100). -/
theorem exec_init_runs : ∃ t, exec .init s = .next t ∧ ∀ r, t.outcome ≠ some (.refused r) := by
  obtain ⟨es, -, hexec, -⟩ := (initAttemptsEveryLine s).2 htxn
  refine ⟨_, hexec, fun r => ?_⟩
  cases es.find? Event.isFail <;> simp [afterEvents]

end

theorem exec_decodeBcd_runs (b : Byte) (s : State) :
    ∃ t, exec (.decodeBcd b) s = .next t ∧ ∀ r, t.outcome ≠ some (.refused r) := by
  refine ⟨_, (exec_decodeBcd b s).trans (finish_decodeField .byte b b s), fun r => ?_⟩
  split <;> simp

/-! ### The statement -/

/-- The operations that read a line are all refused with CE unknown at an operation boundary: the byte transfers because
no transaction is open, the others because they read CE. -/
theorem exec_refused_of_ce_unknown {s : State} (hce : s.ce = .unknown) (htxn : s.txn = false) {i : Instr}
    (hinit : i ≠ .init) (hdecode : ∀ b, i ≠ .decodeBcd b) (hencode : ∀ v, i ≠ .encodeBcd v)
    (hignored : ∀ x, i ≠ .ignoredCommand x) (hramWrite : ∀ a, i ≠ .ramWriteCommand a)
    (hramRead : ∀ a, i ≠ .ramReadCommand a) : ∃ r, exec i s = .next (s.refuse r) := by
  cases i with
  | init => exact absurd rfl hinit
  | setDataDirection d => exact (setDirection_isRefused_of_ce_unknown hce d).finish _ s
  | writeByte v => exact (shiftOut_isRefused_of_not_txn htxn v).finish _ s
  | readByte => exact (shiftIn_isRefused_of_not_txn htxn).finish _ s
  | transaction b => exact (runTransaction_isRefused_of_ce_unknown hce b).finish _ s
  | readRegister a => exact (readRegister_isRefused_of_ce_unknown hce a).finish _ s
  | writeRegister a v => exact (writeRegister_isRefused_of_ce_unknown hce a v).finish _ s
  | decodeBcd b => exact absurd rfl (hdecode b)
  | encodeBcd v => exact absurd rfl (hencode v)
  | readSeconds => exact (readField_isRefused_of_ce_unknown hce 0 _ _).finish _ s
  | readMinutes => exact (readField_isRefused_of_ce_unknown hce 1 _ _).finish _ s
  | readHours => exact (readField_isRefused_of_ce_unknown hce 2 _ _).finish _ s
  | writeSeconds v ch => exact (writeField_isRefused_of_ce_unknown hce 0 _ _).finish _ s
  | writeMinutes v => exact (writeField_isRefused_of_ce_unknown hce 1 _ _).finish _ s
  | writeHours h m => exact (writeField_isRefused_of_ce_unknown hce 2 _ _).finish _ s
  | ignoredCommand x => exact absurd rfl (hignored x)
  | ramWriteCommand a => exact absurd rfl (hramWrite a)
  | ramReadCommand a => exact absurd rfl (hramRead a)

/-- Settles O49: `init` and the BCD operations read no line; every other operation is refused, and its refusal opens no
transaction, so that `init` runs next. -/
theorem unknownCeNeedsInit : Obligations.UnknownCeNeedsInit := by
  intro s hce htxn
  refine ⟨exec_init_runs htxn, fun b => exec_decodeBcd_runs b s, fun v hv => ?encode,
    fun i hinit hdecode hencode hignored hramWrite hramRead => ?others⟩
  case encode => exact ⟨_, _, (encodeBcdResult v s).1 hv, rfl⟩
  case others =>
    obtain ⟨r, hr⟩ := exec_refused_of_ce_unknown hce htxn hinit hdecode hencode hignored hramWrite hramRead
    exact ⟨r, hr, exec_init_runs (s := s.refuse r) htxn⟩

end Sys2Proof.Machine
end

section
/-! PROOFS. One step (10_state.md R20, R30): which call it runs, by the pending bytes. -/

namespace Sys2Proof.Machine

theorem State.fetch_of_ne_nil {s : State} (h : s.calls ≠ []) : s.fetch = some (decode s.calls) := by
  cases hcalls : s.calls with
  | nil => exact absurd hcalls h
  | cons b bs => simp only [State.fetch, hcalls]

theorem calls_ne_nil_of_decode {s : State} {i : Instr} {rest : List Byte} (h : decode s.calls = .ok i rest) :
    s.calls ≠ [] := by
  intro hnil
  rw [hnil] at h
  cases h

theorem step_of_nil {s : State} (h : s.calls = []) : step s = .next s := by
  simp only [step, State.fetch, h]

theorem step_of_decode {s : State} {i : Instr} {rest : List Byte} (h : decode s.calls = .ok i rest) :
    step s = exec i (s.setCalls rest) := by
  simp only [step, State.fetch_of_ne_nil (calls_ne_nil_of_decode h), h]

theorem step_of_reject {s : State} {r : Reject} (hne : s.calls ≠ []) (h : decode s.calls = .reject r) :
    step s = .fault (.badCall r) := by
  simp only [step, State.fetch_of_ne_nil hne, h]

/-- A step answers a next state only where no call is pending, or where the pending bytes begin with the record of a call,
which it runs on the state without that record. -/
theorem step_next {s t : State} (h : step s = .next t) :
    (s.calls = [] ∧ t = s) ∨ ∃ i rest, decode s.calls = .ok i rest ∧ exec i (s.setCalls rest) = .next t := by
  by_cases hne : s.calls = []
  · rw [step_of_nil hne] at h
    cases h
    exact .inl ⟨hne, rfl⟩
  · cases hd : decode s.calls with
    | ok i rest => exact .inr ⟨i, rest, rfl, (step_of_decode hd).symm.trans h⟩
    | reject r =>
      rw [step_of_reject hne hd] at h
      cases h

/-- Settles O5: the bytes decode to a call, so they are pending and the step runs it. -/
theorem stepRunsDecodedCall : Obligations.StepRunsDecodedCall := fun _ _ _ h => step_of_decode h

/-- Settles O6: the two ends of a step that runs no call. -/
theorem stepWithoutCall : Obligations.StepWithoutCall :=
  ⟨fun _ h => step_of_nil h, fun _ _ hne h => step_of_reject hne h⟩

/-- Settles O7: the record of the word is what the step decodes, and its bytes replace those pending. -/
theorem placedWordRuns : Obligations.PlacedWordRuns := by
  intro s nbits w i h
  unfold decodeTableWord at h
  cases hd : decode (tableRecord nbits w) with
  | ok j rest =>
    rw [hd] at h
    cases h
    exact ⟨rest, step_of_decode (s := s.withFetchWord nbits w) hd⟩
  | reject r =>
    rw [hd] at h
    cases h

end Sys2Proof.Machine
end

section
/-! PROOFS. Command bytes and their classes (30_encoding.md R71, R82), and the records of calls and bodies read back. -/

namespace Sys2Proof

/-! ### The fields of a command byte -/

theorem and_0x80 (b : Byte) : b &&& 0x80#8 = if b.getLsbD 7 then 0x80#8 else 0x00#8 := by
  revert b
  decide

/-- The fixed bits of the classes: bit 7, the space and the direction. -/
theorem and_0xC1 (b : Byte) : b &&& 0xC1#8 =
    (if b.getLsbD 7 then 0x80#8 else 0x00#8) ||| (if b.getLsbD 6 then 0x40#8 else 0x00#8) |||
      (if b.getLsbD 0 then 0x01#8 else 0x00#8) := by
  revert b
  decide

/-- A byte is the sum of its fields (R71). -/
theorem toNat_eq_fields (b : Byte) : b.toNat = 128 * (b.getLsbD 7).toNat + 64 * (b.getLsbD 6).toNat +
    2 * (b.extractLsb' 1 5).toNat + (b.getLsbD 0).toNat := by
  revert b
  decide

theorem toNat_extract_low (b : Byte) (h : b.getLsbD 7 = false) : (b.extractLsb' 0 7).toNat = b.toNat := by
  revert b
  decide

theorem classify_of_low {b : Byte} (h : b.getLsbD 7 = false) : classify b = .ignored (b.extractLsb' 0 7) := by
  simp only [classify, h, Bool.false_eq_true, if_false]

/-- Settles O11: the class is chosen by bits 7, 6 and 0, which are those that the masks keep. -/
theorem commandClassesByMask : Obligations.CommandClassesByMask := by
  intro b
  have hfields := toNat_eq_fields b
  rw [and_0x80, and_0xC1]
  cases h7 : b.getLsbD 7 with
  | false =>
    rw [classify_of_low h7]
    cases b.getLsbD 6 <;> cases b.getLsbD 0 <;> simp [-BitVec.extractLsb'_toNat, toNat_extract_low b h7]
  | true =>
    cases h6 : b.getLsbD 6 <;> cases h0 : b.getLsbD 0 <;> rw [h7, h6, h0] at hfields <;>
      simp only [classify, h7, h6, h0, if_true, hfields] <;> simp [-BitVec.extractLsb'_toNat] <;> omega

theorem classify_ignored : ∀ x : BitVec 7, classify (x.setWidth 8) = .ignored x := by decide

theorem classify_ram : ∀ a : Address, classify (0xC0#8 ||| (a.setWidth 8 <<< 1)) = .ramWrite a ∧
    classify (0xC1#8 ||| (a.setWidth 8 <<< 1)) = .ramRead a := by decide

/-! ### Operand bytes of a body -/

/-- The two bytes of an argument with a record, read back. -/
theorem argBytes_eq {a : Arg} (h : a.fits = true) : ∃ kind v, argBytes a = [kind, v] ∧ argOf kind v = some a := by
  cases a with
  | lit v => exact ⟨0, v, rfl, rfl⟩
  | result k =>
    have hk : k < 256 := by simpa [Arg.fits] using h
    have hv : (BitVec.ofNat 8 k).toNat = k := by rw [BitVec.toNat_ofNat]; omega
    exact ⟨1, _, rfl, by simp [argOf, hv]⟩

/-- The entry of a body call with a record, read back; its code is none of those of what a body returns. -/
theorem bodyCallBytes_eq {c : BodyCall} (h : c.args.all Arg.fits = true) : ∃ code kind v,
    bodyCallBytes c = [code, kind, v] ∧ bodyCallOf code kind v = some c ∧ ¬ (code = 0 ∨ code = 7) := by
  have one {a : Arg} (h : [a].all Arg.fits = true) : ∃ kind v, argBytes a = [kind, v] ∧ argOf kind v = some a :=
    argBytes_eq (by simpa using h)
  cases c with
  | writeByte a =>
    obtain ⟨kind, v, hbytes, harg⟩ := one h
    exact ⟨1, kind, v, by rw [bodyCallBytes, hbytes], by simp [bodyCallOf, harg], by decide⟩
  | readByte => exact ⟨2, 0, 0, rfl, rfl, by decide⟩
  | setDataDirection d => exact ⟨3, 0, directionByte d, rfl, by simp [bodyCallOf], by decide⟩
  | decodeBcd a =>
    obtain ⟨kind, v, hbytes, harg⟩ := one h
    exact ⟨4, kind, v, by rw [bodyCallBytes, hbytes], by simp [bodyCallOf, harg], by decide⟩
  | encodeBcd a =>
    obtain ⟨kind, v, hbytes, harg⟩ := one h
    exact ⟨5, kind, v, by rw [bodyCallBytes, hbytes], by simp [bodyCallOf, harg], by decide⟩
  | barred op => exact ⟨6, 0, barredOpByte op, rfl, by simp [bodyCallOf], by decide⟩

theorem decodeReturns_returnBytes {as : List Arg} (h : as.all Arg.fits = true) (rest : List Byte) :
    decodeReturns (returnBytes as ++ rest) = some (as, rest) := by
  induction as with
  | nil => rfl
  | cons a as ih =>
    rw [List.all_cons, Bool.and_eq_true] at h
    obtain ⟨ha, has⟩ := h
    obtain ⟨kind, v, hbytes, harg⟩ := argBytes_eq ha
    simp [returnBytes, hbytes, decodeReturns, harg, ih has]

/-- What a body returns begins with an entry whose code is that of a returned argument or of the end. -/
theorem returnBytes_head (as : List Arg) : ∃ code kind v tail,
    returnBytes as = code :: kind :: v :: tail ∧ (code = 0 ∨ code = 7) := by
  cases as with
  | nil => exact ⟨0, 0, 0, [], rfl, .inl rfl⟩
  | cons a as =>
    cases a with
    | lit v => exact ⟨7, 0, v, returnBytes as, rfl, .inr rfl⟩
    | result k => exact ⟨7, 1, BitVec.ofNat 8 k, returnBytes as, rfl, .inr rfl⟩

theorem decodeBody_bodyBytes {cs : List BodyCall} {as : List Arg} (hcs : cs.all (fun c => c.args.all Arg.fits) = true)
    (has : as.all Arg.fits = true) (rest : List Byte) :
    decodeBody (bodyBytes as cs ++ rest) = some (⟨cs, as⟩, rest) := by
  induction cs with
  | nil =>
    have hreturns := decodeReturns_returnBytes has rest
    obtain ⟨code, kind, v, tail, hbytes, hcode⟩ := returnBytes_head as
    rw [hbytes] at hreturns
    rw [bodyBytes, hbytes, List.cons_append, List.cons_append, List.cons_append, decodeBody, if_pos hcode]
    simp only [List.cons_append] at hreturns
    rw [hreturns]
  | cons c cs ih =>
    rw [List.all_cons, Bool.and_eq_true] at hcs
    obtain ⟨hc, hcs⟩ := hcs
    obtain ⟨code, kind, v, hbytes, hcall, hcode⟩ := bodyCallBytes_eq hc
    rw [bodyBytes, hbytes, List.append_assoc, List.cons_append, List.cons_append, List.cons_append, List.nil_append,
      decodeBody, if_neg hcode, hcall, ih hcs]

/-! ### Call records -/

theorem decode_transaction {b : Body} (h : b.fits = true) (rest : List Byte) :
    decode (encode (.transaction b) ++ rest) = .ok (.transaction b) rest := by
  rw [Body.fits, Bool.and_eq_true] at h
  obtain ⟨hcalls, hreturns⟩ := h
  have hdecode : decode (encode (.transaction b) ++ rest) =
      match decodeBody (bodyBytes b.returns b.calls ++ rest) with
      | some (b, rest') => .ok (.transaction b) rest'
      | none => .reject .badBodyEntry := rfl
  rw [hdecode, decodeBody_bodyBytes hcalls hreturns]

/-- The address field of a command byte, read back. -/
theorem toNat_ofNat_address {a : Nat} (h : a ≤ 31) : (BitVec.ofNat 5 a).toNat = a := by
  rw [BitVec.toNat_ofNat]
  omega

/-- A read of an address from 3 on stands under its command byte. -/
theorem decodeByTable_read {n : Nat} (h : n + 3 ≤ 31) (rest : List Byte) :
    decodeByTable (cmdByte (n + 3) .read) 0 0 rest = .ok (.readRegister (n + 3)) rest := by
  rw [decodeByTable, classify_cmdByte_read _ h]
  simp only [toNat_ofNat_address h]
  rfl

theorem decodeByTable_write {n : Nat} (h : n + 3 ≤ 31) (v : Byte) (rest : List Byte) :
    decodeByTable (cmdByte (n + 3) .write) v 0 rest = .ok (.writeRegister (n + 3) v) rest := by
  rw [decodeByTable, classify_cmdByte_write _ h]
  simp only [toNat_ofNat_address h]
  rfl

/-- Any other address fits the one byte under a selector. -/
theorem toNat_ofNat_byte {a : Nat} (h : a ≤ 31) : (BitVec.ofNat 8 a).toNat = a := by
  rw [BitVec.toNat_ofNat]
  omega

theorem decode_readRegister {a : Nat} (h : a ≤ 31) (rest : List Byte) :
    decode (encode (.readRegister a) ++ rest) = .ok (.readRegister a) rest := by
  simp only [encode]
  split
  next h3 =>
    obtain ⟨n, rfl⟩ : ∃ n, a = n + 3 := ⟨a - 3, by omega⟩
    exact decodeByTable_read h rest
  · have hdecode : decode ([BitVec.ofNat 8 a, 6, 0, 0] ++ rest) = .ok (.readRegister (BitVec.ofNat 8 a).toNat) rest := rfl
    rw [hdecode, toNat_ofNat_byte h]

theorem decode_writeRegister {a : Nat} (h : a ≤ 31) (v : Byte) (rest : List Byte) :
    decode (encode (.writeRegister a v) ++ rest) = .ok (.writeRegister a v) rest := by
  simp only [encode]
  split
  next h3 =>
    obtain ⟨n, rfl⟩ : ∃ n, a = n + 3 := ⟨a - 3, by omega⟩
    exact decodeByTable_write h v rest
  · have hdecode : decode ([BitVec.ofNat 8 a, 7, v, 0] ++ rest) = .ok (.writeRegister (BitVec.ofNat 8 a).toNat v) rest := rfl
    rw [hdecode, toNat_ofNat_byte h]

/-- Settles O8: one record for each instruction, its operand bytes read back; a body entry by entry. -/
theorem decodeEncode : Obligations.DecodeEncode := by
  intro i rest hwf
  cases i with
  | init => rfl
  | setDataDirection d => cases d <;> rfl
  | writeByte v => rfl
  | readByte => rfl
  | transaction b =>
    simp only [Instr.wf, Bool.and_eq_true] at hwf
    exact decode_transaction hwf.2 rest
  | readRegister a => exact decode_readRegister (of_decide_eq_true hwf) rest
  | writeRegister a v => exact decode_writeRegister (of_decide_eq_true hwf) v rest
  | decodeBcd raw => rfl
  | encodeBcd v => rfl
  | readSeconds => rfl
  | readMinutes => rfl
  | readHours => rfl
  | writeSeconds v ch => cases ch <;> rfl
  | writeMinutes v => rfl
  | writeHours v m =>
    match m with
    | .h24 => rfl
    | .h12 false => rfl
    | .h12 true => rfl
  | ignoredCommand x =>
    have hdecode : decode (encode (.ignoredCommand x) ++ rest) = decodeByTable (x.setWidth 8) 0 0 rest := rfl
    rw [hdecode, decodeByTable, classify_ignored]
    rfl
  | ramWriteCommand a =>
    have hdecode : decode (encode (.ramWriteCommand a) ++ rest) =
      decodeByTable (0xC0#8 ||| (a.setWidth 8 <<< 1)) 0 0 rest := rfl
    rw [hdecode, decodeByTable, (classify_ram a).1]
    rfl
  | ramReadCommand a =>
    have hdecode : decode (encode (.ramReadCommand a) ++ rest) =
      decodeByTable (0xC1#8 ||| (a.setWidth 8 <<< 1)) 0 0 rest := rfl
    rw [hdecode, decodeByTable, (classify_ram a).2]
    rfl

end Sys2Proof
end

section
/-! PROOFS. How a part of an operation ends, said of the events it appends: a part whose events are known in advance but for
the first failure (`Plays`), and a part of which some property of its events is known (`Ends`). -/

namespace Sys2Proof.Machine

/-! ### Calls and their failures -/

/-- No call of these events fails; the event in place `k` is that of the call `k` places ahead. -/
def Succeeds (s : State) (es : List Event) : Prop := ∀ k p, (es[k]?).map Event.prim = some p → ¬ CallFails s k p

/-- Of the calls of these events the first that fails is the one in place `k`, a call of `p`. -/
structure FailsFirst (s : State) (es : List Event) (k : Nat) (p : Prim) : Prop where
  call : (es[k]?).map Event.prim = some p
  before : Succeeds s (es.take k)
  fails : CallFails s k p

theorem canFail_after (p : Prim) (s : State) (es : List Event) : canFail p (s.after es) = canFail p s := by
  cases p <;> rfl

theorem callFails_after (s : State) (es : List Event) (k : Nat) (p : Prim) :
    CallFails (s.after es) k p ↔ CallFails s (es.length + k) p := by
  rw [CallFails, CallFails, canFail_after, State.after_drawAt]

theorem callFails_setTxn (s : State) (b : Bool) (k : Nat) (p : Prim) :
    CallFails (s.setTxn b) k p ↔ CallFails s k p := by
  cases p <;> rfl

/-- A call whose draw is among those that do not fail. -/
theorem NoFailure.not_callFails {s : State} {n k : Nat} (h : NoFailure s n) (hk : k < n) (p : Prim) :
    ¬ CallFails s k p := by
  rintro ⟨hcan, hdraw⟩
  obtain ⟨hpin, hdelay⟩ := h k hk hdraw
  cases p <;> simp [canFail, hpin, hdelay] at hcan

theorem Succeeds.of_noFailure {s : State} {es : List Event} (h : NoFailure s es.length) : Succeeds s es := by
  intro k p hp
  obtain ⟨e, he, -⟩ := Option.map_eq_some_iff.mp hp
  obtain ⟨hk, -⟩ := List.getElem?_eq_some_iff.mp he
  exact h.not_callFails hk p

theorem Succeeds.nil (s : State) : Succeeds s [] := by
  intro k p hp
  simp at hp

theorem Succeeds.append {s : State} {es fs : List Event} (hes : Succeeds s es) (hfs : Succeeds (s.after es) fs) :
    Succeeds s (es ++ fs) := by
  intro k p hp
  rw [List.getElem?_append] at hp
  split at hp
  · exact hes k p hp
  next hk =>
    have hk' : es.length + (k - es.length) = k := by omega
    rw [← hk', ← callFails_after]
    exact hfs _ p hp

theorem FailsFirst.append_left {s : State} {es : List Event} {k : Nat} {p : Prim} (h : FailsFirst s es k p)
    (fs : List Event) : FailsFirst s (es ++ fs) k p := by
  obtain ⟨e, he, -⟩ := Option.map_eq_some_iff.mp h.call
  obtain ⟨hk, -⟩ := List.getElem?_eq_some_iff.mp he
  refine ⟨by rw [List.getElem?_append_left hk]; exact h.call, ?_, h.fails⟩
  rw [List.take_append_of_le_length (by omega)]
  exact h.before

theorem FailsFirst.append_right {s : State} {es fs : List Event} {k : Nat} {p : Prim} (hes : Succeeds s es)
    (h : FailsFirst (s.after es) fs k p) : FailsFirst s (es ++ fs) (es.length + k) p := by
  refine ⟨by simpa [List.getElem?_append_right] using h.call, ?_, (callFails_after s es k p).mp h.fails⟩
  rw [List.take_length_add_append]
  exact hes.append h.before

/-- The first failure is in one place only. -/
theorem FailsFirst.unique {s : State} {es : List Event} {k j : Nat} {p q : Prim} (hk : FailsFirst s es k p)
    (hj : FailsFirst s es j q) : k = j ∧ p = q := by
  have not_lt {k j : Nat} {p q : Prim} (hk : FailsFirst s es k p) (hj : FailsFirst s es j q) : ¬ k < j := by
    intro hlt
    exact hj.before k p (by rw [List.getElem?_take_of_lt hlt]; exact hk.call) hk.fails
  have hkj : k = j := by
    have := not_lt hk hj
    have := not_lt hj hk
    omega
  subst hkj
  exact ⟨rfl, Option.some.inj (hk.call.symm.trans hj.call)⟩

/-- Where there is one call only. -/
theorem FailsFirst.singleton {s : State} {e : Event} {k : Nat} {p : Prim} (h : FailsFirst s [e] k p) :
    k = 0 ∧ p = e.prim := by
  obtain ⟨e', he', rfl⟩ := Option.map_eq_some_iff.mp h.call
  obtain ⟨hk, rfl⟩ := List.getElem?_eq_some_iff.mp he'
  obtain rfl : k = 0 := by simpa using hk
  exact ⟨rfl, rfl⟩

theorem FailsFirst.not_succeeds {s : State} {es : List Event} {k : Nat} {p : Prim} (h : FailsFirst s es k p) :
    ¬ Succeeds s es := fun hs => hs k p h.call h.fails

/-! ### Parts whose events are known in advance -/

/-- The part makes the calls of these events up to the first that fails, and returns `a` where none does. -/
def Plays {α : Type} (es : List Event) (a : α) (s : State) : Called α → Prop
  | .ok b t => b = a ∧ t = s.after es ∧ Succeeds s es
  | .err e t => ∃ k p, FailsFirst s es k p ∧ e = .pinFault (.fail p) ∧ t = s.after (es.take k ++ [.fail p])
  | .refused _ => False
  | .stopped _ => False

theorem Plays.nil {α : Type} (a : α) (s : State) : Plays [] a s (.ok a s) := ⟨rfl, by simp, Succeeds.nil s⟩

theorem Plays.andThen {α β : Type} {es fs : List Event} {a : α} {b : β} {s : State} {c : Called α}
    {f : α → State → Called β} (hc : Plays es a s c) (hf : Plays fs b (s.after es) (f a (s.after es))) :
    Plays (es ++ fs) b s (c.andThen f) := by
  cases c with
  | ok a' t =>
    obtain ⟨rfl, rfl, hes⟩ := hc
    simp only [Called.andThen]
    cases hfa : f a' (s.after es) with
    | ok b' u =>
      rw [hfa] at hf
      obtain ⟨rfl, rfl, hfs⟩ := hf
      exact ⟨rfl, by simp, hes.append hfs⟩
    | err e u =>
      rw [hfa] at hf
      obtain ⟨k, p, hk, rfl, rfl⟩ := hf
      exact ⟨es.length + k, p, hk.append_right hes, rfl, by simp [List.take_length_add_append]⟩
    | refused r => rw [hfa] at hf; exact hf.elim
    | stopped r => rw [hfa] at hf; exact hf.elim
  | err e t =>
    obtain ⟨k, p, hk, rfl, rfl⟩ := hc
    obtain ⟨e, he, -⟩ := Option.map_eq_some_iff.mp hk.call
    obtain ⟨hlt, -⟩ := List.getElem?_eq_some_iff.mp he
    exact ⟨k, p, hk.append_left fs, rfl, by rw [List.take_append_of_le_length (by omega)]⟩
  | refused r => exact hc.elim
  | stopped r => exact hc.elim

/-- Where none of its calls fails, the part returns. -/
theorem Plays.eq_ok {α : Type} {es : List Event} {a : α} {s : State} {c : Called α} (h : Plays es a s c)
    (hs : Succeeds s es) : c = .ok a (s.after es) := by
  cases c with
  | ok b t => obtain ⟨rfl, rfl, -⟩ := h; rfl
  | err e t => obtain ⟨k, p, hk, -⟩ := h; exact (hk.not_succeeds hs).elim
  | refused r => exact h.elim
  | stopped r => exact h.elim

/-- Where a call fails, the part ends there. -/
theorem Plays.eq_err {α : Type} {es : List Event} {a : α} {s : State} {c : Called α} {k : Nat} {p : Prim}
    (h : Plays es a s c) (hk : FailsFirst s es k p) :
    c = .err (.pinFault (.fail p)) (s.after (es.take k ++ [.fail p])) := by
  cases c with
  | ok b t => obtain ⟨-, -, hs⟩ := h; exact (hk.not_succeeds hs).elim
  | err e t =>
    obtain ⟨j, q, hj, rfl, rfl⟩ := h
    obtain ⟨rfl, rfl⟩ := hk.unique hj
    rfl
  | refused r => exact h.elim
  | stopped r => exact h.elim

@[simp] theorem Ran.called_andThen {α β : Type} (r : Ran α) (f : α → State → Ran β) :
    (r.andThen f).called = r.called.andThen fun a s => (f a s).called := by
  cases r <;> rfl

theorem perform_plays (p : Prim) (s : State) :
    Plays [successEvent (s.drawAt 0).bit p] (s.drawAt 0).bit s (perform p s).called := by
  cases hf : primFails p s with
  | true =>
    rw [perform_of_primFails hf]
    refine ⟨0, p, ⟨by simp, Succeeds.nil s, ?_⟩, rfl, rfl⟩
    rw [primFails, Bool.and_eq_true] at hf
    exact hf
  | false =>
    rw [perform_of_not_primFails hf]
    refine ⟨rfl, rfl, fun k q hq hfails => ?_⟩
    obtain rfl : k = 0 := by
      obtain ⟨e, he, -⟩ := Option.map_eq_some_iff.mp hq
      obtain ⟨hk, -⟩ := List.getElem?_eq_some_iff.mp he
      simpa using hk
    obtain rfl : p = q := by simpa using hq
    rw [primFails, Bool.and_eq_false_iff] at hf
    obtain ⟨hcan, hdraw⟩ := hfails
    simp [hcan, hdraw] at hf

/-- An event that is no failure and no sample is what its call appends on success. -/
theorem successEvent_eq {e : Event} (hfail : e.isFail = false) (hget : e.isGet = false) (b : Bool) :
    successEvent b e.prim = e := by
  cases e <;> simp_all [Event.isFail, Event.isGet, Event.prim, successEvent]

/-- Calls that take no sample. -/
theorem performAll_plays (es : List Event) (s : State) (he : ∀ e ∈ es, e.isFail = false ∧ e.isGet = false) :
    Plays es () s (performAll (es.map Event.prim) s).called := by
  induction es generalizing s with
  | nil => exact Plays.nil () s
  | cons e es ih =>
    obtain ⟨hfail, hget⟩ := he e List.mem_cons_self
    have hhead := perform_plays e.prim s
    rw [successEvent_eq hfail hget] at hhead
    rw [List.map_cons, performAll, Ran.called_andThen]
    exact hhead.andThen (ih _ fun e' he' => he e' (List.mem_cons_of_mem e he'))

theorem driveBit_plays (b : Bool) (s : State) : Plays (writeBitEvents b) () s (driveBit b s).called :=
  performAll_plays (writeBitEvents b) s (by cases b <;> decide)

theorem driveBits_plays (bs : List Bool) (s : State) :
    Plays (bs.flatMap writeBitEvents) () s (driveBits bs s).called := by
  induction bs generalizing s with
  | nil => exact Plays.nil () s
  | cons b bs ih =>
    rw [driveBits, Ran.called_andThen]
    exact (driveBit_plays b s).andThen (ih _)

theorem sampleBit_plays (s : State) :
    Plays (readBitEvents (s.drawAt 0).bit) (s.drawAt 0).bit s (sampleBit s).called := by
  have hpulse (t : State) := performAll_plays [.setClk .high, .wait .tCH, .setClk .low, .wait .tCL] t (by decide)
  rw [sampleBit, Ran.called_andThen]
  simp only [Ran.called_andThen]
  exact (perform_plays .get s).andThen ((hpulse _).andThen (Plays.nil _ _))

/-- The samples that the next `n` read bit cycles take. -/
def samples (s : State) (n : Nat) : List Bool := (List.range n).map fun i => (s.drawAt (5 * i)).bit

theorem samples_succ (s : State) (n : Nat) :
    samples s (n + 1) = (s.drawAt 0).bit :: samples (s.after (readBitEvents (s.drawAt 0).bit)) n := by
  simp [samples, List.range_succ_eq_map, Function.comp_def, readBitEvents, Nat.mul_add, Nat.add_comm]

theorem sampleBits_plays (n : Nat) (s : State) :
    Plays ((samples s n).flatMap readBitEvents) (samples s n) s (sampleBits n s).called := by
  induction n generalizing s with
  | zero => exact Plays.nil [] s
  | succ n ih =>
    rw [sampleBits, Ran.called_andThen, samples_succ, List.flatMap_cons]
    simp only [Ran.called_andThen]
    refine (sampleBit_plays s).andThen ?_
    rw [← List.append_nil (List.flatMap _ _)]
    exact (ih _).andThen (Plays.nil _ _)

/-! ### The transport operations past their checks -/

theorem firstRefusal_eq_none_iff {cs : List (Bool × Reason)} : firstRefusal cs = none ↔ ∀ c ∈ cs, c.1 = false := by
  induction cs with
  | nil => simp [firstRefusal]
  | cons c cs ih =>
    obtain ⟨holds, r⟩ := c
    cases holds <;> simp [firstRefusal, ih]

theorem eq_low_of_known {l : Line Level} (hhigh : l ≠ .known .high) (hknown : isUnknown l = false) :
    l = .known .low := by
  match l with
  | .known .low => rfl
  | .known .high => exact absurd rfl hhigh
  | .unknown => cases hknown

theorem byteRefusals_admit {d : Direction} {s : State} (htxn : s.txn = true) (hdir : s.dir = .known d)
    (hclk : s.clk = .known .low) : firstRefusal (byteRefusals d s) = none := by
  simp [byteRefusals, firstRefusal, htxn, hdir, hclk, isUnknown]

/-- The checks of a byte transfer let it run only inside a transaction, in its direction and with CLK Low (R104, R105). -/
theorem byteRefusals_eq_none {d : Direction} {s : State} (h : firstRefusal (byteRefusals d s) = none) :
    s.txn = true ∧ s.dir = .known d ∧ s.clk = .known .low := by
  have hcs := firstRefusal_eq_none_iff.mp h
  simp only [byteRefusals, List.forall_mem_cons, Bool.not_eq_false', decide_eq_false_iff_not, not_not] at hcs
  obtain ⟨htxn, hdir, hhigh, hknown, -⟩ := hcs
  exact ⟨htxn, hdir, eq_low_of_known hhigh hknown⟩

theorem shiftOut_plays (v : Byte) {s : State} (htxn : s.txn = true) (hdir : s.dir = .known .output)
    (hclk : s.clk = .known .low) : Plays (writeByteEvents v) () s (shiftOut v s) := by
  rw [shiftOut, guarded_admitted (byteRefusals_admit htxn hdir hclk)]
  exact driveBits_plays (bitsOf v) s

theorem shiftIn_plays {s : State} (htxn : s.txn = true) (hdir : s.dir = .known .input) (hclk : s.clk = .known .low) :
    Plays (readByteEvents (sampledByte s 0)) (sampledByte s 0) s (shiftIn s) := by
  have hbits : samples s 8 = bitsOf (sampledByte s 0) := by rw [bitsOf_sampledByte]; simp [samples]
  have hbyte : byteOf (samples s 8) = sampledByte s 0 := by simp [samples, sampledByte]
  rw [shiftIn, guarded_admitted (byteRefusals_admit htxn hdir hclk), Ran.called_andThen, ← bitsOf_readEvents, ← hbits]
  have h := (sampleBits_plays 8 s).andThen (f := fun bs t => (Ran.ok (byteOf bs) t).called) (Plays.nil _ _)
  rwa [List.append_nil, hbyte] at h

theorem setDirection_plays {d : Direction} {s : State} (h : firstRefusal (directionRefusals d s) = none) :
    Plays [.dir d] () s (setDirection d s) := by
  rw [setDirection, guarded_admitted h]
  exact performAll_plays [.dir d] s (by simp [Event.isFail, Event.isGet])

/-- The checks of the direction switch let it run only with CE and CLK known and CLK Low, and to output only outside a
transaction (R103). -/
theorem directionRefusals_eq_none {d : Direction} {s : State} (h : firstRefusal (directionRefusals d s) = none) :
    s.clk = .known .low ∧ s.ce ≠ .unknown ∧ ¬ (s.txn = true ∧ d = .output) := by
  have hcs := firstRefusal_eq_none_iff.mp h
  simp only [directionRefusals, List.forall_mem_cons, decide_eq_false_iff_not, Bool.or_eq_false_iff,
    Bool.and_eq_false_iff] at hcs
  obtain ⟨hhigh, ⟨hce, hknown⟩, hout, -⟩ := hcs
  refine ⟨eq_low_of_known hhigh hknown, fun hu => by simp [hu, isUnknown] at hce, fun ⟨htxn, hd⟩ => ?_⟩
  simp [htxn, hd] at hout

/-! ### Parts of which a property of the events is known -/

/-- The part appends events and changes nothing else: where it returns `a` the events meet `Ok a`, where it reports `e`
they meet `Err e`; and it is refused or stops the run only if `stop`. -/
def Ends {α : Type} (stop : Prop) (Ok : α → List Event → Prop) (Err : Error → List Event → Prop) (s : State) :
    Called α → Prop
  | .ok a t => ∃ es, t = s.after es ∧ Ok a es
  | .err e t => ∃ es, t = s.after es ∧ Err e es
  | .refused _ => stop
  | .stopped _ => stop

section
variable {α β : Type} {stop : Prop} {Ok Ok' : α → List Event → Prop} {OkB : β → List Event → Prop}
  {Err Err' : Error → List Event → Prop} {s : State} {c : Called α}

theorem Ends.pure {a : α} (h : Ok a []) : Ends stop Ok Err s (.ok a s) := ⟨[], by simp, h⟩

theorem Ends.mono (h : Ends stop Ok Err s c) (hok : ∀ a es, Ok a es → Ok' a es) (herr : ∀ e es, Err e es → Err' e es) :
    Ends stop Ok' Err' s c := by
  cases c with
  | ok a t => obtain ⟨es, rfl, hes⟩ := h; exact ⟨es, rfl, hok a es hes⟩
  | err e t => obtain ⟨es, rfl, hes⟩ := h; exact ⟨es, rfl, herr e es hes⟩
  | refused r => exact h
  | stopped r => exact h

theorem Ends.andThen {f : α → State → Called β} (hc : Ends stop Ok Err s c)
    (hf : ∀ a es, Ok a es → Ends stop (fun b fs => OkB b (es ++ fs)) (fun e fs => Err e (es ++ fs)) (s.after es)
      (f a (s.after es))) : Ends stop OkB Err s (c.andThen f) := by
  cases c with
  | ok a t =>
    obtain ⟨es, rfl, hes⟩ := hc
    have h := hf a es hes
    simp only [Called.andThen]
    cases hfa : f a (s.after es) with
    | ok b u => rw [hfa] at h; obtain ⟨fs, rfl, hfs⟩ := h; exact ⟨es ++ fs, by simp, hfs⟩
    | err e u => rw [hfa] at h; obtain ⟨fs, rfl, hfs⟩ := h; exact ⟨es ++ fs, by simp, hfs⟩
    | refused r => rw [hfa] at h; exact h
    | stopped r => rw [hfa] at h; exact h
  | err e t => exact hc
  | refused r => exact hc
  | stopped r => exact hc

/-- A part that runs, or else is refused by its checks. -/
theorem Ends.guarded {cs : List (Bool × Reason)} (h : firstRefusal cs = none → Ends True Ok Err s c) :
    Ends True Ok Err s (guarded cs c) := by
  cases hfirst : firstRefusal cs with
  | none => rw [guarded_admitted hfirst]; exact h hfirst
  | some r => rw [guarded_refused hfirst]; trivial

theorem Plays.ends {es : List Event} {a : α} (h : Plays es a s c) (hok : Ok a es)
    (herr : ∀ k p, FailsFirst s es k p → Err (.pinFault (.fail p)) (es.take k ++ [.fail p])) :
    Ends stop Ok Err s c := by
  cases c with
  | ok b t => obtain ⟨rfl, rfl, -⟩ := h; exact ⟨es, rfl, hok⟩
  | err e t => obtain ⟨k, p, hk, rfl, rfl⟩ := h; exact ⟨_, rfl, herr k p hk⟩
  | refused r => exact h.elim
  | stopped r => exact h.elim

end

end Sys2Proof.Machine
end

section
/-! PROOFS. The cleanup of a transaction (40_transport.md R107): every needed step attempted, whatever failed before it; and
what its events leave of the lines and keep of the framing. -/

namespace Sys2Proof.Machine

/-! ### Steps attempted -/

/-- Of the calls `ps` those of `qs` are attempted, one event each, and the first failure is reported. -/
def Attempts (needed : Prim → State → Bool) (ps : List Prim) (s : State) (qs : List Prim) : Prop :=
  ∃ es, es.map Event.prim = qs ∧ attemptAll needed ps s = (es.find? Event.isFail, s.after es)

section
variable {needed : Prim → State → Bool} {p : Prim} {ps qs : List Prim} {s : State}

theorem Attempts.nil : Attempts needed [] s [] := ⟨[], rfl, by simp [attemptAll]⟩

theorem Attempts.cons (hp : needed p s = true) (h : ∀ e : Event, e.prim = p → Attempts needed ps (s.after [e]) qs) :
    Attempts needed (p :: ps) s (p :: qs) := by
  cases hf : primFails p s with
  | true =>
    obtain ⟨es, hes, he⟩ := h (.fail p) rfl
    exact ⟨.fail p :: es, by simp [hes], by simp [attemptAll, hp, perform_of_primFails hf, he, List.find?_cons]⟩
  | false =>
    obtain ⟨es, hes, he⟩ := h (successEvent (s.drawAt 0).bit p) (by simp)
    exact ⟨successEvent (s.drawAt 0).bit p :: es, by simp [hes],
      by simp [attemptAll, hp, perform_of_not_primFails hf, he]⟩

theorem Attempts.skip (hp : needed p s = false) (h : Attempts needed ps s qs) : Attempts needed (p :: ps) s qs := by
  obtain ⟨es, hes, he⟩ := h
  exact ⟨es, hes, by rw [attemptAll_skip _ _ _ _ hp, he]⟩

/-- A step that is attempted where a condition on the lines holds. -/
theorem Attempts.cons_if {P : Prop} [Decidable P] (hp : needed p s = decide P)
    (h : ∀ t : State, (t = s ∨ ∃ e : Event, e.prim = p ∧ t = s.after [e]) → Attempts needed ps t qs) :
    Attempts needed (p :: ps) s ((if P then [p] else []) ++ qs) := by
  by_cases hP : P
  · simp only [hP, if_true, List.singleton_append]
    exact Attempts.cons (by simp [hp, hP]) fun e he => h _ (.inr ⟨e, he, rfl⟩)
  · simp only [hP, if_false, List.nil_append]
    exact Attempts.skip (by simp [hp, hP]) (h s (.inl rfl))

end

/-! ### What one call leaves of the lines -/

/-- A wait changes no line, whether or not it fails. -/
theorem Lines.next_wait {e : Event} {t : DelayTime} (h : e.prim = .wait t) (l : Lines) : l.next e = l := by
  cases e with
  | fail p => obtain rfl : p = .wait t := h; rfl
  | wait t' => rfl
  | _ => cases h

/-- A call that drives CE leaves the other lines. -/
theorem Lines.next_setCe {e : Event} {c : CeLevel} (h : e.prim = .setCe c) (l : Lines) :
    e = .setCe c ∧ l.next e = { l with ce := .known c } ∨
      e = .fail (.setCe c) ∧ l.next e = { l with ce := .unknown } := by
  cases e with
  | fail p => obtain rfl : p = .setCe c := h; exact .inr ⟨rfl, rfl⟩
  | setCe c' => obtain rfl := Prim.setCe.inj h; exact .inl ⟨rfl, rfl⟩
  | _ => cases h

theorem Lines.next_setClk {e : Event} {v : Level} (h : e.prim = .setClk v) (l : Lines) :
    e = .setClk v ∧ l.next e = { l with clk := .known v } ∨
      e = .fail (.setClk v) ∧ l.next e = { l with clk := .unknown } := by
  cases e with
  | fail p => obtain rfl : p = .setClk v := h; exact .inr ⟨rfl, rfl⟩
  | setClk v' => obtain rfl := Prim.setClk.inj h; exact .inl ⟨rfl, rfl⟩
  | _ => cases h

theorem Lines.next_dir {e : Event} {d : Direction} (h : e.prim = .dir d) (l : Lines) :
    e = .dir d ∧ l.next e = { l with dir := .known d, dout := .unknown } ∨
      e = .fail (.dir d) ∧ l.next e = { l with dir := .unknown, dout := .unknown } := by
  cases e with
  | fail p => obtain rfl : p = .dir d := h; exact .inr ⟨rfl, rfl⟩
  | dir d' => obtain rfl := Prim.dir.inj h; exact .inl ⟨rfl, rfl⟩
  | _ => cases h

/-! ### The calls of a cleanup -/

/-- These events are of the calls that a cleanup makes on these lines, whether or not they fail. -/
def CleansUp (l : Lines) (fs : List Event) : Prop := fs.map Event.prim = (cleanupEvents l).map Event.prim

theorem cleanupEvents_prims (l : Lines) : (cleanupEvents l).map Event.prim =
    .wait .tCCH :: .setCe .deasserted :: ((if l.clk ≠ .known .low then [.setClk .low] else []) ++
      ((if l.dir ≠ .known .output then [.dir .output] else []) ++ [.wait .tCWH])) := by
  unfold cleanupEvents
  split <;> split <;> simp_all [Event.prim]

theorem cleanup_attempts (s : State) :
    Attempts cleanupNeeds [.wait .tCCH, .setCe .deasserted, .setClk .low, .dir .output, .wait .tCWH] s
      ((cleanupEvents s.lines).map Event.prim) := by
  rw [cleanupEvents_prims]
  refine Attempts.cons rfl fun w hw => Attempts.cons rfl fun c hc => ?_
  have hlines : (((s.after [w]).after [c]).lines) = s.lines.next c := by
    simp [Lines.next_wait hw]
  have hclk : ((s.after [w]).after [c]).clk = s.lines.clk := by
    change ((s.after [w]).after [c]).lines.clk = _
    rw [hlines]
    rcases Lines.next_setCe hc s.lines with ⟨-, h⟩ | ⟨-, h⟩ <;> rw [h]
  have hdir : ((s.after [w]).after [c]).dir = s.lines.dir := by
    change ((s.after [w]).after [c]).lines.dir = _
    rw [hlines]
    rcases Lines.next_setCe hc s.lines with ⟨-, h⟩ | ⟨-, h⟩ <;> rw [h]
  generalize (s.after [w]).after [c] = t at hclk hdir
  refine Attempts.cons_if (by rw [cleanupNeeds, hclk]) fun u hu => Attempts.cons_if ?_ fun v _ =>
    Attempts.cons rfl fun _ _ => Attempts.nil
  have hkeep : u.dir = t.dir := by
    rcases hu with rfl | ⟨e, he, rfl⟩
    · rfl
    · change (t.lines.next e).dir = _
      rcases Lines.next_setClk he t.lines with ⟨-, h⟩ | ⟨-, h⟩ <;> rw [h] <;> rfl
  rw [cleanupNeeds, hkeep, hdir]

/-- Cleanup makes its calls whatever fails, closes the transaction, and reports the error it was given, else its own first
failure. -/
theorem cleanup_eq (first : Option Error) (s : State) : ∃ fs, CleansUp s.lines fs ∧
    cleanup first s = (first.or ((fs.find? Event.isFail).map .pinFault), (s.after fs).setTxn false) := by
  obtain ⟨fs, hfs, he⟩ := cleanup_attempts (s.setTxn false)
  refine ⟨fs, hfs, ?_⟩
  unfold cleanup
  rw [he]
  cases first <;> rfl

/-! ### What a cleanup leaves -/

/-- The events of a cleanup, one for each of its steps. -/
theorem CleansUp.cases {l : Lines} {fs : List Event} (h : CleansUp l fs) :
    ∃ w c cs ds w', fs = w :: c :: (cs ++ (ds ++ [w'])) ∧ w.prim = .wait .tCCH ∧ c.prim = .setCe .deasserted ∧
      cs.map Event.prim = (if l.clk ≠ .known .low then [.setClk .low] else []) ∧
      ds.map Event.prim = (if l.dir ≠ .known .output then [.dir .output] else []) ∧ w'.prim = .wait .tCWH := by
  rw [CleansUp, cleanupEvents_prims] at h
  obtain ⟨w, r, rfl, hw, h⟩ := List.map_eq_cons_iff.mp h
  obtain ⟨c, r, rfl, hc, h⟩ := List.map_eq_cons_iff.mp h
  obtain ⟨cs, r, rfl, hcs, h⟩ := List.map_eq_append_iff.mp h
  obtain ⟨ds, r, rfl, hds, h⟩ := List.map_eq_append_iff.mp h
  obtain ⟨w', r, rfl, hw', h⟩ := List.map_eq_cons_iff.mp h
  obtain rfl := List.map_eq_nil_iff.mp h
  exact ⟨w, c, cs, ds, w', rfl, hw, hc, hcs, hds, hw'⟩

theorem framed_wait {e : Event} {t : DelayTime} (h : e.prim = .wait t) (l : Lines) (es : List Event) :
    framed l (e :: es) = framed l es := by
  rw [framed, h, Lines.next_wait h]
  rfl

/-- After the deassert, successful or not, the other steps of a cleanup respect the framing on any lines: the clock only
falls, and the data line is turned to output with CE not asserted. -/
theorem framed_afterDeassert {l : Lines} {cs ds : List Event} {w : Event} (hce : l.ce ≠ .known .asserted)
    (hcs : cs.map Event.prim = [.setClk .low] ∨ cs = [] ∧ l.clk ≠ .known .high)
    (hds : ds.map Event.prim = [.dir .output] ∨ ds = []) (hw : w.prim = .wait .tCWH) :
    framed l (cs ++ (ds ++ [w])) = true ∧ (l.replay (cs ++ (ds ++ [w]))).ce = l.ce ∧
      (l.replay (cs ++ (ds ++ [w]))).clk ≠ .known .high := by
  have hwait (l : Lines) : respectsFraming l w.prim = true := by rw [hw]; rfl
  have tail {l : Lines} (hce : l.ce ≠ .known .asserted) (hclk : l.clk ≠ .known .high) :
      framed l (ds ++ [w]) = true ∧ (l.replay (ds ++ [w])).ce = l.ce ∧ (l.replay (ds ++ [w])).clk ≠ .known .high := by
    rcases hds with hds | rfl
    · obtain ⟨d, r, rfl, hd, h⟩ := List.map_eq_cons_iff.mp hds
      obtain rfl := List.map_eq_nil_iff.mp h
      have hframe : respectsFraming l d.prim = true := by simp [hd, respectsFraming, hce]
      rcases Lines.next_dir hd l with ⟨-, hl⟩ | ⟨-, hl⟩ <;>
        simpa only [List.singleton_append, framed, hframe, hwait, Lines.replay_cons, Lines.replay_nil,
          Lines.next_wait hw, hl, Bool.true_and, true_and] using hclk
    · simpa only [List.nil_append, framed, hwait, Lines.replay_cons, Lines.replay_nil, Lines.next_wait hw,
        Bool.true_and, true_and] using hclk
  rcases hcs with hcs | ⟨rfl, hclk⟩
  · obtain ⟨c, r, rfl, hc, h⟩ := List.map_eq_cons_iff.mp hcs
    obtain rfl := List.map_eq_nil_iff.mp h
    have hframe : respectsFraming l c.prim = true := by simp [hc, respectsFraming]
    simp only [List.singleton_append, framed, hframe, Bool.true_and, Lines.replay_cons]
    rcases Lines.next_setClk hc l with ⟨-, hl⟩ | ⟨-, hl⟩ <;> rw [hl]
    · exact tail hce (by simp)
    · exact tail hce (by simp)
  · exact tail hce hclk

/-- The deassert and the steps after it, on any lines. -/
theorem framed_deassert {l : Lines} {c w : Event} {cs ds : List Event} (hc : c.prim = .setCe .deasserted)
    (hcs : cs.map Event.prim = [.setClk .low] ∨ cs = [] ∧ l.clk ≠ .known .high)
    (hds : ds.map Event.prim = [.dir .output] ∨ ds = []) (hw : w.prim = .wait .tCWH) :
    framed l (c :: (cs ++ (ds ++ [w]))) = true ∧
      ((l.replay (c :: (cs ++ (ds ++ [w])))).ce = .known .deasserted ∨
        (l.replay (c :: (cs ++ (ds ++ [w])))).ce = .unknown ∧ c = .fail (.setCe .deasserted)) ∧
      (l.replay (c :: (cs ++ (ds ++ [w])))).clk ≠ .known .high := by
  have hframe : respectsFraming l c.prim = true := by simp [hc, respectsFraming]
  rw [framed, hframe, Bool.true_and, Lines.replay_cons]
  rcases Lines.next_setCe hc l with ⟨-, hl⟩ | ⟨rfl, hl⟩ <;> rw [hl]
  · obtain ⟨hf, hce, hclk⟩ := framed_afterDeassert (l := { l with ce := .known .deasserted }) (by simp) hcs hds hw
    exact ⟨hf, .inl hce, hclk⟩
  · obtain ⟨hf, hce, hclk⟩ := framed_afterDeassert (l := { l with ce := .unknown }) (by simp) hcs hds hw
    exact ⟨hf, .inr ⟨hce, rfl⟩, hclk⟩

/-- A cleanup respects the framing on whatever lines it finds, and leaves CE deasserted unless that very call failed, and CLK
not High. -/
theorem CleansUp.released {l : Lines} {fs : List Event} (h : CleansUp l fs) : framed l fs = true ∧
    ((l.replay fs).ce = .known .deasserted ∨
      (l.replay fs).ce = .unknown ∧ .fail (.setCe .deasserted) ∈ fs) ∧ (l.replay fs).clk ≠ .known .high := by
  obtain ⟨w, c, cs, ds, w', rfl, hw, hc, hcs, hds, hw'⟩ := h.cases
  have hcs' : cs.map Event.prim = [.setClk .low] ∨ cs = [] ∧ l.clk ≠ .known .high := by
    split at hcs
    · exact .inl hcs
    next hlow => exact .inr ⟨List.map_eq_nil_iff.mp hcs, by simp_all⟩
  have hds' : ds.map Event.prim = [.dir .output] ∨ ds = [] := by
    split at hds
    · exact .inl hds
    · exact .inr (List.map_eq_nil_iff.mp hds)
  rw [framed_wait hw, Lines.replay_cons, Lines.next_wait hw]
  obtain ⟨hframed, hce, hclk⟩ := framed_deassert hc hcs' hds' hw'
  exact ⟨hframed, hce.imp_right fun ⟨hunknown, hfail⟩ => ⟨hunknown, by simp [hfail]⟩, hclk⟩

theorem isGet_eq {e : Event} (h : e.isFail = false) : e.isGet = decide (e.prim = .get) := by
  cases e with
  | fail p => cases h
  | _ => simp [Event.isGet, Event.prim]

/-- Events that are no failures and no samples are told by their calls. -/
theorem eq_of_prims_eq {es fs : List Event} (h : fs.map Event.prim = es.map Event.prim)
    (hes : ∀ e ∈ es, e.isFail = false ∧ e.isGet = false) (hfs : ∀ e ∈ fs, e.isFail = false) : fs = es := by
  induction es generalizing fs with
  | nil => exact List.map_eq_nil_iff.mp h
  | cons e es ih =>
    obtain ⟨f, fs, rfl, hf, h⟩ := List.map_eq_cons_iff.mp h
    obtain ⟨hfail, hget⟩ := hes e List.mem_cons_self
    have hffail := hfs f List.mem_cons_self
    have hfget : f.isGet = false := by rw [isGet_eq hffail, hf, ← isGet_eq hfail, hget]
    have htail := ih h (fun e' he' => hes e' (List.mem_cons_of_mem e he')) fun f' hf' => hfs f' (List.mem_cons_of_mem f hf')
    rw [← successEvent_eq hffail hfget false, hf, successEvent_eq hfail hget, htail]

theorem find?_isFail_eq_none {es : List Event} : es.find? Event.isFail = none ↔ ∀ e ∈ es, e.isFail = false := by
  simp [List.find?_eq_none]

theorem cleanupEvents_quiet (l : Lines) : ∀ e ∈ cleanupEvents l, e.isFail = false ∧ e.isGet = false := by
  unfold cleanupEvents
  split <;> split <;> simp [Event.isFail, Event.isGet]

/-- A cleanup none of whose calls fails. -/
theorem CleansUp.eq_of_quiet {l : Lines} {fs : List Event} (h : CleansUp l fs) (hq : fs.find? Event.isFail = none) :
    fs = cleanupEvents l :=
  eq_of_prims_eq h (cleanupEvents_quiet l) (find?_isFail_eq_none.mp hq)

/-- A cleanup none of whose calls fails leaves the idle lines. -/
theorem replay_cleanupEvents (l : Lines) : (l.replay (cleanupEvents l)).ce = .known .deasserted ∧
    (l.replay (cleanupEvents l)).clk = .known .low ∧ (l.replay (cleanupEvents l)).dir = .known .output := by
  unfold cleanupEvents
  split <;> split <;> simp_all [Lines.next]

/-- Settles O22: the calls are those needed on the lines found, and where none of them fails they leave the idle lines. -/
theorem cleanupAttemptsEveryStep : Obligations.CleanupAttemptsEveryStep := by
  intro first s
  obtain ⟨fs, hfs, he⟩ := cleanup_eq first s
  refine ⟨fs, ?_, ?_, fun hq => ?_⟩
  · rw [hfs, cleanupEvents_prims, ite_not, ite_not]
    simp only [List.cons_append, List.nil_append, List.append_assoc]
    rfl
  · rw [he]
    cases first <;> rfl
  · rw [hfs.eq_of_quiet hq]
    exact replay_cleanupEvents s.lines

end Sys2Proof.Machine
end

section
/-! PROOFS. The frame of a transaction (40_transport.md R106) as what comes before its cleanup and the cleanup: whatever is
known of the events of the body is known of the events before the cleanup. -/

namespace Sys2Proof.Machine

/-! ### The frame as a part and its cleanup -/

/-- The same end with no transaction open. -/
def Called.closed {α : Type} : Called α → Called α
  | .ok a t => .ok a (t.setTxn false)
  | .err e t => .err e (t.setTxn false)
  | .refused r => .refused r
  | .stopped r => .stopped r

/-- What cleanup makes of the end of an opening and body. -/
def closing {α : Type} : Called α → Called α
  | .ok a t => closeFrame a t
  | .err e t => abortFrame e t
  | .refused r => .stopped (.inBody r)
  | .stopped r => .stopped r

/-- The opening of a transaction and its body. -/
def openThen {α : Type} (body : State → Called α) (s : State) : Called α :=
  (perform (.setCe .asserted) s).called.andThen fun _ t =>
    (perform (.wait .tCC) (t.setTxn true)).called.andThen fun _ u => body u

/-- What comes before the cleanup; cleanup closes the transaction first, so that `S.TXN` may be taken as closed. -/
def beforeCleanup {α : Type} (body : State → Called α) (s : State) : Called α := (openThen body s).closed

/-- The state in which a body starts. -/
def State.opened (s : State) : State := (s.after openEvents).setTxn true

theorem frame_eq_closing {α : Type} (body : State → Called α) (s : State) :
    frame body s = closing (beforeCleanup body s) := by
  unfold frame beforeCleanup openThen
  cases perform (.setCe .asserted) s with
  | fault ev t => rfl
  | ok b t =>
    simp only [Ran.called, Called.andThen]
    cases perform (.wait .tCC) (t.setTxn true) with
    | fault ev u => rfl
    | ok b u =>
      simp only
      cases body u <;> rfl

theorem State.after_closed {s : State} (h : s.txn = false) (es : List Event) (b : Bool) :
    ((s.setTxn b).after es).setTxn false = s.after es := by
  rw [State.after_setTxn]
  exact State.eq_of_lines rfl h.symm rfl rfl rfl rfl rfl rfl rfl

theorem closed_andThen {α β : Type} {c : Called α} {f : α → State → Called β}
    (h : ∀ e t, c = .err e t → t.txn = false) : (c.andThen f).closed = c.andThen fun a t => (f a t).closed := by
  cases c with
  | ok a t => rfl
  | err e t => simp only [Called.andThen, Called.closed, ← h e t rfl, State.setTxn_self]
  | refused r => rfl
  | stopped r => rfl

theorem Succeeds.setTxn {s : State} {es : List Event} {b : Bool} (h : Succeeds (s.setTxn b) es) : Succeeds s es :=
  fun k p hp => (callFails_setTxn s b k p).not.mp (h k p hp)

theorem Plays.closed {α : Type} {es : List Event} {a : α} {s : State} {b : Bool} {c : Called α}
    (h : Plays es a (s.setTxn b) c) (hs : s.txn = false) : Plays es a s c.closed := by
  cases c with
  | ok a' t =>
    obtain ⟨rfl, rfl, hsucc⟩ := h
    exact ⟨rfl, State.after_closed hs es b, hsucc.setTxn⟩
  | err e t =>
    obtain ⟨k, p, ⟨hcall, hbefore, hfails⟩, rfl, rfl⟩ := h
    exact ⟨k, p, ⟨hcall, hbefore.setTxn, (callFails_setTxn s b k p).mp hfails⟩, rfl, State.after_closed hs _ b⟩
  | refused r => exact h
  | stopped r => exact h

theorem Ends.closed {α : Type} {stop : Prop} {Ok : α → List Event → Prop} {Err : Error → List Event → Prop} {s : State}
    {b : Bool} {c : Called α} (h : Ends stop Ok Err (s.setTxn b) c) (hs : s.txn = false) :
    Ends stop Ok Err s c.closed := by
  cases c with
  | ok a t => obtain ⟨es, rfl, hes⟩ := h; exact ⟨es, State.after_closed hs es b, hes⟩
  | err e t => obtain ⟨es, rfl, hes⟩ := h; exact ⟨es, State.after_closed hs es b, hes⟩
  | refused r => exact h
  | stopped r => exact h

theorem perform_err_txn {p : Prim} {s t : State} {e : Error} (h : (perform p s).called = .err e t) :
    t.txn = s.txn := by
  cases hp : perform p s with
  | ok b u => rw [hp] at h; cases h
  | fault ev u =>
    obtain ⟨-, rfl⟩ := perform_fault hp
    rw [hp] at h
    cases h
    rfl

/-- The opening, told apart at the two calls that can fail. -/
theorem beforeCleanup_eq {α : Type} (body : State → Called α) {s : State} (hs : s.txn = false) :
    beforeCleanup body s = (perform (.setCe .asserted) s).called.andThen fun _ t =>
      ((perform (.wait .tCC) (t.setTxn true)).called.andThen fun _ u => body u).closed :=
  closed_andThen fun _ _ h => (perform_err_txn h).trans hs

theorem State.opened_eq (s : State) :
    ((s.after [.setCe .asserted]).setTxn true).after [.wait .tCC] = s.opened := by
  rw [State.after_setTxn, State.after_after]
  rfl

/-- A body whose events are known in advance, after the opening. -/
theorem beforeCleanup_plays {α : Type} {es : List Event} {a : α} {body : State → Called α} {s : State}
    (hs : s.txn = false) (h : Plays es a s.opened (body s.opened)) :
    Plays (openEvents ++ es) a s (beforeCleanup body s) := by
  rw [beforeCleanup_eq body hs]
  refine (perform_plays (.setCe .asserted) s).andThen (fs := .wait .tCC :: es) (Plays.closed (b := true) ?_ hs)
  refine (perform_plays (.wait .tCC) _).andThen ?_
  simp only [successEvent]
  rw [State.opened_eq]
  exact h

/-- A body of whose events some property is known, after the opening. -/
theorem beforeCleanup_ends {α : Type} {stop : Prop} {Ok : α → List Event → Prop} {Err : Error → List Event → Prop}
    {body : State → Called α} {s : State} (hs : s.txn = false)
    (hce : Err (.pinFault (.fail (.setCe .asserted))) [.fail (.setCe .asserted)])
    (hwait : Err (.pinFault (.fail (.wait .tCC))) [.setCe .asserted, .fail (.wait .tCC)])
    (hbody : Ends stop (fun a es => Ok a (openEvents ++ es)) (fun e es => Err e (openEvents ++ es)) s.opened
      (body s.opened)) : Ends stop Ok Err s (beforeCleanup body s) := by
  rw [beforeCleanup_eq body hs]
  refine Ends.andThen (Ok := fun _ es => es = [.setCe .asserted])
    ((perform_plays (.setCe .asserted) s).ends rfl fun k p h => ?_) fun _ es hes => ?_
  · obtain ⟨rfl, rfl⟩ := h.singleton
    exact hce
  subst hes
  refine Ends.closed (b := true) (Ends.andThen (Ok := fun _ es => es = [.wait .tCC])
    ((perform_plays (.wait .tCC) _).ends rfl fun k p h => ?_) fun _ es hes => ?_) hs
  · obtain ⟨rfl, rfl⟩ := h.singleton
    exact hwait
  subst hes
  rw [State.opened_eq]
  exact hbody

/-! ### The cleanup after it -/

/-- The events of a transaction that returned: those before its cleanup and a cleanup none of whose calls fails. -/
def Returned (Ok : List Event → Prop) (l : Lines) (es : List Event) : Prop :=
  ∃ bs fs, es = bs ++ fs ∧ Ok bs ∧ CleansUp (l.replay bs) fs ∧ fs.find? Event.isFail = none

/-- The events of a transaction that reports an error: that of what came before its cleanup, or else its cleanup's own. -/
def Failed {α : Type} (Ok : α → List Event → Prop) (Err : Error → List Event → Prop) (l : Lines) (e : Error)
    (es : List Event) : Prop :=
  ∃ bs fs, es = bs ++ fs ∧ CleansUp (l.replay bs) fs ∧
    (Err e bs ∨ ∃ a ev, Ok a bs ∧ e = .pinFault ev ∧ fs.find? Event.isFail = some ev)

theorem closing_ends {α : Type} {stop : Prop} {Ok : α → List Event → Prop} {Err : Error → List Event → Prop}
    {s : State} {c : Called α} (hs : s.txn = false) (h : Ends stop Ok Err s c) :
    Ends stop (fun a => Returned (Ok a) s.lines) (Failed Ok Err s.lines) s (closing c) := by
  have hafter (es fs : List Event) : ((s.after es).after fs).setTxn false = s.after (es ++ fs) := by
    rw [State.after_after]
    exact State.eq_of_lines rfl hs.symm rfl rfl rfl rfl rfl rfl rfl
  cases c with
  | ok a t =>
    obtain ⟨bs, rfl, hbs⟩ := h
    obtain ⟨fs, hfs, he⟩ := cleanup_eq none (s.after bs)
    simp only [closing, closeFrame, he, Option.none_or]
    cases hfirst : fs.find? Event.isFail with
    | none => exact ⟨bs ++ fs, hafter bs fs, bs, fs, rfl, hbs, hfs, hfirst⟩
    | some ev => exact ⟨bs ++ fs, hafter bs fs, bs, fs, rfl, hfs, .inr ⟨a, ev, hbs, rfl, hfirst⟩⟩
  | err e t =>
    obtain ⟨bs, rfl, hbs⟩ := h
    obtain ⟨fs, hfs, he⟩ := cleanup_eq (some e) (s.after bs)
    simp only [closing, abortFrame, he]
    exact ⟨bs ++ fs, hafter bs fs, bs, fs, rfl, hfs, .inl hbs⟩
  | refused r => exact h
  | stopped r => exact h

/-- A transaction, from what is known of the events of its body. -/
theorem frame_ends {α : Type} {stop : Prop} {Ok : α → List Event → Prop} {Err : Error → List Event → Prop}
    {body : State → Called α} {s : State} (hs : s.txn = false)
    (hce : Err (.pinFault (.fail (.setCe .asserted))) [.fail (.setCe .asserted)])
    (hwait : Err (.pinFault (.fail (.wait .tCC))) [.setCe .asserted, .fail (.wait .tCC)])
    (hbody : Ends stop (fun a es => Ok a (openEvents ++ es)) (fun e es => Err e (openEvents ++ es)) s.opened
      (body s.opened)) :
    Ends stop (fun a => Returned (Ok a) s.lines) (Failed Ok Err s.lines) s (frame body s) := by
  rw [frame_eq_closing]
  exact closing_ends hs (beforeCleanup_ends hs hce hwait hbody)

/-! ### The checks of a transaction -/

theorem transactionRefusals_admit {s : State} (h : s.Idle) : firstRefusal (transactionRefusals s) = none := by
  obtain ⟨hce, hclk, hdir, htxn⟩ := h
  simp [transactionRefusals, firstRefusal, hce, hclk, hdir, htxn, knownOther, isUnknown]

theorem eq_known_of_not {α : Type} [DecidableEq α] {a : α} {l : Line α} (hother : knownOther a l = false)
    (hknown : isUnknown l = false) : l = .known a := by
  cases l with
  | unknown => cases hknown
  | known b => simpa [knownOther] using hother

/-- The checks of a transaction let it run only from the idle lines (R106). -/
theorem transactionRefusals_eq_none {s : State} (h : firstRefusal (transactionRefusals s) = none) : s.Idle := by
  have hcs := firstRefusal_eq_none_iff.mp h
  simp only [transactionRefusals, List.forall_mem_cons, Bool.or_eq_false_iff] at hcs
  obtain ⟨htxn, ⟨⟨hce, hclk⟩, hdir⟩, ⟨⟨hce', hclk'⟩, hdir'⟩, -⟩ := hcs
  exact ⟨eq_known_of_not hce hce', eq_known_of_not hclk hclk', eq_known_of_not hdir hdir', htxn⟩

theorem firstRefusal_append_eq_none {cs ds : List (Bool × Reason)} :
    firstRefusal (cs ++ ds) = none ↔ firstRefusal cs = none ∧ firstRefusal ds = none := by
  simp only [firstRefusal_eq_none_iff, List.forall_mem_append]

theorem idle_of_admitted {s : State} {cs : List (Bool × Reason)}
    (h : firstRefusal (cs ++ transactionRefusals s) = none) : s.Idle :=
  transactionRefusals_eq_none (firstRefusal_append_eq_none.mp h).2

/-- The lines in which a body starts. -/
theorem State.opened_lines (s : State) : s.opened.lines = { s.lines with ce := .known .asserted } := rfl

end Sys2Proof.Machine
end

section
/-! PROOFS. Every instruction as one operation and its end: what a next state of an instruction is, from what is known of its
operation. -/

namespace Sys2Proof.Machine

/-- The same end, with the value the caller receives. -/
def Called.map {α β : Type} (f : α → β) : Called α → Called β
  | .ok a s => .ok (f a) s
  | .err e s => .err e s
  | .refused r => .refused r
  | .stopped r => .stopped r

/-- The operation of an instruction, before its end. The ignored command class is no operation (log entry 7) and returns at
once here; `exec_eq_finish` leaves it out. -/
def operation : Instr → State → Called Value
  | .init, s => (initLines s).map unitValue
  | .setDataDirection d, s => (setDirection d s).map unitValue
  | .writeByte v, s => (shiftOut v s).map unitValue
  | .readByte, s => (shiftIn s).map .byte
  | .transaction b, s => runTransaction b s
  | .readRegister a, s => (readRegister a s).map .byte
  | .writeRegister a v, s => (writeRegister a v s).map unitValue
  | .decodeBcd raw, s => (decodeField raw raw s).map .byte
  | .encodeBcd v, s => (encodeField v s).map .byte
  | .readSeconds, s => readField 0 secondsField (fun _ v => .byte v) s
  | .readMinutes, s => readField 1 minutesField (fun _ v => .byte v) s
  | .readHours, s => readField 2 hoursField (fun raw v => .hours v (hoursPm raw)) s
  | .writeSeconds v ch, s => (writeField 0 (decide (v.toNat ≤ 59)) (secondsData v ch) s).map unitValue
  | .writeMinutes v, s => (writeField 1 (decide (v.toNat ≤ 59)) (minutesData v) s).map unitValue
  | .writeHours h m, s => (writeField 2 (m.admits h.toNat) (hoursData h m) s).map unitValue
  | .ignoredCommand _, s => .ok .unit s
  | .ramWriteCommand _, _ => .stopped .ramCommand
  | .ramReadCommand _, _ => .stopped .ramCommand

theorem finish_map {α : Type} (f : α → Value) (s : State) (c : Called α) : finish id s (c.map f) = finish f s c := by
  cases c <;> rfl

theorem exec_eq_finish {i : Instr} (h : ∀ x, i ≠ .ignoredCommand x) (s : State) :
    exec i s = finish id s (operation i s) := by
  cases i with
  | ignoredCommand x => exact absurd rfl (h x)
  | init => exact (finish_map _ s _).symm
  | setDataDirection d => exact (finish_map _ s _).symm
  | writeByte v => exact (finish_map _ s _).symm
  | readByte => exact (finish_map _ s _).symm
  | transaction b => rfl
  | readRegister a => exact (finish_map _ s _).symm
  | writeRegister a v => exact (finish_map _ s _).symm
  | decodeBcd raw => exact (finish_map _ s _).symm
  | encodeBcd v => exact (finish_map _ s _).symm
  | readSeconds => rfl
  | readMinutes => rfl
  | readHours => rfl
  | writeSeconds v ch => exact (finish_map _ s _).symm
  | writeMinutes v => exact (finish_map _ s _).symm
  | writeHours h m => exact (finish_map _ s _).symm
  | ramWriteCommand a => rfl
  | ramReadCommand a => rfl

theorem not_ignored_of_opens {i : Instr} (h : opensTransaction i = true) (x : BitVec 7) : i ≠ .ignoredCommand x := by
  rintro rfl
  cases h

/-- A next state of an operation: it returned, reported an error, or was refused. -/
theorem exec_next {i : Instr} {s t : State} (h : exec i s = .next t) (hi : ∀ x, i ≠ .ignoredCommand x) :
    (∃ v u, operation i s = .ok v u ∧ t = u.setOutcome (.ok v)) ∨
      (∃ e u, operation i s = .err e u ∧ t = u.setOutcome (.err e)) ∨
        ∃ r, operation i s = .refused r ∧ t = s.refuse r :=
  finish_next ((exec_eq_finish hi s).symm.trans h)

section
variable {α β : Type} {stop : Prop} {Ok : List Event → Prop} {Err : Error → List Event → Prop} {s : State}

theorem Ends.map {c : Called α} (h : Ends stop (fun _ => Ok) Err s c) (f : α → β) :
    Ends stop (fun _ => Ok) Err s (c.map f) := by
  cases c <;> exact h

/-- A call that is refused meets whatever is asked of one that runs. -/
theorem Called.IsRefused.ends {OkA : α → List Event → Prop} {c : Called α} (h : c.IsRefused) :
    Ends True OkA Err s c := by
  obtain ⟨r, rfl⟩ := h
  trivial

/-- A next state of an operation of whose events something is known. -/
theorem Ends.exec {i : Instr} {t : State} (hc : Ends True (fun _ => Ok) Err s (operation i s))
    (h : exec i s = .next t) (hi : ∀ x, i ≠ .ignoredCommand x) :
    (∃ v es, t = (s.after es).setOutcome (.ok v) ∧ Ok es) ∨
      (∃ e es, t = (s.after es).setOutcome (.err e) ∧ Err e es) ∨ ∃ r, t = s.refuse r := by
  rcases exec_next h hi with ⟨v, u, hop, rfl⟩ | ⟨e, u, hop, rfl⟩ | ⟨r, -, rfl⟩
  · rw [hop] at hc
    obtain ⟨es, rfl, hes⟩ := hc
    exact .inl ⟨v, es, rfl, hes⟩
  · rw [hop] at hc
    obtain ⟨es, rfl, hes⟩ := hc
    exact .inr (.inl ⟨e, es, rfl, hes⟩)
  · exact .inr (.inr ⟨r, rfl⟩)

end

end Sys2Proof.Machine
end

section
/-! PROOFS. The framing of the bus by CE (70_reset_and_hazards.md R213 to R215) and the first failure of an operation
(60_exceptions.md R182): what the events inside a transaction keep of both, and every operation at its boundary. -/

namespace Sys2Proof.Machine

/-! ### Events inside a transaction -/

/-- The event is of a call that drives CE. -/
def Event.drivesCe (e : Event) : Bool :=
  match e.prim with
  | .setCe _ => true
  | .setClk _ | .setDio _ | .dir _ | .get | .wait _ => false

/-- What events inside a transaction keep where none of them is a failure: they respect the framing, leave CE alone, and end
with CLK Low. -/
structure Inside (l : Lines) (es : List Event) : Prop where
  framing : framed l es = true
  quiet : ∀ e ∈ es, e.isFail = false
  noCe : ∀ e ∈ es, e.drivesCe = false
  clk : (l.replay es).clk = .known .low

/-- What they keep where the last of them is the failure `ev`. -/
structure Broken (l : Lines) (ev : Event) (es : List Event) : Prop where
  framing : framed l es = true
  first : es.find? Event.isFail = some ev
  noCe : ∀ e ∈ es, e.drivesCe = false

theorem Lines.next_ce {e : Event} (h : e.drivesCe = false) (l : Lines) : (l.next e).ce = l.ce := by
  cases e with
  | fail p =>
    cases p with
    | setCe c => cases h
    | setClk _ | setDio _ | dir _ | get | wait _ => rfl
  | setCe c => cases h
  | _ => rfl

theorem Lines.replay_ce {es : List Event} (h : ∀ e ∈ es, e.drivesCe = false) (l : Lines) :
    (l.replay es).ce = l.ce := by
  induction es generalizing l with
  | nil => rfl
  | cons e es ih =>
    rw [Lines.replay_cons, ih fun e' he' => h e' (List.mem_cons_of_mem e he'), Lines.next_ce (h e List.mem_cons_self)]

section
variable {l : Lines} {es fs : List Event} {ev : Event}

theorem Inside.nil (h : l.clk = .known .low) : Inside l [] := ⟨rfl, by simp, by simp, h⟩

theorem Inside.append (hes : Inside l es) (hfs : Inside (l.replay es) fs) : Inside l (es ++ fs) where
  framing := by rw [framed_append, hes.framing, hfs.framing]; rfl
  quiet := List.forall_mem_append.mpr ⟨hes.quiet, hfs.quiet⟩
  noCe := List.forall_mem_append.mpr ⟨hes.noCe, hfs.noCe⟩
  clk := by rw [Lines.replay_append]; exact hfs.clk

theorem Inside.broken (hes : Inside l es) (hfs : Broken (l.replay es) ev fs) : Broken l ev (es ++ fs) where
  framing := by rw [framed_append, hes.framing, hfs.framing]; rfl
  first := by rw [List.find?_append, find?_isFail_eq_none.mpr hes.quiet, hfs.first]; rfl
  noCe := List.forall_mem_append.mpr ⟨hes.noCe, hfs.noCe⟩

theorem drivesCe_eq_of_prim {e f : Event} (h : e.prim = f.prim) : e.drivesCe = f.drivesCe := by
  rw [Event.drivesCe, Event.drivesCe, h]

/-- Framing speaks of the calls, whether or not they succeed. -/
theorem framed_faulted {k : Nat} {p : Prim} (h : framed l es = true) (hp : (es[k]?).map Event.prim = some p) :
    framed l (es.take k ++ [.fail p]) = true := by
  obtain ⟨e, he, rfl⟩ := Option.map_eq_some_iff.mp hp
  obtain ⟨hk, rfl⟩ := List.getElem?_eq_some_iff.mp he
  rw [← List.take_append_drop k es, framed_append, Bool.and_eq_true, List.drop_eq_getElem_cons hk, framed,
    Bool.and_eq_true] at h
  obtain ⟨hbefore, hcall, -⟩ := h
  rw [framed_append, hbefore, framed, fail_prim, hcall]
  rfl

/-- The first failure among such events. -/
theorem Inside.faulted {k : Nat} {p : Prim} (h : Inside l es) (hp : (es[k]?).map Event.prim = some p) :
    Broken l (.fail p) (es.take k ++ [.fail p]) where
  framing := framed_faulted h.framing hp
  first := by
    rw [List.find?_append, find?_isFail_eq_none.mpr fun e he => h.quiet e (List.mem_of_mem_take he)]
    rfl
  noCe := by
    obtain ⟨e, he, rfl⟩ := Option.map_eq_some_iff.mp hp
    refine List.forall_mem_append.mpr ⟨fun e he => h.noCe e (List.mem_of_mem_take he), fun f hf => ?_⟩
    obtain rfl := List.mem_singleton.mp hf
    exact (drivesCe_eq_of_prim rfl).trans (h.noCe e (List.mem_of_getElem? he))

end

/-- What a part inside a transaction that reports an error has done: up to its first failure, or without any. -/
def EndsInside (l : Lines) : Error → List Event → Prop
  | .pinFault ev, es => Broken l ev es
  | .invalidBcdDigit _, es => Inside l es

theorem Inside.endsInside {l : Lines} {es fs : List Event} {e : Error} (hes : Inside l es)
    (hfs : EndsInside (l.replay es) e fs) : EndsInside l e (es ++ fs) := by
  cases e with
  | pinFault ev => exact hes.broken hfs
  | invalidBcdDigit raw => exact hes.append hfs

/-! ### The parts of a body -/

/-- Inside a transaction, between two calls of its body. -/
structure State.InTransaction (s : State) : Prop where
  txn : s.txn = true
  ce : s.ce = .known .asserted
  clk : s.clk = .known .low

theorem State.InTransaction.after {s : State} {es : List Event} (h : s.InTransaction) (hes : Inside s.lines es) :
    (s.after es).InTransaction :=
  ⟨h.txn, (Lines.replay_ce hes.noCe s.lines).trans h.ce, hes.clk⟩

theorem State.Idle.opened {s : State} (h : s.Idle) : s.opened.InTransaction := ⟨rfl, rfl, h.2.1⟩

/-- The part keeps what a transaction needs inside, whatever fails. -/
abbrev RunsInside {α : Type} (s : State) (c : Called α) : Prop :=
  Ends True (fun _ => Inside s.lines) (EndsInside s.lines) s c

theorem Plays.runsInside {α : Type} {es : List Event} {a : α} {s : State} {c : Called α} (h : Plays es a s c)
    (hes : Inside s.lines es) : RunsInside s c :=
  h.ends hes fun _ _ hk => hes.faulted hk.call

theorem RunsInside.andThen {α β : Type} {s : State} {c : Called α} {f : α → State → Called β} (hs : s.InTransaction)
    (hc : RunsInside s c) (hf : ∀ a t, t.InTransaction → RunsInside t (f a t)) : RunsInside s (c.andThen f) :=
  Ends.andThen hc fun a _ hes => (hf a _ (hs.after hes)).mono (fun _ _ hfs => hes.append hfs)
    fun _ _ hfs => hes.endsInside hfs

theorem RunsInside.pure {α : Type} {a : α} {s : State} (hs : s.InTransaction) : RunsInside s (.ok a s) :=
  Ends.pure (Inside.nil hs.clk)

/-- Write bit cycles (R101): the data line moves with CLK Low, and the clock rises from Low and falls again. -/
theorem inside_writeBits {l : Lines} (bs : List Bool) (hce : l.ce = .known .asserted) (hclk : l.clk = .known .low)
    (hdir : l.dir = .known .output) : Inside l (bs.flatMap writeBitEvents) := by
  induction bs generalizing l with
  | nil => exact Inside.nil hclk
  | cons b bs ih =>
    rw [List.flatMap_cons]
    refine Inside.append ⟨?_, ?_, ?_, rfl⟩ (ih (by simpa [writeBitEvents, Lines.next]) rfl
      (by simpa [writeBitEvents, Lines.next]))
    · simp [writeBitEvents, framed, respectsFraming, Event.prim, Lines.next, hce, hclk, hdir]
    · simp [writeBitEvents, Event.isFail]
    · simp [writeBitEvents, Event.drivesCe, Event.prim]

/-- Read bit cycles (R102): the sample is taken with CLK Low, and the clock rises from Low and falls again. -/
theorem inside_readBits {l : Lines} (bs : List Bool) (hce : l.ce = .known .asserted) (hclk : l.clk = .known .low)
    (hdir : l.dir = .known .input) : Inside l (bs.flatMap readBitEvents) := by
  induction bs generalizing l with
  | nil => exact Inside.nil hclk
  | cons b bs ih =>
    rw [List.flatMap_cons]
    refine Inside.append ⟨?_, ?_, ?_, rfl⟩ (ih (by simpa [readBitEvents, Lines.next]) rfl
      (by simpa [readBitEvents, Lines.next]))
    · simp [readBitEvents, framed, respectsFraming, Event.prim, Lines.next, hce, hclk, hdir]
    · simp [readBitEvents, Event.isFail]
    · simp [readBitEvents, Event.drivesCe, Event.prim]

section
variable {s : State} (hs : s.InTransaction)
include hs

theorem shiftOut_runsInside (v : Byte) : RunsInside s (shiftOut v s) :=
  Ends.guarded fun h => by
    obtain ⟨-, hdir, hclk⟩ := byteRefusals_eq_none h
    exact (driveBits_plays (bitsOf v) s).runsInside (inside_writeBits _ hs.ce hclk hdir)

theorem shiftIn_runsInside : RunsInside s (shiftIn s) :=
  Ends.guarded fun h => by
    obtain ⟨-, hdir, hclk⟩ := byteRefusals_eq_none h
    rw [Ran.called_andThen]
    exact RunsInside.andThen hs ((sampleBits_plays 8 s).runsInside (inside_readBits _ hs.ce hclk hdir))
      fun _ _ ht => RunsInside.pure ht

/-- In a transaction the data line can only be turned to input. -/
theorem setDirection_runsInside (d : Direction) : RunsInside s (setDirection d s) :=
  Ends.guarded fun h => by
    obtain ⟨hclk, -, hout⟩ := directionRefusals_eq_none h
    refine (performAll_plays [.dir d] s (by simp [Event.isFail, Event.isGet])).runsInside ⟨?_, ?_, ?_, hs.clk⟩
    · cases d with
      | output => exact absurd ⟨hs.txn, rfl⟩ hout
      | input => simp [framed, respectsFraming, Event.prim, State.lines, hclk]
    · simp [Event.isFail]
    · simp [Event.drivesCe, Event.prim]

theorem decodeField_runsInside (r b : Byte) : RunsInside s (decodeField r b s) := by
  cases h : decodeDigits b with
  | none => rw [decodeField_of_none h]; exact ⟨[], by simp, Inside.nil hs.clk⟩
  | some v => rw [decodeField_of_some h]; exact RunsInside.pure hs

theorem encodeField_runsInside (v : Byte) : RunsInside s (encodeField v s) :=
  Ends.guarded fun _ => RunsInside.pure hs

omit hs in
theorem withArg_ends {α : Type} {Ok : α → List Event → Prop} {Err : Error → List Event → Prop}
    (results : List (Option Byte)) (a : Arg) {f : Byte → Called α} (h : ∀ b, Ends True Ok Err s (f b)) :
    Ends True Ok Err s (withArg results a f) := by
  unfold withArg
  split
  · exact h _
  · trivial

theorem runBodyCall_runsInside (results : List (Option Byte)) (c : BodyCall) :
    RunsInside s (runBodyCall results c s) := by
  have binds {α : Type} {f : α → Option Byte} {c : Called α} (h : RunsInside s c) :
      RunsInside s (c.andThen fun a t => .ok (f a) t) := h.andThen hs fun _ _ ht => RunsInside.pure ht
  cases c with
  | writeByte v => exact withArg_ends results v fun b => binds (shiftOut_runsInside hs b)
  | readByte => exact binds (shiftIn_runsInside hs)
  | setDataDirection d => exact binds (setDirection_runsInside hs d)
  | decodeBcd raw => exact withArg_ends results raw fun b => binds (decodeField_runsInside hs b b)
  | encodeBcd v => exact withArg_ends results v fun b => binds (encodeField_runsInside hs b)
  | barred op => trivial

end

theorem runBodyCalls_runsInside (results : List (Option Byte)) (cs : List BodyCall) {s : State}
    (hs : s.InTransaction) : RunsInside s (runBodyCalls results cs s) := by
  induction cs generalizing results s with
  | nil => exact RunsInside.pure hs
  | cons c cs ih => exact (runBodyCall_runsInside hs results c).andThen hs fun _ _ ht => ih _ ht

theorem runBody_runsInside (b : Body) {s : State} (hs : s.InTransaction) : RunsInside s (runBody b s) := by
  refine (runBodyCalls_runsInside [] b.calls hs).andThen hs fun results t ht => ?_
  split
  · exact RunsInside.pure ht
  · trivial

theorem readBody_runsInside (c : Byte) {s : State} (hs : s.InTransaction) : RunsInside s (readBody c s) :=
  (shiftOut_runsInside hs c).andThen hs fun _ _ ht => (setDirection_runsInside ht .input).andThen ht fun _ _ hu =>
    shiftIn_runsInside hu

theorem writeBody_runsInside (c v : Byte) {s : State} (hs : s.InTransaction) : RunsInside s (writeBody c v s) :=
  (shiftOut_runsInside hs c).andThen hs fun _ _ ht => shiftOut_runsInside ht v

/-! ### Whole operations -/

/-- What the events of an operation keep at its boundary. -/
structure Framed (l : Lines) (es : List Event) : Prop where
  framing : framed l es = true
  ceOff : (l.replay es).ce ≠ .known .asserted
  clkDown : (l.replay es).clk ≠ .known .high

/-- What the events of an operation with a transaction keep: CE is deasserted after it, unless that call failed. -/
structure Transacted (l : Lines) (es : List Event) : Prop where
  framing : framed l es = true
  deasserted : (l.replay es).ce = .known .deasserted ∨
    (l.replay es).ce = .unknown ∧ .fail (.setCe .deasserted) ∈ es
  clkDown : (l.replay es).clk ≠ .known .high

theorem Transacted.framed {l : Lines} {es : List Event} (h : Transacted l es) : Framed l es := by
  refine ⟨h.framing, fun hon => ?_, h.clkDown⟩
  rcases h.deasserted with hoff | ⟨hunknown, -⟩
  · cases hon.symm.trans hoff
  · cases hon.symm.trans hunknown

/-- The `PinFault` reported, if that is the error, is the first failure among the events. -/
def FirstFailure : Error → List Event → Prop
  | .pinFault ev, es => es.find? Event.isFail = some ev
  | .invalidBcdDigit _, _ => True

/-- An operation with a transaction that keeps the framing, and reports its first failure if it has one. -/
abbrev Reports {α : Type} (s : State) (c : Called α) : Prop :=
  Ends True (fun _ es => Transacted s.lines es ∧ es.find? Event.isFail = none)
    (fun e es => Transacted s.lines es ∧ FirstFailure e es) s c

/-- A cleanup after events that respect the framing. -/
theorem CleansUp.transacted {l : Lines} {bs fs : List Event} (h : CleansUp (l.replay bs) fs)
    (hbs : framed l bs = true) : Transacted l (bs ++ fs) := by
  obtain ⟨hf, hce, hclk⟩ := h.released
  rw [← Lines.replay_append] at hce hclk
  exact ⟨by rw [framed_append, hbs, hf]; rfl,
    hce.imp_right fun ⟨hunknown, hfail⟩ => ⟨hunknown, List.mem_append_right bs hfail⟩, hclk⟩

theorem State.Idle.framed_open {s : State} (hs : s.Idle) : framed s.lines openEvents = true := by
  obtain ⟨hce, hclk, hdir, -⟩ := hs
  simp [openEvents, framed, respectsFraming, Event.prim, State.lines, hce, hclk, hdir]

/-- A transaction opened on the idle lines frames what happens inside it, and reports the first failure. -/
theorem frame_reports {α : Type} {body : State → Called α} {s : State} (hs : s.Idle)
    (hbody : RunsInside s.opened (body s.opened)) : Reports s (frame body s) := by
  have hinside {es : List Event} (h : framed s.opened.lines es = true) : framed s.lines (openEvents ++ es) = true := by
    have hlines : s.lines.replay openEvents = s.opened.lines := rfl
    rw [framed_append, hs.framed_open, hlines, h]
    rfl
  have hfirst (es : List Event) : (openEvents ++ es).find? Event.isFail = es.find? Event.isFail := rfl
  have hends := frame_ends (Ok := fun _ bs => framed s.lines bs = true ∧ bs.find? Event.isFail = none)
    (Err := fun e bs => framed s.lines bs = true ∧ FirstFailure e bs) (body := body) (stop := True) hs.2.2.2
    ⟨framed_faulted (k := 0) hs.framed_open rfl, rfl⟩ ⟨framed_faulted (k := 1) hs.framed_open rfl, rfl⟩
    (hbody.mono (fun _ es h => ⟨hinside h.framing, (hfirst es).trans (find?_isFail_eq_none.mpr h.quiet)⟩) fun e es h => by
      cases e with
      | pinFault ev => exact ⟨hinside h.framing, (hfirst es).trans h.first⟩
      | invalidBcdDigit raw => exact ⟨hinside h.framing, trivial⟩)
  refine hends.mono ?_ ?_
  · rintro _ _ ⟨bs, fs, rfl, ⟨hframing, hquiet⟩, hfs, hq⟩
    exact ⟨hfs.transacted hframing, by rw [List.find?_append, hquiet, hq]; rfl⟩
  · rintro e _ ⟨bs, fs, rfl, hfs, ⟨hframing, hfirst⟩ | ⟨_, ev, ⟨hframing, hquiet⟩, rfl, hev⟩⟩
    · refine ⟨hfs.transacted hframing, ?_⟩
      cases e with
      | pinFault ev =>
        have hev : bs.find? Event.isFail = some ev := hfirst
        rw [FirstFailure, List.find?_append, hev]
        rfl
      | invalidBcdDigit raw => trivial
    · exact ⟨hfs.transacted hframing, by rw [FirstFailure, List.find?_append, hquiet, hev]; rfl⟩

theorem readRegister_reports (a : Nat) (s : State) : Reports s (readRegister a s) :=
  Ends.guarded fun h => frame_reports (idle_of_admitted h) (readBody_runsInside _ (idle_of_admitted h).opened)

theorem writeRegister_reports (a : Nat) (v : Byte) (s : State) : Reports s (writeRegister a v s) :=
  Ends.guarded fun h => frame_reports (idle_of_admitted h) (writeBody_runsInside _ v (idle_of_admitted h).opened)

theorem writeField_reports (a : Nat) (inRange : Bool) (data : Byte) (s : State) :
    Reports s (writeField a inRange data s) :=
  Ends.guarded fun _ => writeRegister_reports a data s

/-- The decode after the transaction has closed appends nothing (R150 to R152). -/
theorem readField_reports (a : Nat) (field : Byte → Byte) (value : Byte → Byte → Value) (s : State) :
    Reports s (readField a field value s) := by
  refine Ends.andThen (readRegister_reports a s) fun raw es ⟨hes, hq⟩ => ?_
  cases h : decodeDigits (field raw) with
  | none =>
    rw [decodeField_of_none h]
    exact ⟨[], by simp, by simpa using hes, trivial⟩
  | some v =>
    rw [decodeField_of_some h]
    exact ⟨[], by simp, by simpa using hes, by simpa using hq⟩

theorem runTransaction_reports (b : Body) (s : State) : Reports s (runTransaction b s) :=
  Ends.guarded fun h => by
    have hs := transactionRefusals_eq_none (firstRefusal_append_eq_none.mp h).1
    split
    · exact frame_reports hs (runBody_runsInside b hs.opened)
    · trivial

theorem operation_reports {i : Instr} (h : opensTransaction i = true) (s : State) : Reports s (operation i s) := by
  cases i with
  | transaction b => exact runTransaction_reports b s
  | readRegister a => exact (readRegister_reports a s).map _
  | writeRegister a v => exact (writeRegister_reports a v s).map _
  | readSeconds => exact readField_reports 0 _ _ s
  | readMinutes => exact readField_reports 1 _ _ s
  | readHours => exact readField_reports 2 _ _ s
  | writeSeconds v ch => exact (writeField_reports 0 _ _ s).map _
  | writeMinutes v => exact (writeField_reports 1 _ _ s).map _
  | writeHours v m => exact (writeField_reports 2 _ _ s).map _
  | init | setDataDirection _ | writeByte _ | readByte | decodeBcd _ | encodeBcd _ | ignoredCommand _
  | ramWriteCommand _ | ramReadCommand _ => cases h

/-- Settles O23: the cleanup deasserts CE, and a refused call leaves the idle lines. -/
theorem transactionAlwaysDeasserts : Obligations.TransactionAlwaysDeasserts := by
  intro i s t hopens hs hexec
  obtain ⟨hce, -, -, htxn⟩ := hs
  have hdrop (es : List Event) : (s.trace ++ es).drop s.trace.length = es := List.drop_left
  rcases (operation_reports hopens s).exec hexec (not_ignored_of_opens hopens) with
    ⟨v, es, rfl, hes, -⟩ | ⟨e, es, rfl, hes, -⟩ | ⟨r, rfl⟩
  · exact ⟨htxn, by simpa [hdrop] using hes.deasserted⟩
  · exact ⟨htxn, by simpa [hdrop] using hes.deasserted⟩
  · exact ⟨htxn, .inl hce⟩

/-! ### The invariant of the boundary -/

/-- The operation keeps the framing and the boundary, and opens no transaction. -/
abbrev KeepsBoundary {α : Type} (s : State) (c : Called α) : Prop :=
  Ends True (fun _ => Framed s.lines) (fun _ => Framed s.lines) s c

/-- The fields that the invariant speaks of decide it. -/
theorem Boundary.of_fields {s t : State} (h : Boundary s) (htxn : t.txn = s.txn) (htrace : t.trace = s.trace)
    (hlines : t.lines = s.lines) : Boundary t := by
  have hce : t.ce = s.ce := congrArg Lines.ce hlines
  have hclk : t.clk = s.clk := congrArg Lines.clk hlines
  exact ⟨htxn.trans h.closed, hce ▸ h.ceOff, hclk ▸ h.clkDown, by rw [hlines, htrace, h.recorded],
    by rw [htrace, h.framing]⟩

theorem Boundary.after {s : State} {es : List Event} (h : Boundary s) (hes : Framed s.lines es) :
    Boundary (s.after es) where
  closed := h.closed
  ceOff := hes.ceOff
  clkDown := hes.clkDown
  recorded := by
    have hrec := h.recorded
    rw [State.after_trace, State.after_lines, Lines.replay_append, ← hrec]
  framing := by
    have hrec := h.recorded
    rw [State.after_trace, framed_append, h.framing, ← hrec, hes.framing]
    rfl

/-- The four calls of `init` respect the framing on any lines, and leave CE deasserted or unknown, and CLK not High. -/
theorem initLines_keepsBoundary (s : State) : KeepsBoundary s (initLines s) :=
  Ends.guarded fun _ => by
    obtain ⟨es, hes, he⟩ := attemptAll_always [.setCe .deasserted, .setClk .low, .dir .output, .wait .tCWH] s
    obtain ⟨c, r, rfl, hc, hr⟩ := List.map_eq_cons_iff.mp hes
    obtain ⟨cs, r, rfl, hcs, hr⟩ := List.map_eq_append_iff.mp (hr.trans (List.singleton_append).symm)
    obtain ⟨ds, r, rfl, hds, hr⟩ := List.map_eq_append_iff.mp (hr.trans (List.singleton_append).symm)
    obtain ⟨w, r, rfl, hw, hr⟩ := List.map_eq_cons_iff.mp hr
    obtain rfl := List.map_eq_nil_iff.mp hr
    obtain ⟨hframing, hce, hclk⟩ := framed_deassert (l := s.lines) hc (.inl hcs) (.inl hds) hw
    have hframed : Framed s.lines (c :: (cs ++ (ds ++ [w]))) :=
      ⟨hframing, by rcases hce with hce | ⟨hce, -⟩ <;> rw [hce] <;> simp, hclk⟩
    rw [he]
    cases List.find? Event.isFail _ with
    | none => exact ⟨_, rfl, hframed⟩
    | some ev => exact ⟨_, rfl, hframed⟩

section
variable {s : State} (h : Boundary s)
include h

theorem Boundary.framed_nil : Framed s.lines [] := ⟨rfl, h.ceOff, h.clkDown⟩

/-- At the boundary CE is not asserted, so that the data line may be turned either way, to input with CLK Low. -/
theorem setDirection_keepsBoundary (d : Direction) : KeepsBoundary s (setDirection d s) :=
  Ends.guarded fun hadmit => by
    obtain ⟨hclk, -, -⟩ := directionRefusals_eq_none hadmit
    have hframed {e : Event} (he : e.prim = .dir d) : Framed s.lines [e] := by
      have hframing : respectsFraming s.lines e.prim = true := by
        rw [he]
        cases d <;> simp [respectsFraming, State.lines, hclk, h.ceOff]
      refine ⟨by rw [framed, hframing]; rfl, ?_, ?_⟩ <;> rw [Lines.replay_cons, Lines.replay_nil] <;>
        rcases Lines.next_dir he s.lines with ⟨-, hl⟩ | ⟨-, hl⟩ <;> rw [hl]
      · exact h.ceOff
      · exact h.ceOff
      · exact h.clkDown
      · exact h.clkDown
    refine (performAll_plays [.dir d] s (by simp [Event.isFail, Event.isGet])).ends (hframed rfl) fun k p hk => ?_
    obtain ⟨rfl, rfl⟩ := hk.singleton
    exact hframed rfl

theorem decodeField_keepsBoundary (r b : Byte) : KeepsBoundary s (decodeField r b s) := by
  cases hd : decodeDigits b with
  | none => rw [decodeField_of_none hd]; exact ⟨[], by simp, h.framed_nil⟩
  | some v => rw [decodeField_of_some hd]; exact Ends.pure h.framed_nil

theorem encodeField_keepsBoundary (v : Byte) : KeepsBoundary s (encodeField v s) :=
  Ends.guarded fun _ => Ends.pure h.framed_nil

theorem operation_keepsBoundary (i : Instr) : KeepsBoundary s (operation i s) := by
  have hopen (hi : opensTransaction i = true) : KeepsBoundary s (operation i s) :=
    (operation_reports hi s).mono (fun _ _ h => h.1.framed) fun _ _ h => h.1.framed
  cases i with
  | init => exact (initLines_keepsBoundary s).map _
  | setDataDirection d => exact (setDirection_keepsBoundary h d).map _
  | writeByte v => exact (shiftOut_isRefused_of_not_txn h.closed v).ends.map _
  | readByte => exact (shiftIn_isRefused_of_not_txn h.closed).ends.map _
  | decodeBcd b => exact (decodeField_keepsBoundary h b b).map _
  | encodeBcd v => exact (encodeField_keepsBoundary h v).map _
  | ignoredCommand x => exact Ends.pure h.framed_nil
  | ramWriteCommand a | ramReadCommand a => trivial
  | transaction _ | readRegister _ | writeRegister _ _ | readSeconds | readMinutes | readHours | writeSeconds _ _
  | writeMinutes _ | writeHours _ _ => exact hopen rfl

theorem exec_keepsBoundary {i : Instr} {t : State} (hexec : exec i s = .next t) : Boundary t := by
  by_cases hi : ∃ x, i = .ignoredCommand x
  · obtain ⟨x, rfl⟩ := hi
    cases hexec
    exact h
  · rcases (operation_keepsBoundary h i).exec hexec (not_exists.mp hi) with
      ⟨v, es, rfl, hes⟩ | ⟨e, es, rfl, hes⟩ | ⟨r, rfl⟩
    · exact (h.after hes).of_fields rfl rfl rfl
    · exact (h.after hes).of_fields rfl rfl rfl
    · exact h.of_fields rfl rfl rfl

end

/-- Settles O2: nothing is known at power-on, and no event has been. -/
theorem boundaryHoldsAtReset : Obligations.BoundaryHoldsAtReset :=
  ⟨rfl, by simp [State.reset], by simp [State.reset], rfl, rfl⟩

/-- Settles O3: the pending calls play no part in the invariant, and every operation keeps it. -/
theorem stepKeepsBoundary : Obligations.StepKeepsBoundary := by
  intro s t h hstep
  rcases step_next hstep with ⟨-, rfl⟩ | ⟨i, rest, -, hexec⟩
  · exact h
  · exact exec_keepsBoundary (h.of_fields (t := s.setCalls rest) rfl rfl rfl) hexec

end Sys2Proof.Machine
end

section
/-! PROOFS. What every operation reports and leaves unchanged (20_memory.md R61, 60_exceptions.md R181, R182): its first
failure, the lines no call of it drives, and which errors it can raise. -/

namespace Sys2Proof.Machine

/-! ### Lines that no call drives -/

/-- A call of `p`, successful or not, leaves this of the lines as it was. -/
def Prim.Spares {α : Type} (p : Prim) (f : Lines → α) : Prop := ∀ (e : Event) (l : Lines), e.prim = p → f (l.next e) = f l

theorem Event.cases_prim (e : Event) : e = .fail e.prim ∨ ∃ b, e = successEvent b e.prim := by
  cases e with
  | fail p => exact .inl rfl
  | get b => exact .inr ⟨b, rfl⟩
  | setClk _ | setCe _ | setDio _ | dir _ | wait _ => exact .inr ⟨false, rfl⟩

theorem Prim.spares_of {α : Type} {p : Prim} {f : Lines → α} (hfail : ∀ l : Lines, f (l.next (.fail p)) = f l)
    (hok : ∀ b (l : Lines), f (l.next (successEvent b p)) = f l) : p.Spares f := by
  rintro e l rfl
  rcases e.cases_prim with he | ⟨b, he⟩
  · rw [he]
    exact hfail l
  · rw [he]
    exact hok b l

theorem replay_spared {α : Type} {f : Lines → α} {es : List Event} (h : ∀ e ∈ es, e.prim.Spares f) (l : Lines) :
    f (l.replay es) = f l := by
  induction es generalizing l with
  | nil => rfl
  | cons e es ih =>
    rw [Lines.replay_cons, ih fun e' he' => h e' (List.mem_cons_of_mem e he')]
    exact h e List.mem_cons_self e l rfl

/-- The events up to a first failure are of calls among the events of the part. -/
theorem forall_prim_faulted {P : Prim → Prop} {es : List Event} {k : Nat} {p : Prim} (h : ∀ e ∈ es, P e.prim)
    (hp : (es[k]?).map Event.prim = some p) : ∀ e ∈ es.take k ++ [.fail p], P e.prim := by
  obtain ⟨e, he, rfl⟩ := Option.map_eq_some_iff.mp hp
  refine List.forall_mem_append.mpr ⟨fun e he => h e (List.mem_of_mem_take he), fun f hf => ?_⟩
  obtain rfl := List.mem_singleton.mp hf
  exact h e (List.mem_of_getElem? he)

/-- What the events of a part leave as it was, and the first failure it reports. -/
abbrev SparesAndReports {α β : Type} (f : Lines → β) (s : State) (c : Called α) : Prop :=
  Ends True (fun _ es => f (s.lines.replay es) = f s.lines ∧ es.find? Event.isFail = none)
    (fun e es => f (s.lines.replay es) = f s.lines ∧ FirstFailure e es) s c

theorem Plays.sparesAndReports {α β : Type} {f : Lines → β} {es : List Event} {a : α} {s : State} {c : Called α}
    (h : Plays es a s c) (hes : ∀ e ∈ es, e.isFail = false ∧ e.prim.Spares f) : SparesAndReports f s c := by
  have hspares : ∀ e ∈ es, e.prim.Spares f := fun e he => (hes e he).2
  refine h.ends ⟨replay_spared hspares _, find?_isFail_eq_none.mpr fun e he => (hes e he).1⟩ fun k p hk => ?_
  refine ⟨replay_spared (forall_prim_faulted (P := (·.Spares f)) hspares hk.call) _, ?_⟩
  rw [FirstFailure, List.find?_append,
    find?_isFail_eq_none.mpr fun e he => (hes e (List.mem_of_mem_take he)).1]
  rfl

/-! ### The transport operations -/

/-- What write bit cycles leave: CE and the direction. -/
def Lines.ceDir (l : Lines) : Line CeLevel × Line Direction := (l.ce, l.dir)

/-- What read bit cycles leave: the level on the data line too. -/
def Lines.ceDirDout (l : Lines) : Line CeLevel × Line Direction × Line Level := (l.ce, l.dir, l.dout)

/-- What a direction switch leaves: CE and CLK. -/
def Lines.ceClk (l : Lines) : Line CeLevel × Line Level := (l.ce, l.clk)

theorem setDirection_spares (d : Direction) (s : State) : SparesAndReports Lines.ceClk s (setDirection d s) :=
  Ends.guarded fun _ => (performAll_plays [.dir d] s (by simp [Event.isFail, Event.isGet])).sparesAndReports fun e he => by
    obtain rfl := List.mem_singleton.mp he
    exact ⟨rfl, Prim.spares_of (fun _ => rfl) fun _ _ => rfl⟩

theorem shiftOut_spares (v : Byte) (s : State) : SparesAndReports Lines.ceDir s (shiftOut v s) :=
  Ends.guarded fun _ => (driveBits_plays (bitsOf v) s).sparesAndReports fun e he => by
    obtain ⟨b, -, he⟩ := List.mem_flatMap.mp he
    simp only [writeBitEvents, List.mem_cons, List.not_mem_nil, or_false] at he
    rcases he with rfl | rfl | rfl | rfl | rfl | rfl <;> exact ⟨rfl, Prim.spares_of (fun _ => rfl) fun _ _ => rfl⟩

theorem shiftIn_spares (s : State) : SparesAndReports Lines.ceDirDout s (shiftIn s) :=
  Ends.guarded fun _ => by
    have hplays : Plays ((samples s 8).flatMap readBitEvents ++ []) (byteOf (samples s 8)) s
        ((sampleBits 8 s).andThen fun bs t => .ok (byteOf bs) t).called := by
      rw [Ran.called_andThen]
      exact (sampleBits_plays 8 s).andThen (Plays.nil _ _)
    refine hplays.sparesAndReports fun e he => ?_
    rw [List.append_nil] at he
    obtain ⟨b, -, he⟩ := List.mem_flatMap.mp he
    simp only [readBitEvents, List.mem_cons, List.not_mem_nil, or_false] at he
    rcases he with rfl | rfl | rfl | rfl | rfl <;> exact ⟨rfl, Prim.spares_of (fun _ => rfl) fun _ _ => rfl⟩

theorem decodeField_spares (r b : Byte) (s : State) : SparesAndReports id s (decodeField r b s) := by
  cases hd : decodeDigits b with
  | none => rw [decodeField_of_none hd]; exact ⟨[], by simp, rfl, trivial⟩
  | some v => rw [decodeField_of_some hd]; exact Ends.pure ⟨rfl, rfl⟩

theorem encodeField_spares (v : Byte) (s : State) : SparesAndReports id s (encodeField v s) :=
  Ends.guarded fun _ => Ends.pure ⟨rfl, rfl⟩

theorem Ends.map_lines {α β γ : Type} {f : Lines → β} {g : Lines → γ} {s : State} {c : Called α}
    (h : SparesAndReports f s c) (hg : ∀ l l', f l = f l' → g l = g l') : SparesAndReports g s c :=
  h.mono (fun _ _ hes => ⟨hg _ _ hes.1, hes.2⟩) fun _ _ hes => ⟨hg _ _ hes.1, hes.2⟩

/-- The operations without a transaction of their own, but for `init`, leave CE. -/
theorem operation_spares_ce {i : Instr} (hi : opensTransaction i = false) (hinit : i ≠ .init) (s : State) :
    SparesAndReports Lines.ce s (operation i s) := by
  cases i with
  | init => exact absurd rfl hinit
  | setDataDirection d => exact ((setDirection_spares d s).map_lines fun _ _ h => congrArg Prod.fst h).map _
  | writeByte v => exact ((shiftOut_spares v s).map_lines fun _ _ h => congrArg Prod.fst h).map _
  | readByte => exact ((shiftIn_spares s).map_lines fun _ _ h => congrArg Prod.fst h).map _
  | decodeBcd b => exact ((decodeField_spares b b s).map_lines fun _ _ h => congrArg Lines.ce h).map _
  | encodeBcd v => exact ((encodeField_spares v s).map_lines fun _ _ h => congrArg Lines.ce h).map _
  | ignoredCommand x => exact Ends.pure ⟨rfl, rfl⟩
  | ramWriteCommand a | ramReadCommand a => trivial
  | transaction _ | readRegister _ | writeRegister _ _ | readSeconds | readMinutes | readHours | writeSeconds _ _
  | writeMinutes _ | writeHours _ _ => cases hi

/-- The same that switch no direction leave the direction too. -/
theorem operation_spares_dir {i : Instr} (hi : opensTransaction i = false) (hinit : i ≠ .init)
    (hdir : ∀ d, i ≠ .setDataDirection d) (s : State) : SparesAndReports Lines.dir s (operation i s) := by
  cases i with
  | init => exact absurd rfl hinit
  | setDataDirection d => exact absurd rfl (hdir d)
  | writeByte v => exact ((shiftOut_spares v s).map_lines fun _ _ h => congrArg Prod.snd h).map _
  | readByte => exact ((shiftIn_spares s).map_lines fun _ _ h => congrArg (fun q => q.2.1) h).map _
  | decodeBcd b => exact ((decodeField_spares b b s).map_lines fun _ _ h => congrArg Lines.dir h).map _
  | encodeBcd v => exact ((encodeField_spares v s).map_lines fun _ _ h => congrArg Lines.dir h).map _
  | ignoredCommand x => exact Ends.pure ⟨rfl, rfl⟩
  | ramWriteCommand a | ramReadCommand a => trivial
  | transaction _ | readRegister _ | writeRegister _ _ | readSeconds | readMinutes | readHours | writeSeconds _ _
  | writeMinutes _ | writeHours _ _ => cases hi

/-- An operation leaves of the lines what its events leave, and the other fields but for the trace, the draws, the outcome
and the mark of the run. -/
theorem exec_spared {β : Type} {f : Lines → β} {i : Instr} {s t : State}
    (hc : SparesAndReports f s (operation i s)) (h : exec i s = .next t) (hi : ∀ x, i ≠ .ignoredCommand x) :
    f t.lines = f s.lines ∧ t.txn = s.txn ∧ t.params = s.params ∧ t.calls = s.calls := by
  rcases hc.exec h hi with ⟨v, es, rfl, hes, -⟩ | ⟨e, es, rfl, hes, -⟩ | ⟨r, rfl⟩
  · exact ⟨hes, rfl, rfl, rfl⟩
  · exact ⟨hes, rfl, rfl, rfl⟩
  · exact ⟨rfl, rfl, rfl, rfl⟩

/-- Settles O51: no call of the operation drives the lines that it leaves. -/
theorem transportFrames : Obligations.TransportFrames := by
  refine ⟨fun i s t hi hinit h => ?others, fun d s t h => ?direction, fun v s t h => ?write, fun s t h => ?read⟩
  case others =>
    by_cases hignored : ∃ x, i = .ignoredCommand x
    · obtain ⟨x, rfl⟩ := hignored
      cases h
      exact ⟨rfl, rfl, fun _ => rfl⟩
    · have hne := not_exists.mp hignored
      obtain ⟨hce, htxn, -, -⟩ := exec_spared (operation_spares_ce hi hinit s) h hne
      exact ⟨hce, htxn, fun hdir => (exec_spared (operation_spares_dir hi hinit hdir s) h hne).1⟩
  case direction =>
    obtain ⟨hlines, htxn, hparams, hcalls⟩ :=
      exec_spared (i := .setDataDirection d) ((setDirection_spares d s).map _) h (by simp)
    obtain ⟨hce, hclk⟩ := Prod.mk.inj hlines
    exact ⟨hce, hclk, htxn, hparams, hcalls⟩
  case write =>
    obtain ⟨hlines, htxn, hparams, hcalls⟩ :=
      exec_spared (i := .writeByte v) ((shiftOut_spares v s).map _) h (by simp)
    obtain ⟨hce, hdir⟩ := Prod.mk.inj hlines
    exact ⟨hce, hdir, htxn, hparams, hcalls⟩
  case read =>
    obtain ⟨hlines, htxn, hparams, hcalls⟩ := exec_spared (i := .readByte) ((shiftIn_spares s).map _) h (by simp)
    obtain ⟨hce, hrest⟩ := Prod.mk.inj hlines
    obtain ⟨hdir, hdout⟩ := Prod.mk.inj hrest
    exact ⟨hce, hdir, hdout, htxn, hparams, hcalls⟩

/-! ### Every operation -/

/-- The operation only appends events, and reports the first failure among them. -/
abbrev ReportsFirst {α : Type} (s : State) (c : Called α) : Prop :=
  Ends True (fun _ es => es.find? Event.isFail = none) FirstFailure s c

theorem initLines_reportsFirst (s : State) : ReportsFirst s (initLines s) :=
  Ends.guarded fun _ => by
    obtain ⟨es, -, he⟩ := attemptAll_always [.setCe .deasserted, .setClk .low, .dir .output, .wait .tCWH] s
    rw [he]
    cases hfirst : es.find? Event.isFail with
    | none => exact ⟨es, rfl, hfirst⟩
    | some ev => exact ⟨es, rfl, hfirst⟩

theorem operation_reportsFirst (i : Instr) (s : State) : ReportsFirst s (operation i s) := by
  by_cases hinit : i = .init
  · subst hinit
    exact (initLines_reportsFirst s).map _
  · cases hi : opensTransaction i with
    | true => exact (operation_reports hi s).mono (fun _ _ h => h.2) fun _ _ h => h.2
    | false => exact (operation_spares_ce hi hinit s).mono (fun _ _ h => h.2) fun _ _ h => h.2

/-- Settles O42: the events appended are those whose first failure is reported; a refused call appends none. -/
theorem firstFailureIsReported : Obligations.FirstFailureIsReported := by
  intro i s t hi hexec
  rcases (operation_reportsFirst i s).exec hexec hi with ⟨v, es, rfl, hes⟩ | ⟨e, es, rfl, hes⟩ | ⟨r, rfl⟩
  · exact ⟨es, rfl, by simp, fun _ _ => hes⟩
  · refine ⟨es, rfl, fun ev hev => ?_, by simp⟩
    obtain rfl : e = .pinFault ev := by simpa using hev
    exact hes
  · exact ⟨[], by simp, by simp, by simp⟩

/-- Settles O50: the state after some events, or that of a refused call. -/
theorem traceOnlyGrows : Obligations.TraceOnlyGrows := by
  intro i s t hexec
  by_cases hignored : ∃ x, i = .ignoredCommand x
  · obtain ⟨x, rfl⟩ := hignored
    cases hexec
    exact ⟨⟨[], by simp, rfl⟩, rfl, rfl, fun h => absurd rfl (h x)⟩
  · rcases (operation_reportsFirst i s).exec hexec (not_exists.mp hignored) with
      ⟨v, es, rfl, -⟩ | ⟨e, es, rfl, -⟩ | ⟨r, rfl⟩
    · exact ⟨⟨es, rfl, rfl⟩, rfl, rfl, fun _ => ⟨by simp, fun _ => rfl⟩⟩
    · exact ⟨⟨es, rfl, rfl⟩, rfl, rfl, fun _ => ⟨by simp, fun _ => rfl⟩⟩
    · refine ⟨⟨[], by simp, rfl⟩, rfl, rfl, fun _ => ⟨fun r' hr' => ?_, fun h => absurd rfl (h r)⟩⟩
      obtain rfl : r = r' := by simpa using hr'
      rfl

/-- Settles O4: an operation writes neither the parameters nor the pending calls, and only a refusal writes the mark. -/
theorem stepKeepsParams : Obligations.StepKeepsParams := by
  intro s t hstep
  rcases step_next hstep with ⟨hnil, rfl⟩ | ⟨i, rest, hdecode, hexec⟩
  · exact ⟨rfl, id, .inl ⟨hnil, rfl⟩⟩
  · obtain ⟨-, hparams, hcalls, hmark⟩ := traceOnlyGrows i _ t hexec
    refine ⟨hparams, fun hrefused => ?_, .inr ⟨i, by rw [hcalls]; exact hdecode⟩⟩
    by_cases hignored : ∃ x, i = .ignoredCommand x
    · obtain ⟨x, rfl⟩ := hignored
      cases hexec
      exact hrefused
    · obtain ⟨hyes, hno⟩ := hmark (not_exists.mp hignored)
      by_cases hr : ∃ r, t.outcome = some (.refused r)
      · obtain ⟨r, hr⟩ := hr
        rw [hyes r hr]
        rfl
      · rw [hno (not_exists.mp hr)]
        exact hrefused

/-! ### Which errors an operation raises -/

/-- Every error of the part meets `P`. -/
def Raises {α : Type} (P : Error → Prop) (c : Called α) : Prop := ∀ e t, c = .err e t → P e

section
variable {α β : Type} {P : Error → Prop} {c : Called α}

theorem Raises.andThen {f : α → State → Called β} (hc : Raises P c) (hf : ∀ a t, Raises P (f a t)) :
    Raises P (c.andThen f) := by
  cases c with
  | ok a t => exact hf a t
  | err e t =>
    intro e' t' h
    cases h
    exact hc e t rfl
  | refused r => exact fun _ _ h => nomatch h
  | stopped r => exact fun _ _ h => nomatch h

theorem Raises.guarded (hc : Raises P c) (cs : List (Bool × Reason)) : Raises P (guarded cs c) := by
  cases hfirst : firstRefusal cs with
  | none => rwa [guarded_admitted hfirst]
  | some r => rw [guarded_refused hfirst]; exact fun _ _ h => nomatch h

theorem Raises.map (hc : Raises P c) (f : α → β) : Raises P (c.map f) := by
  cases c with
  | err e t =>
    intro e' t' h
    cases h
    exact hc e t rfl
  | ok a t => exact fun _ _ h => nomatch h
  | refused r => exact fun _ _ h => nomatch h
  | stopped r => exact fun _ _ h => nomatch h

theorem Raises.ok (a : α) (s : State) : Raises P (.ok a s) := fun _ _ h => nomatch h

/-- The failure of a primitive call is a `PinFault`. -/
theorem Raises.called (hP : ∀ ev, P (.pinFault ev)) (r : Ran α) : Raises P r.called := by
  cases r with
  | ok a t => exact Raises.ok a t
  | fault ev t =>
    intro e t' h
    cases h
    exact hP ev

theorem Raises.withArg {f : Byte → Called α} (hf : ∀ b, Raises P (f b)) (results : List (Option Byte)) (a : Arg) :
    Raises P (withArg results a f) := by
  unfold Machine.withArg
  split
  · exact hf _
  · exact fun _ _ h => nomatch h

/-- A transaction raises what its body raises, or a `PinFault`. -/
theorem Raises.frame (hP : ∀ ev, P (.pinFault ev)) {body : State → Called α} (hbody : ∀ t, Raises P (body t))
    (s : State) : Raises P (frame body s) := by
  have hopen : Raises P (openThen body s) :=
    (Raises.called hP _).andThen fun _ t => (Raises.called hP _).andThen fun _ u => hbody u
  rw [frame_eq_closing, beforeCleanup]
  cases hc : openThen body s with
  | ok a t =>
    obtain ⟨fs, -, he⟩ := cleanup_eq none (t.setTxn false)
    simp only [Called.closed, closing, closeFrame, he, Option.none_or]
    cases fs.find? Event.isFail with
    | none => exact Raises.ok a _
    | some ev =>
      intro e t' h
      cases h
      exact hP ev
  | err e t =>
    intro e' t' h
    cases h
    exact hopen e t hc
  | refused r => exact fun _ _ h => nomatch h
  | stopped r => exact fun _ _ h => nomatch h

end

/-- The error is a `PinFault`. -/
def Error.IsPinFault (e : Error) : Prop := ∃ ev, e = .pinFault ev

theorem isPinFault (ev : Event) : (Error.pinFault ev).IsPinFault := ⟨ev, rfl⟩

theorem shiftOut_raises {P : Error → Prop} (hP : ∀ ev, P (.pinFault ev)) (v : Byte) (s : State) :
    Raises P (shiftOut v s) := (Raises.called hP _).guarded _

theorem shiftIn_raises {P : Error → Prop} (hP : ∀ ev, P (.pinFault ev)) (s : State) : Raises P (shiftIn s) :=
  (Raises.called hP _).guarded _

theorem setDirection_raises {P : Error → Prop} (hP : ∀ ev, P (.pinFault ev)) (d : Direction) (s : State) :
    Raises P (setDirection d s) := (Raises.called hP _).guarded _

theorem readRegister_raises (a : Nat) (s : State) : Raises Error.IsPinFault (readRegister a s) :=
  (Raises.frame isPinFault (fun t => (shiftOut_raises isPinFault _ t).andThen fun _ u =>
    (setDirection_raises isPinFault _ u).andThen fun _ w => shiftIn_raises isPinFault w) s).guarded _

theorem writeRegister_raises (a : Nat) (v : Byte) (s : State) : Raises Error.IsPinFault (writeRegister a v s) :=
  (Raises.frame isPinFault (fun t => (shiftOut_raises isPinFault _ t).andThen fun _ u =>
    shiftOut_raises isPinFault v u) s).guarded _

theorem writeField_raises (a : Nat) (inRange : Bool) (data : Byte) (s : State) :
    Raises Error.IsPinFault (writeField a inRange data s) := (writeRegister_raises a data s).guarded _

theorem initLines_raises (s : State) : Raises Error.IsPinFault (initLines s) := by
  refine Raises.guarded ?_ _
  split
  · intro e t h
    cases h
    exact isPinFault _
  · exact Raises.ok () _

theorem decodeField_raises (r b : Byte) (s : State) : Raises (· = .invalidBcdDigit r) (decodeField r b s) := by
  cases hd : decodeDigits b with
  | none =>
    rw [decodeField_of_none hd]
    intro e t h
    cases h
    rfl
  | some v => rw [decodeField_of_some hd]; exact Raises.ok v s

theorem encodeField_raises (P : Error → Prop) (v : Byte) (s : State) : Raises P (encodeField v s) :=
  (Raises.ok _ s).guarded _

/-- The error is a `PinFault`, or one of these calls is `decode_bcd`. -/
def Error.FaultOrDecode (cs : List BodyCall) (e : Error) : Prop := e.IsPinFault ∨ ∃ a, BodyCall.decodeBcd a ∈ cs

theorem runBodyCall_raises {cs : List BodyCall} {c : BodyCall} (hc : c ∈ cs) (results : List (Option Byte)) (s : State) :
    Raises (Error.FaultOrDecode cs) (runBodyCall results c s) := by
  have hP (ev : Event) : (Error.pinFault ev).FaultOrDecode cs := .inl ⟨ev, rfl⟩
  cases c with
  | writeByte v => exact Raises.withArg (fun b => (shiftOut_raises hP b s).andThen fun _ t => Raises.ok _ t) results v
  | readByte => exact (shiftIn_raises hP s).andThen fun _ t => Raises.ok _ t
  | setDataDirection d => exact (setDirection_raises hP d s).andThen fun _ t => Raises.ok _ t
  | decodeBcd raw => exact fun _ _ _ => .inr ⟨raw, hc⟩
  | encodeBcd v => exact Raises.withArg (fun b => (encodeField_raises _ b s).andThen fun _ t => Raises.ok _ t) results v
  | barred op => exact fun _ _ h => nomatch h

theorem runBodyCalls_raises {all cs : List BodyCall} (h : ∀ c ∈ cs, c ∈ all) (results : List (Option Byte)) (s : State) :
    Raises (Error.FaultOrDecode all) (runBodyCalls results cs s) := by
  induction cs generalizing results s with
  | nil => exact Raises.ok results s
  | cons c cs ih =>
    exact (runBodyCall_raises (h c List.mem_cons_self) results s).andThen fun r t =>
      ih (fun c' hc' => h c' (List.mem_cons_of_mem c hc')) _ t

theorem runTransaction_raises (b : Body) (s : State) : Raises (Error.FaultOrDecode b.calls) (runTransaction b s) := by
  refine Raises.guarded ?_ _
  split
  · refine Raises.frame (fun ev => .inl ⟨ev, rfl⟩) (fun t => ?_) s
    refine (runBodyCalls_raises (fun _ hc => hc) [] t).andThen fun results u => ?_
    split
    · exact Raises.ok _ u
    · exact fun _ _ h => nomatch h
  · exact fun _ _ h => nomatch h

/-- The operations that decode may report `InvalidBcdDigit`, every other only a `PinFault` (R181). -/
theorem operation_invalidDigit {i : Instr} {s t : State} {raw : Byte}
    (h : operation i s = .err (.invalidBcdDigit raw) t) :
    i = .readSeconds ∨ i = .readMinutes ∨ i = .readHours ∨ i = .decodeBcd raw ∨
      ∃ b a, i = .transaction b ∧ .decodeBcd a ∈ b.calls := by
  have noFault {P : Prop} (hf : (Error.invalidBcdDigit raw).IsPinFault) : P := by
    obtain ⟨ev, hev⟩ := hf
    cases hev
  cases i with
  | init => exact noFault ((initLines_raises s).map _ _ _ h)
  | setDataDirection d => exact noFault ((setDirection_raises isPinFault d s).map _ _ _ h)
  | writeByte v => exact noFault ((shiftOut_raises isPinFault v s).map _ _ _ h)
  | readByte => exact noFault ((shiftIn_raises isPinFault s).map _ _ _ h)
  | transaction b =>
    rcases runTransaction_raises b s _ _ h with hf | ⟨a, ha⟩
    · exact noFault hf
    · exact .inr (.inr (.inr (.inr ⟨b, a, rfl, ha⟩)))
  | readRegister a => exact noFault ((readRegister_raises a s).map _ _ _ h)
  | writeRegister a v => exact noFault ((writeRegister_raises a v s).map _ _ _ h)
  | decodeBcd b =>
    obtain rfl : raw = b := by injection (decodeField_raises b b s).map _ _ _ h
    exact .inr (.inr (.inr (.inl rfl)))
  | encodeBcd v => exact noFault ((encodeField_raises _ v s).map _ _ _ h)
  | readSeconds => exact .inl rfl
  | readMinutes => exact .inr (.inl rfl)
  | readHours => exact .inr (.inr (.inl rfl))
  | writeSeconds v ch => exact noFault ((writeField_raises 0 _ _ s).map _ _ _ h)
  | writeMinutes v => exact noFault ((writeField_raises 1 _ _ s).map _ _ _ h)
  | writeHours v m => exact noFault ((writeField_raises 2 _ _ s).map _ _ _ h)
  | ignoredCommand x => cases h
  | ramWriteCommand a => cases h
  | ramReadCommand a => cases h

theorem exec_err {i : Instr} {s t : State} {e : Error} (hexec : exec i s = .next t) (hi : ∀ x, i ≠ .ignoredCommand x)
    (hout : t.outcome = some (.err e)) : ∃ u, operation i s = .err e u ∧ t = u.setOutcome (.err e) := by
  rcases exec_next hexec hi with ⟨v, u, -, rfl⟩ | ⟨e', u, hop, rfl⟩ | ⟨r, -, rfl⟩
  · simp at hout
  · obtain rfl : e' = e := by simpa using hout
    exact ⟨u, hop, rfl⟩
  · simp at hout

/-- Settles O48: the BCD operations raise no `PinFault`, and only operations that decode raise `InvalidBcdDigit`. -/
theorem errorsByOperation : Obligations.ErrorsByOperation := by
  refine ⟨fun _ => rfl, fun _ => rfl, fun i s t ev hi hexec hout => ⟨?decode, ?encode⟩, fun i s t raw hi hexec hout => ?digit⟩
  case decode =>
    rintro b rfl
    obtain ⟨u, hop, -⟩ := exec_err hexec hi hout
    cases (decodeField_raises b b s).map _ _ _ hop
  case encode =>
    rintro v rfl
    obtain ⟨u, hop, -⟩ := exec_err hexec hi hout
    exact (encodeField_raises (fun _ => False) v s).map _ _ _ hop
  case digit =>
    obtain ⟨u, hop, -⟩ := exec_err hexec hi hout
    exact operation_invalidDigit hop

end Sys2Proof.Machine
end

section
/-! PROOFS. The byte transfers and the register accesses (40_transport.md R104, R105, 41_register_engine.md R131, R132): their
events, which are known in advance but for the first failure. -/

namespace Sys2Proof.Machine

/-! ### Byte transfers -/

theorem sampledByte_after (s : State) (es : List Event) (k : Nat) :
    sampledByte (s.after es) k = sampledByte s (es.length + k) := by
  simp only [sampledByte, State.after_drawAt, Nat.add_assoc]

theorem sampledByte_setTxn (s : State) (b : Bool) (k : Nat) : sampledByte (s.setTxn b) k = sampledByte s k := rfl

theorem bitsOf_getElem? (v : Byte) {i : Nat} (h : i < 8) : (bitsOf v)[i]? = some (v.getLsbD i) := by
  interval_cases i <;> rfl

/-- Settles O18: the bits of the byte are the samples, in their order. -/
theorem samplesStandLsbFirst : Obligations.SamplesStandLsbFirst := by
  intro s k i hi
  have hbit := bitsOf_getElem? (sampledByte s k) hi
  rw [bitsOf_sampledByte] at hbit
  simpa [hi] using hbit.symm

/-- The state after the events of a written byte. -/
theorem after_writeByte {s : State} (v : Byte) (hclk : s.clk = .known .low) : s.after (writeByteEvents v) =
    { s.played 48 (writeByteEvents v) with dout := .known (if v.getLsbD 7 then .high else .low) } :=
  State.eq_of_lines (replay_writeByte s.lines v hclk) rfl rfl rfl rfl rfl rfl rfl rfl

/-- The state after the events of a read byte. -/
theorem after_readByte {s : State} (v : Byte) (hclk : s.clk = .known .low) :
    s.after (readByteEvents v) = s.played 40 (readByteEvents v) :=
  State.eq_of_lines (replay_readByte s.lines v hclk) rfl rfl rfl rfl rfl rfl rfl rfl

theorem exec_writeByte (v : Byte) (s : State) : exec (.writeByte v) s = finish unitValue s (shiftOut v s) := rfl

theorem exec_readByte (s : State) : exec .readByte s = finish .byte s (shiftIn s) := rfl

/-- Settles O16: past its checks the call makes eight write bit cycles. -/
theorem writeByteShiftsOut : Obligations.WriteByteShiftsOut := by
  intro v s htxn hdir hclk hn
  rw [exec_writeByte, shiftOut_quiet v s htxn hdir hclk hn, after_writeByte v hclk]
  rfl

/-- Settles O17: past its checks the call makes eight read bit cycles. -/
theorem readByteShiftsIn : Obligations.ReadByteShiftsIn := by
  intro s htxn hdir hclk hn
  rw [exec_readByte, shiftIn_quiet s htxn hdir hclk hn, after_readByte _ hclk]
  rfl

/-- Settles O1: nothing is known at power-on; the events of a fault-free `init` leave the idle lines. -/
theorem powerOnAndAfterInit : Obligations.PowerOnAndAfterInit := by
  refine ⟨⟨rfl, rfl, rfl, rfl, rfl, rfl, rfl⟩, fun s htxn hn => ?_⟩
  obtain ⟨es, -, hexec, hes⟩ := (initAttemptsEveryLine s).2 htxn
  obtain rfl := hes hn
  exact ⟨_, hexec, rfl, rfl, rfl, rfl, htxn, rfl⟩

/-! ### The bodies of the register accesses -/

/-- The events of the body of `read_register` (R131). -/
def readBodyEvents (c v : Byte) : List Event := writeByteEvents c ++ ([.dir .input] ++ readByteEvents v)

/-- The events of the body of `write_register` (R132). -/
def writeBodyEvents (c v : Byte) : List Event := writeByteEvents c ++ writeByteEvents v

theorem readAccessEvents_eq (c v : Byte) :
    readAccessEvents c v = openEvents ++ readBodyEvents c v ++ closeReadEvents := by
  simp only [readAccessEvents, readBodyEvents, List.append_assoc]

theorem writeAccessEvents_eq (c v : Byte) :
    writeAccessEvents c v = openEvents ++ writeBodyEvents c v ++ closeWriteEvents := by
  simp only [writeAccessEvents, writeBodyEvents, List.append_assoc]

theorem opened_after (s : State) (es : List Event) : s.opened.after es = (s.after (openEvents ++ es)).setTxn true := by
  rw [State.opened, State.after_setTxn, State.after_after]

section
variable {s : State} (hs : s.Idle)
include hs

theorem writeBody_plays (c v : Byte) : Plays (writeBodyEvents c v) () s.opened (writeBody c v s.opened) := by
  obtain ⟨-, hclk, hdir, -⟩ := hs
  have hlines : (s.opened.after (writeByteEvents c)).lines = _ := replay_writeByte s.opened.lines c hclk
  have hclk' : (s.opened.after (writeByteEvents c)).clk = .known .low := (congrArg Lines.clk hlines).trans hclk
  have hdir' : (s.opened.after (writeByteEvents c)).dir = .known .output := (congrArg Lines.dir hlines).trans hdir
  unfold writeBodyEvents writeBody
  exact (shiftOut_plays c (s := s.opened) rfl hdir hclk).andThen (shiftOut_plays v rfl hdir' hclk')

theorem readBody_plays (c : Byte) : Plays (readBodyEvents c (sampledByte s 51)) (sampledByte s 51) s.opened
    (readBody c s.opened) := by
  obtain ⟨-, hclk, hdir, -⟩ := hs
  have hlines : (s.opened.after (writeByteEvents c)).lines = _ := replay_writeByte s.opened.lines c hclk
  have hclk' : (s.opened.after (writeByteEvents c)).clk = .known .low := (congrArg Lines.clk hlines).trans hclk
  have hce' : (s.opened.after (writeByteEvents c)).ce = .known .asserted := congrArg Lines.ce hlines
  unfold readBodyEvents readBody
  refine (shiftOut_plays c (s := s.opened) rfl hdir hclk).andThen ((setDirection_plays ?_).andThen ?_)
  · exact directionRefusals_admit hclk' (by rw [hce']; simp) (by simp)
  · have hsample : sampledByte ((s.opened.after (writeByteEvents c)).after [.dir .input]) 0 = sampledByte s 51 := by
      rw [State.after_after, opened_after, sampledByte_setTxn, sampledByte_after]
      rfl
    rw [← hsample]
    exact shiftIn_plays rfl rfl hclk'

theorem replay_writeBody (c v : Byte) : s.lines.replay (openEvents ++ writeBodyEvents c v) =
    { s.opened.lines with dout := .known (if v.getLsbD 7 then .high else .low) } := by
  rw [Lines.replay_append, writeBodyEvents, Lines.replay_append, replay_writeByte _ c hs.2.1, replay_writeByte _ v hs.2.1]
  rfl

theorem replay_readBody (c v : Byte) : s.lines.replay (openEvents ++ readBodyEvents c v) =
    { s.opened.lines with dir := .known .input, dout := .unknown } := by
  rw [Lines.replay_append, readBodyEvents, Lines.replay_append, Lines.replay_append, replay_writeByte _ c hs.2.1,
    replay_readByte _ v hs.2.1]
  rfl

theorem cleanupEvents_writeBody (c v : Byte) :
    cleanupEvents (s.lines.replay (openEvents ++ writeBodyEvents c v)) = closeWriteEvents := by
  have hclk : s.opened.lines.clk = .known .low := hs.2.1
  have hdir : s.opened.lines.dir = .known .output := hs.2.2.1
  rw [replay_writeBody hs]
  simp [cleanupEvents, hclk, hdir, closeWriteEvents]

theorem cleanupEvents_readBody (c v : Byte) :
    cleanupEvents (s.lines.replay (openEvents ++ readBodyEvents c v)) = closeReadEvents := by
  have hclk : s.opened.lines.clk = .known .low := hs.2.1
  rw [replay_readBody hs]
  simp [cleanupEvents, hclk, closeReadEvents]

/-! ### The lines after a whole access -/

theorem replay_writeAccess (c v : Byte) : s.lines.replay (writeAccessEvents c v) =
    { s.lines with dout := .known (if v.getLsbD 7 then .high else .low) } := by
  rw [writeAccessEvents_eq, Lines.replay_append, replay_writeBody hs, State.opened_lines]
  simp [closeWriteEvents, Lines.next, State.lines, hs.1]

theorem replay_readAccess (c v : Byte) : s.lines.replay (readAccessEvents c v) = { s.lines with dout := .unknown } := by
  rw [readAccessEvents_eq, Lines.replay_append, replay_readBody hs, State.opened_lines]
  simp [closeReadEvents, Lines.next, State.lines, hs.1, hs.2.2.1]

theorem after_writeAccess (c v : Byte) :
    (s.after (writeAccessEvents c v)).setOutcome (.ok .unit) = afterWrite s c v :=
  State.eq_of_lines (replay_writeAccess hs c v) rfl rfl rfl rfl rfl rfl rfl rfl

theorem after_readAccess (c : Byte) (r : Result) :
    (s.after (readAccessEvents c (sampledByte s 51))).setOutcome r = afterRead s c r :=
  State.eq_of_lines (replay_readAccess hs c (sampledByte s 51)) rfl rfl rfl rfl rfl rfl rfl rfl

end

/-! ### The accesses when no call fails -/

theorem addressRefusals_admit {a : Nat} (ha : a ≤ 31) : firstRefusal (addressRefusals a) = none := by
  simp [addressRefusals, firstRefusal, ha]

theorem accessRefusals_admit {a : Nat} {s : State} (ha : a ≤ 31) (hs : s.Idle) :
    firstRefusal (addressRefusals a ++ transactionRefusals s) = none :=
  firstRefusal_append_eq_none.mpr ⟨addressRefusals_admit ha, transactionRefusals_admit hs⟩

/-- The checks of a register access let it run only for an address of 5 bits and from the idle lines (R130). -/
theorem accessRefusals_eq_none {a : Nat} {s : State}
    (h : firstRefusal (addressRefusals a ++ transactionRefusals s) = none) : a ≤ 31 ∧ s.Idle := by
  obtain ⟨haddress, hidle⟩ := firstRefusal_append_eq_none.mp h
  have hle : ¬ 31 < a := of_decide_eq_false (firstRefusal_eq_none_iff.mp haddress _ List.mem_cons_self)
  exact ⟨by omega, transactionRefusals_eq_none hidle⟩

theorem State.Idle.setTxn_after {s : State} (hs : s.Idle) (es : List Event) : (s.after es).setTxn false = s.after es :=
  State.eq_of_lines rfl hs.2.2.2.symm rfl rfl rfl rfl rfl rfl rfl

/-- A transaction whose body's events are known in advance, when no call fails. -/
theorem frame_plays_quiet {α : Type} {es : List Event} {a : α} {body : State → Called α} {s : State} (hs : s.Idle)
    (hbody : Plays es a s.opened (body s.opened))
    (hn : NoFailure s (2 + es.length + (cleanupEvents (s.lines.replay (openEvents ++ es))).length)) :
    frame body s = .ok a (s.after (openEvents ++ es ++ cleanupEvents (s.lines.replay (openEvents ++ es)))) := by
  have hq : NoFailure s.opened es.length := (hn.after openEvents (by simp [openEvents])).setTxn true
  have hok := hbody.eq_ok (Succeeds.of_noFailure hq)
  rw [opened_after] at hok
  rw [frame_quiet body s a es hn hok, hs.setTxn_after]

theorem readRegister_quiet {a : Nat} {s : State} (ha : a ≤ 31) (hs : s.Idle) (hn : NoFailure s 95) :
    readRegister a s = .ok (sampledByte s 51) (s.after (readAccessEvents (cmdByte a .read) (sampledByte s 51))) := by
  have hframe := frame_plays_quiet hs (readBody_plays hs (cmdByte a .read))
    (by rw [cleanupEvents_readBody hs]; exact hn)
  rw [readRegister, guarded_admitted (accessRefusals_admit ha hs), readAccessEvents_eq, hframe, cleanupEvents_readBody hs]

theorem writeRegister_quiet {a : Nat} {s : State} (v : Byte) (ha : a ≤ 31) (hs : s.Idle) (hn : NoFailure s 101) :
    writeRegister a v s = .ok () (s.after (writeAccessEvents (cmdByte a .write) v)) := by
  have hframe := frame_plays_quiet hs (writeBody_plays hs (cmdByte a .write) v)
    (by rw [cleanupEvents_writeBody hs]; exact hn)
  rw [writeRegister, guarded_admitted (accessRefusals_admit ha hs), writeAccessEvents_eq, hframe,
    cleanupEvents_writeBody hs]

theorem exec_readRegister (a : Nat) (s : State) : exec (.readRegister a) s = finish .byte s (readRegister a s) := rfl

theorem exec_writeRegister (a : Nat) (v : Byte) (s : State) :
    exec (.writeRegister a v) s = finish unitValue s (writeRegister a v s) := rfl

/-- Settles O24: the transaction of the read's body, and the lines after it. -/
theorem readRegisterReturnsSamples : Obligations.ReadRegisterReturnsSamples := by
  intro a s ha hs hn
  rw [exec_readRegister, readRegister_quiet ha hs hn, finish, after_readAccess hs]

/-- Settles O25: the transaction of the write's body, and the lines after it. -/
theorem writeRegisterSendsByte : Obligations.WriteRegisterSendsByte := by
  intro a v s ha hs hn
  rw [exec_writeRegister, writeRegister_quiet v ha hs hn, finish, unitValue, after_writeAccess hs]

/-! ### The accesses whatever fails -/

/-- A transaction whose body's events are known in advance: it returns with all of them and a full cleanup, or reports a
`PinFault`. -/
theorem frame_plays_ends {α : Type} {es : List Event} {a : α} {body : State → Called α} {s : State} (hs : s.Idle)
    (hbody : Plays es a s.opened (body s.opened)) :
    Ends True (fun b fs => b = a ∧ fs = openEvents ++ es ++ cleanupEvents (s.lines.replay (openEvents ++ es)))
      (fun e _ => e.IsPinFault) s (frame body s) := by
  rw [frame_eq_closing]
  have hends := closing_ends hs.2.2.2 ((beforeCleanup_plays hs.2.2.2 hbody).ends (stop := True)
    (Ok := fun b bs => b = a ∧ bs = openEvents ++ es) (Err := fun e _ => e.IsPinFault) ⟨rfl, rfl⟩
    fun _ p _ => isPinFault (.fail p))
  refine hends.mono ?_ ?_
  · rintro b _ ⟨bs, fs, rfl, ⟨rfl, rfl⟩, hfs, hq⟩
    exact ⟨rfl, by rw [← hfs.eq_of_quiet hq]⟩
  · rintro e _ ⟨bs, fs, rfl, -, he | ⟨-, ev, -, rfl, -⟩⟩
    · exact he
    · exact isPinFault ev

/-- A read that returns was admitted, no call of it failed, and it returns the byte sampled. -/
theorem readRegister_ends (a : Nat) (s : State) :
    Ends True (fun b es => a ≤ 31 ∧ s.Idle ∧ b = sampledByte s 51 ∧
      es = readAccessEvents (cmdByte a .read) (sampledByte s 51)) (fun e _ => e.IsPinFault) s (readRegister a s) :=
  Ends.guarded fun h => by
    obtain ⟨ha, hs⟩ := accessRefusals_eq_none h
    refine (frame_plays_ends hs (readBody_plays hs _)).mono (fun b es ⟨hb, hes⟩ => ⟨ha, hs, hb, ?_⟩) fun _ _ he => he
    rw [hes, cleanupEvents_readBody hs, ← readAccessEvents_eq]

theorem writeRegister_ends (a : Nat) (v : Byte) (s : State) :
    Ends True (fun _ es => a ≤ 31 ∧ s.Idle ∧ es = writeAccessEvents (cmdByte a .write) v)
      (fun e _ => e.IsPinFault) s (writeRegister a v s) :=
  Ends.guarded fun h => by
    obtain ⟨ha, hs⟩ := accessRefusals_eq_none h
    refine (frame_plays_ends hs (writeBody_plays hs _ v)).mono (fun _ es ⟨_, hes⟩ => ⟨ha, hs, ?_⟩) fun _ _ he => he
    rw [hes, cleanupEvents_writeBody hs, ← writeAccessEvents_eq]

/-- The lines of an access that leaves the idle lines idle. -/
def KeepsIdle (s : State) (es : List Event) : Prop :=
  (s.lines.replay es).ce = s.ce ∧ (s.lines.replay es).clk = s.clk ∧ (s.lines.replay es).dir = s.dir

theorem writeRegister_keepsIdle (a : Nat) (v : Byte) (s : State) :
    Ends True (fun _ => KeepsIdle s) (fun e _ => e.IsPinFault) s (writeRegister a v s) :=
  (writeRegister_ends a v s).mono (fun _ es ⟨_, hs, hes⟩ => by
    rw [hes, KeepsIdle, replay_writeAccess hs]
    exact ⟨rfl, rfl, rfl⟩) fun _ _ he => he

theorem readRegister_keepsIdle (a : Nat) (s : State) :
    Ends True (fun _ => KeepsIdle s) (fun e _ => e.IsPinFault) s (readRegister a s) :=
  (readRegister_ends a s).mono (fun _ es ⟨_, hs, _, hes⟩ => by
    rw [hes, KeepsIdle, replay_readAccess hs]
    exact ⟨rfl, rfl, rfl⟩) fun _ _ he => he

/-- A time read keeps the idle lines also where it reports `InvalidBcdDigit`. -/
theorem readField_keepsIdle (a : Nat) (field : Byte → Byte) (value : Byte → Byte → Value) (s : State) :
    Ends True (fun _ => KeepsIdle s) (fun e es => e.IsPinFault ∨ KeepsIdle s es) s (readField a field value s) := by
  refine Ends.andThen (Ok := fun _ => KeepsIdle s)
    ((readRegister_keepsIdle a s).mono (fun _ _ h => h) fun _ _ he => .inl he) fun raw es hes => ?_
  cases h : decodeDigits (field raw) with
  | none =>
    rw [decodeField_of_none h]
    exact ⟨[], by simp, .inr (by simpa using hes)⟩
  | some v =>
    rw [decodeField_of_some h]
    exact ⟨[], by simp, by simpa using hes⟩

theorem writeField_keepsIdle (a : Nat) (inRange : Bool) (data : Byte) (s : State) :
    Ends True (fun _ => KeepsIdle s) (fun e _ => e.IsPinFault) s (writeField a inRange data s) :=
  Ends.guarded fun _ => writeRegister_keepsIdle a data s

theorem operation_keepsIdle {i : Instr} (hi : opensTransaction i = true) (hbody : ∀ b, i ≠ .transaction b) (s : State) :
    Ends True (fun _ => KeepsIdle s) (fun e es => e.IsPinFault ∨ KeepsIdle s es) s (operation i s) := by
  have weaken {c : Called Unit} (h : Ends True (fun _ => KeepsIdle s) (fun e _ => e.IsPinFault) s c) :
      Ends True (fun _ => KeepsIdle s) (fun e es => e.IsPinFault ∨ KeepsIdle s es) s (c.map unitValue) :=
    (h.mono (fun _ _ h => h) fun _ _ he => Or.inl he).map unitValue
  cases i with
  | transaction b => exact absurd rfl (hbody b)
  | readRegister a => exact ((readRegister_keepsIdle a s).mono (fun _ _ h => h) fun _ _ he => Or.inl he).map _
  | writeRegister a v => exact weaken (writeRegister_keepsIdle a v s)
  | readSeconds => exact readField_keepsIdle 0 _ _ s
  | readMinutes => exact readField_keepsIdle 1 _ _ s
  | readHours => exact readField_keepsIdle 2 _ _ s
  | writeSeconds v ch => exact weaken (writeField_keepsIdle 0 _ _ s)
  | writeMinutes v => exact weaken (writeField_keepsIdle 1 _ _ s)
  | writeHours v m => exact weaken (writeField_keepsIdle 2 _ _ s)
  | init | setDataDirection _ | writeByte _ | readByte | decodeBcd _ | encodeBcd _ | ignoredCommand _
  | ramWriteCommand _ | ramReadCommand _ => cases hi

/-- Settles O52: an access without a failure ends with a full cleanup, and the decode after it changes nothing. -/
theorem registerFrames : Obligations.RegisterFrames := by
  intro i s t hi hexec hfault hbody
  rcases (operation_keepsIdle hi hbody s).exec hexec (not_ignored_of_opens hi) with
    ⟨v, es, rfl, hce, hclk, hdir⟩ | ⟨e, es, rfl, ⟨ev, rfl⟩ | ⟨hce, hclk, hdir⟩⟩ | ⟨r, rfl⟩
  · exact ⟨hce, hclk, hdir, rfl, rfl, rfl⟩
  · exact absurd rfl (hfault ev)
  · exact ⟨hce, hclk, hdir, rfl, rfl, rfl⟩
  · exact ⟨rfl, rfl, rfl, rfl, rfl, rfl⟩

/-! ### The accesses whose first failure is known -/

/-- A transaction whose body's events are known in advance, at its first failure; no call of its cleanup fails. -/
theorem frame_plays_fails {α : Type} {es fs : List Event} {a : α} {body : State → Called α} {s : State} {k : Nat}
    {p : Prim} (hs : s.Idle) (hbody : Plays es a s.opened (body s.opened)) (hk : k < (openEvents ++ es).length)
    (hp : (((openEvents ++ es ++ fs))[k]?).map Event.prim = some p) (hbefore : NoFailure s k) (hfails : CallFails s k p)
    (hafter : QuietFrom s (k + 1) 5) :
    frame body s = .err (.pinFault (.fail p)) (s.after (faultedEvents s.lines (openEvents ++ es ++ fs) k p)) := by
  have htake : (openEvents ++ es ++ fs).take k = (openEvents ++ es).take k :=
    List.take_append_of_le_length (Nat.le_of_lt hk)
  have hlen : ((openEvents ++ es).take k).length = k := List.length_take_of_le (Nat.le_of_lt hk)
  have hfirst : FailsFirst s (openEvents ++ es) k p :=
    ⟨by rwa [List.getElem?_append_left hk] at hp, Succeeds.of_noFailure (by rwa [hlen]), hfails⟩
  have hquiet : NoFailure (s.after ((openEvents ++ es).take k ++ [.fail p])) 5 := by
    intro j hj hdraw
    have hlen' : ((openEvents ++ es).take k ++ [Event.fail p]).length = k + 1 := by simp [hlen]
    rw [State.after_drawAt, hlen', hafter (k + 1 + j) (by omega) (by omega)] at hdraw
    cases hdraw
  rw [frame_eq_closing, (beforeCleanup_plays hs.2.2.2 hbody).eq_err hfirst, closing, abortFrame,
    cleanup_quiet _ _ (hquiet.mono (cleanupEvents_length _)), State.after_after, hs.setTxn_after, faultedEvents, htake]
  rfl

theorem faultedEvents_idle {s : State} (hs : s.Idle) (es : List Event) (k : Nat) (p : Prim) (r : Result) :
    (afterEvents s (faultedEvents s.lines es k p) r).Idle := by
  obtain ⟨hce, hclk, hdir⟩ := replay_cleanupEvents (s.lines.replay (es.take k ++ [.fail p]))
  rw [← Lines.replay_append] at hce hclk hdir
  exact ⟨hce, hclk, hdir, hs.2.2.2⟩

/-- A place among the first events of a list is a place of the list. -/
theorem place_of_take {es : List Event} {n k : Nat} {p : Prim} (h : ((es.take n)[k]?).map Event.prim = some p) :
    k < n ∧ (es[k]?).map Event.prim = some p := by
  obtain ⟨e, he, -⟩ := Option.map_eq_some_iff.mp h
  obtain ⟨hk, -⟩ := List.getElem?_eq_some_iff.mp he
  have hkn : k < n := by
    rw [List.length_take] at hk
    omega
  exact ⟨hkn, by rwa [List.getElem?_take_of_lt hkn] at h⟩

/-- Settles O43: the body ends at the failing call, and the cleanup succeeds. -/
theorem writeFaultRunsCleanup : Obligations.WriteFaultRunsCleanup := by
  intro a v s k p ha hs hp hbefore hfails hafter
  obtain ⟨hk, hp⟩ := place_of_take hp
  rw [writeAccessEvents_eq] at hp ⊢
  have hframe := frame_plays_fails hs (writeBody_plays hs (cmdByte a .write) v) hk hp hbefore hfails hafter
  refine ⟨_, ?_, faultedEvents_idle hs _ k p _, rfl⟩
  rw [exec_writeRegister, writeRegister, guarded_admitted (accessRefusals_admit ha hs), hframe]
  rfl

/-- Settles O44: the body ends at the failing call, and the cleanup succeeds. -/
theorem readFaultRunsCleanup : Obligations.ReadFaultRunsCleanup := by
  intro a s k p ha hs hp hbefore hfails hafter
  obtain ⟨hk, hp⟩ := place_of_take hp
  rw [readAccessEvents_eq] at hp ⊢
  have hframe := frame_plays_fails hs (readBody_plays hs (cmdByte a .read)) hk hp hbefore hfails hafter
  refine ⟨_, ?_, faultedEvents_idle hs _ k p _, rfl⟩
  rw [exec_readRegister, readRegister, guarded_admitted (accessRefusals_admit ha hs), hframe]
  rfl

end Sys2Proof.Machine
end

section
/-! PROOFS. BCD and the time fields (41_register_engine.md R135, 42_time_fields.md): the bijection of digits and values, the
fault-free time operations, and the values that a read can return. -/

namespace Sys2Proof.Machine

/-! ### BCD -/

theorem encodeDigits_toNat {v : Byte} (hv : v.toNat ≤ 99) : (encodeDigits v).toNat = 16 * (v.toNat / 10) + v.toNat % 10 := by
  rw [encodeDigits_eq_ofNat, BitVec.toNat_ofNat]
  omega

theorem decodeDigits_eq_none_iff {b : Byte} : decodeDigits b = none ↔ b.toNat / 16 > 9 ∨ b.toNat % 16 > 9 := by
  refine ⟨fun h => ?_, decodeDigits_of_digit_gt⟩
  by_contra hle
  rw [decodeDigits_of_digits_le (by omega) (by omega)] at h
  cases h

theorem decodeDigits_eq_some_iff {b v : Byte} :
    decodeDigits b = some v ↔ b.toNat / 16 ≤ 9 ∧ b.toNat % 16 ≤ 9 ∧ v.toNat = 10 * (b.toNat / 16) + b.toNat % 16 := by
  by_cases hdigit : b.toNat / 16 > 9 ∨ b.toNat % 16 > 9
  · rw [decodeDigits_of_digit_gt hdigit]
    exact ⟨fun h => (nomatch h), fun ⟨_, _, _⟩ => by omega⟩
  · have hvalue : (BitVec.ofNat 8 (10 * (b.toNat / 16) + b.toNat % 16)).toNat = 10 * (b.toNat / 16) + b.toNat % 16 := by
      rw [BitVec.toNat_ofNat]
      omega
    rw [decodeDigits_of_digits_le (by omega) (by omega), Option.some.injEq]
    exact ⟨fun h => ⟨by omega, by omega, h ▸ hvalue⟩, fun ⟨_, _, h⟩ => BitVec.eq_of_toNat_eq (hvalue.trans h.symm)⟩

theorem decodeDigits_encodeDigits {v : Byte} (hv : v.toNat ≤ 99) : decodeDigits (encodeDigits v) = some v := by
  rw [decodeDigits_eq_some_iff, encodeDigits_toNat hv]
  omega

theorem encodeDigits_of_decodeDigits {b v : Byte} (h : decodeDigits b = some v) : encodeDigits v = b := by
  obtain ⟨htens, hunits, hv⟩ := decodeDigits_eq_some_iff.mp h
  apply BitVec.eq_of_toNat_eq
  rw [encodeDigits_toNat (by omega), hv]
  omega

theorem decodeDigits_le {b v : Byte} (h : decodeDigits b = some v) : v.toNat ≤ 99 := by
  obtain ⟨htens, hunits, hv⟩ := decodeDigits_eq_some_iff.mp h
  omega

/-- Settles O29: the two functions are inverse to each other on the valid bytes and the values up to 99. -/
theorem bcdLaws : Obligations.BcdLaws := by
  refine ⟨fun v hv => decodeDigits_encodeDigits hv, fun b htens hunits => ?_, ⟨fun b c v hb hc => ?_,
    fun b v h => decodeDigits_le h, fun v hv => ⟨encodeDigits v, ?_, ?_, decodeDigits_encodeDigits hv⟩⟩, fun b => ?_⟩
  · have hdecode := decodeDigits_of_digits_le htens hunits
    rw [hdecode, Option.map_some, encodeDigits_of_decodeDigits hdecode]
  · exact (encodeDigits_of_decodeDigits hb).symm.trans (encodeDigits_of_decodeDigits hc)
  · rw [encodeDigits_toNat hv]
    omega
  · rw [encodeDigits_toNat hv]
    omega
  · split
    next hdigit => exact decodeDigits_of_digit_gt hdigit
    next hdigit => exact decodeDigits_of_digits_le (by omega) (by omega)

/-! ### Fault-free time operations -/

/-- Settles O30: the register read of address 0, decoded. -/
theorem readSecondsResult : Obligations.ReadSecondsResult := by
  intro s hs hn raw
  rw [(timeReadsAreDecodedRegisterReads s).1, readRegisterReturnsSamples 0 s (by omega) hs hn]
  rfl

/-- Settles O31: the register read of address 1, decoded. -/
theorem readMinutesResult : Obligations.ReadMinutesResult := by
  intro s hs hn raw
  rw [(timeReadsAreDecodedRegisterReads s).2.1, readRegisterReturnsSamples 1 s (by omega) hs hn]
  rfl

/-- Settles O32: the register read of address 2, decoded by the mode bit. -/
theorem readHoursResult : Obligations.ReadHoursResult := by
  intro s hs hn raw
  rw [(timeReadsAreDecodedRegisterReads s).2.2, readRegisterReturnsSamples 2 s (by omega) hs hn]
  rfl

/-- Settles O33: the register write of address 0. -/
theorem writeSecondsSendsByte : Obligations.WriteSecondsSendsByte := by
  intro v ch s hv hs hn
  rw [timeWritesAreRegisterWrites.1, if_pos hv, writeRegisterSendsByte 0 _ s (by omega) hs hn]
  rfl

/-- Settles O34: the register write of address 1. -/
theorem writeMinutesSendsByte : Obligations.WriteMinutesSendsByte := by
  intro v s hv hs hn
  rw [timeWritesAreRegisterWrites.2.1, if_pos hv, writeRegisterSendsByte 1 _ s (by omega) hs hn]
  rfl

/-- Settles O35: the register write of address 2, in either mode. -/
theorem writeHoursSendsByte : Obligations.WriteHoursSendsByte := by
  refine ⟨fun h s hh hs hn => ?_, fun h pm s hlow hhigh hs hn => ?_⟩
  · rw [timeWritesAreRegisterWrites.2.2.1, if_pos hh, writeRegisterSendsByte 2 _ s (by omega) hs hn]
    rfl
  · rw [timeWritesAreRegisterWrites.2.2.2, if_pos ⟨hlow, hhigh⟩, writeRegisterSendsByte 2 _ s (by omega) hs hn]
    rfl

/-! ### A run that reads a given byte -/

/-- An idle state in which no call can fail, and whose draws give a register read this byte: the read takes sample `i` by the
call `51 + 5 * i` places ahead. -/
def State.reading (v : Byte) : State :=
  { State.reset with
    ce := .known .deasserted
    clk := .known .low
    dir := .known .output
    params := { State.reset.params with pinCanFail := false, delayCanFail := false }
    draws := (List.range 91).map fun k => ⟨false, v.getLsbD ((k - 51) / 5)⟩ }

theorem reading_idle (v : Byte) : (State.reading v).Idle := ⟨rfl, rfl, rfl, rfl⟩

theorem reading_noFailure (v : Byte) (n : Nat) : NoFailure (State.reading v) n := fun _ _ _ => ⟨rfl, rfl⟩

theorem reading_drawAt (v : Byte) {i : Nat} (hi : i < 8) : ((State.reading v).drawAt (51 + 5 * i)).bit = v.getLsbD i := by
  have hget : (State.reading v).draws[51 + 5 * i]? = some ⟨false, v.getLsbD i⟩ := by
    have hbit : (51 + 5 * i - 51) / 5 = i := by omega
    have hlt : 51 + 5 * i < 91 := by omega
    simp only [State.reading, List.getElem?_map, List.getElem?_range hlt, Option.map_some, hbit]
  rw [State.drawAt, hget]

theorem byteOf_bitsOf : ∀ v : Byte, byteOf (bitsOf v) = v := by decide

theorem reading_sampledByte (v : Byte) : sampledByte (State.reading v) 51 = v := by
  have hbits : ((List.range 8).map fun i => ((State.reading v).drawAt (51 + 5 * i)).bit) = bitsOf v :=
    (List.map_congr_left fun i hi => reading_drawAt v (List.mem_range.mp hi)).trans rfl
  rw [sampledByte, hbits, byteOf_bitsOf]

/-- Settles O26: the samples are free, so that some draws give the byte. -/
theorem everyByteCanBeRead : Obligations.EveryByteCanBeRead := by
  intro a v ha
  refine ⟨State.reading v, _, reading_idle v, reading_noFailure v 95,
    readRegisterReturnsSamples a _ ha (reading_idle v) (reading_noFailure v 95), ?_⟩
  rw [reading_sampledByte]
  rfl

/-! ### Values outside the time range -/

theorem getLsbD_eq_decide (b : Byte) (i : Nat) : b.getLsbD i = decide (b.toNat / 2 ^ i % 2 = 1) := by
  rw [BitVec.getLsbD, Nat.testBit_eq_decide_div_mod_eq]

/-- The value of the digits of `v`. -/
theorem ofNat_digits {v : Byte} {x y : Nat} (hx : x = v.toNat / 10) (hy : y = v.toNat % 10) :
    BitVec.ofNat 8 (10 * x + y) = v := by
  apply BitVec.eq_of_toNat_eq
  rw [BitVec.toNat_ofNat]
  omega

/-- What a read of seconds makes of a byte (R150). -/
def secondsResult (raw : Byte) : Result :=
  if raw.toNat % 16 > 9 then .err (.invalidBcdDigit raw)
  else .ok (.byte (BitVec.ofNat 8 (10 * (raw.toNat / 16 % 8) + raw.toNat % 16)))

/-- A byte with the digits of `v` below the clock-halt bit. -/
theorem secondsResult_digits {raw v : Byte} (hraw : raw.toNat % 128 = 16 * (v.toNat / 10) + v.toNat % 10) :
    secondsResult raw = .ok (.byte v) := by
  rw [secondsResult, if_neg (by omega), ofNat_digits (v := v) (by omega) (by omega)]

/-- What a read of minutes makes of a byte (R151). -/
def minutesResult (raw : Byte) : Result :=
  if raw.toNat / 16 > 9 ∨ raw.toNat % 16 > 9 then .err (.invalidBcdDigit raw)
  else .ok (.byte (BitVec.ofNat 8 (10 * (raw.toNat / 16) + raw.toNat % 16)))

/-- A byte with the digits of `v`. -/
theorem minutesResult_digits {raw v : Byte} (hv : v.toNat ≤ 99)
    (hraw : raw.toNat = 16 * (v.toNat / 10) + v.toNat % 10) : minutesResult raw = .ok (.byte v) := by
  rw [minutesResult, if_neg (by omega), ofNat_digits (v := v) (by omega) (by omega)]

/-- What a read of hours makes of a byte (R152). -/
def hoursResult (raw : Byte) : Result :=
  if raw.toNat % 16 > 9 then .err (.invalidBcdDigit raw)
  else if raw.getLsbD 7 = true then
    .ok (.hours (BitVec.ofNat 8 (10 * (raw.toNat / 16 % 2) + raw.toNat % 16)) (some (raw.getLsbD 5)))
  else .ok (.hours (BitVec.ofNat 8 (10 * (raw.toNat / 16 % 4) + raw.toNat % 16)) none)

/-- A byte in 12-hour mode with the digits of `h` below the PM flag. -/
theorem hoursResult_h12 {raw h : Byte} {pm : Bool} (hh : h.toNat ≤ 19)
    (hraw : raw.toNat = 128 + (if pm then 32 else 0) + 16 * (h.toNat / 10) + h.toNat % 10) :
    hoursResult raw = .ok (.hours h (some pm)) := by
  obtain ⟨flag, hflag, hraw⟩ : ∃ flag : Nat, pm = decide (flag = 1) ∧ flag ≤ 1 ∧
      raw.toNat = 128 + 32 * flag + 16 * (h.toNat / 10) + h.toNat % 10 := by
    cases pm with
    | false => exact ⟨0, rfl, by omega, hraw⟩
    | true => exact ⟨1, rfl, by omega, hraw⟩
  have hmode : raw.getLsbD 7 = true := by
    rw [getLsbD_eq_decide, decide_eq_true_eq]
    omega
  have hpm : raw.getLsbD 5 = pm := by
    rw [getLsbD_eq_decide, hflag, decide_eq_decide]
    have htens : h.toNat / 10 = 0 ∨ h.toNat / 10 = 1 := by omega
    rcases htens with htens | htens <;> omega
  rw [hoursResult, if_neg (by omega), if_pos hmode, hpm, ofNat_digits (v := h) (by omega) (by omega)]

/-- A byte in 24-hour mode with the digits of `h`. -/
theorem hoursResult_h24 {raw h : Byte} (hh : h.toNat ≤ 39) (hraw : raw.toNat = 16 * (h.toNat / 10) + h.toNat % 10) :
    hoursResult raw = .ok (.hours h none) := by
  have hmode : ¬ raw.getLsbD 7 = true := by
    rw [getLsbD_eq_decide, decide_eq_true_eq]
    omega
  rw [hoursResult, if_neg (by omega), if_neg hmode, ofNat_digits (v := h) (by omega) (by omega)]

/-- Settles O38: the run in which the register holds the digits of the value. -/
theorem outOfRangeValuesAreReturned : Obligations.OutOfRangeValuesAreReturned := by
  have hdigits {n : Nat} (hn : n < 256) : (BitVec.ofNat 8 n).toNat = n := by
    rw [BitVec.toNat_ofNat]
    omega
  refine ⟨fun v _ hv => ?seconds, fun v _ hv => ?minutes, fun h pm hh => ?hours12, fun h _ hh => ?hours24⟩
  case seconds =>
    let raw : Byte := BitVec.ofNat 8 (16 * (v.toNat / 10) + v.toNat % 10)
    have hraw : raw.toNat = _ := hdigits (by omega)
    refine ⟨_, _, readSecondsResult _ (reading_idle raw) (reading_noFailure raw 95), ?_⟩
    rw [reading_sampledByte]
    exact congrArg some (secondsResult_digits (by omega))
  case minutes =>
    let raw : Byte := BitVec.ofNat 8 (16 * (v.toNat / 10) + v.toNat % 10)
    refine ⟨_, _, readMinutesResult _ (reading_idle raw) (reading_noFailure raw 95), ?_⟩
    rw [reading_sampledByte]
    exact congrArg some (minutesResult_digits hv (hdigits (by omega)))
  case hours12 =>
    let raw : Byte := BitVec.ofNat 8 (128 + (if pm then 32 else 0) + 16 * (h.toNat / 10) + h.toNat % 10)
    refine ⟨_, _, readHoursResult _ (reading_idle raw) (reading_noFailure raw 95), ?_⟩
    rw [reading_sampledByte]
    exact congrArg some (hoursResult_h12 (by omega) (hdigits (by cases pm <;> simp <;> omega)))
  case hours24 =>
    let raw : Byte := BitVec.ofNat 8 (16 * (h.toNat / 10) + h.toNat % 10)
    refine ⟨_, _, readHoursResult _ (reading_idle raw) (reading_noFailure raw 95), ?_⟩
    rw [reading_sampledByte]
    exact congrArg some (hoursResult_h24 hh (hdigits (by omega)))

/-! ### A digit above 9 -/

/-- The decode that reports `InvalidBcdDigit` comes after the access has ended, and holds the byte sampled. -/
theorem readField_invalidDigit {a : Nat} {field : Byte → Byte} {value : Byte → Byte → Value} {s u : State} {raw : Byte}
    (h : readField a field value s = .err (.invalidBcdDigit raw) u) :
    u.Idle ∧ raw = sampledByte s 51 ∧ decodeDigits (field raw) = none := by
  have hends := readRegister_ends a s
  unfold readField at h
  cases hread : readRegister a s with
  | ok b t =>
    rw [hread] at h hends
    obtain ⟨es, rfl, -, hs, rfl, rfl⟩ := hends
    simp only [Called.andThen] at h
    cases hd : decodeDigits (field (sampledByte s 51)) with
    | none =>
      rw [decodeField_of_none hd] at h
      cases h
      have hlines := replay_readAccess hs (cmdByte a .read) (sampledByte s 51)
      obtain ⟨hce, hclk, hdir, htxn⟩ := hs
      exact ⟨⟨(congrArg Lines.ce hlines).trans hce, (congrArg Lines.clk hlines).trans hclk,
        (congrArg Lines.dir hlines).trans hdir, htxn⟩, rfl, hd⟩
    | some v =>
      rw [decodeField_of_some hd] at h
      cases h
  | err e t =>
    rw [hread] at h hends
    obtain ⟨es, -, ev, rfl⟩ := hends
    cases h
  | refused r => rw [hread] at h; cases h
  | stopped r => rw [hread] at h; cases h

/-- A digit above 9 in a masked field is one of the byte. -/
theorem digit_gt_of_masked {mask : Byte} {k : Nat} (hmask : mask.toNat = 2 ^ (4 + k) - 1) {raw : Byte}
    (h : decodeDigits (raw &&& mask) = none) : raw.toNat % 16 > 9 ∨ raw.toNat / 16 > 9 := by
  obtain ⟨htens, hunits⟩ := digits_and_mask hmask raw
  rw [decodeDigits_eq_none_iff, htens, hunits] at h
  have hle : raw.toNat / 16 % 2 ^ k ≤ raw.toNat / 16 := Nat.mod_le _ _
  omega

theorem digit_gt_of_hoursField {raw : Byte} (h : decodeDigits (hoursField raw) = none) :
    raw.toNat % 16 > 9 ∨ raw.toNat / 16 > 9 := by
  unfold hoursField at h
  split at h
  · exact digit_gt_of_masked (k := 1) rfl h
  · exact digit_gt_of_masked (k := 2) rfl h

/-- Settles O39: the error comes from the decode, after the transaction has closed. -/
theorem invalidDigitAfterClose : Obligations.InvalidDigitAfterClose := by
  refine ⟨fun i s t raw hi hexec hout => ?_, fun b s hb => (decodeBcdResult b s).1 hb⟩
  have hignored : ∀ x, i ≠ .ignoredCommand x := by
    rintro x rfl
    simp at hi
  obtain ⟨u, hop, rfl⟩ := exec_err hexec hignored hout
  simp only [List.mem_cons, List.not_mem_nil, or_false] at hi
  rcases hi with rfl | rfl | rfl
  · obtain ⟨hidle, hraw, hd⟩ := readField_invalidDigit hop
    exact ⟨hidle, hraw, digit_gt_of_masked (k := 3) rfl hd⟩
  · obtain ⟨hidle, hraw, hd⟩ := readField_invalidDigit hop
    exact ⟨hidle, hraw, (decodeDigits_eq_none_iff.mp hd).symm⟩
  · obtain ⟨hidle, hraw, hd⟩ := readField_invalidDigit hop
    exact ⟨hidle, hraw, digit_gt_of_hoursField hd⟩

end Sys2Proof.Machine
end

section
/-! PROOFS. Refusals by an argument, by the state of a byte transfer and by the lines (60_exceptions.md R185, R186), the
command classes no operation sends, and the level of the chip-enable pin. -/

namespace Sys2Proof.Machine

/-! ### Refused calls -/

theorem exec_of_refused {i : Instr} {s : State} {r : Reason} (hi : ∀ x, i ≠ .ignoredCommand x)
    (h : operation i s = .refused r) : exec i s = .next (s.refuse r) := by
  rw [exec_eq_finish hi, h]
  rfl

theorem map_refused {α β : Type} {c : Called α} {r : Reason} (h : c = .refused r) (f : α → β) :
    c.map f = .refused r := by
  rw [h]
  rfl

theorem andThen_refused {α β : Type} {c : Called α} {r : Reason} (h : c = .refused r) (f : α → State → Called β) :
    c.andThen f = .refused r := by
  rw [h]
  rfl

theorem firstRefusal_append_of_some {cs ds : List (Bool × Reason)} {r : Reason} (h : firstRefusal cs = some r) :
    firstRefusal (cs ++ ds) = some r := by
  induction cs with
  | nil => cases h
  | cons c cs ih =>
    obtain ⟨holds, r'⟩ := c
    cases holds with
    | true => exact h
    | false => exact ih h

theorem firstRefusal_append_of_none {cs ds : List (Bool × Reason)} (h : firstRefusal cs = none) :
    firstRefusal (cs ++ ds) = firstRefusal ds := by
  induction cs with
  | nil => rfl
  | cons c cs ih =>
    obtain ⟨holds, r'⟩ := c
    cases holds with
    | true => cases h
    | false => exact ih h

/-! ### By an argument -/

theorem addressRefusals_refuse {a : Nat} (h : 31 < a) (cs : List (Bool × Reason)) :
    firstRefusal (addressRefusals a ++ cs) = some .addressOutOfRange := by
  simp [addressRefusals, firstRefusal, h]

theorem writeField_out_of_range {p : Prop} [Decidable p] (h : ¬ p) (a : Nat) (data : Byte) (s : State) :
    writeField a (decide p) data s = .refused .fieldRange :=
  guarded_refused (by simp [fieldRefusals, firstRefusal, h]) _

/-- Settles O45: the check of the argument stands first. -/
theorem argumentRefusals : Obligations.ArgumentRefusals := by
  refine ⟨fun a v s ha => ⟨?read, ?write⟩, fun v s hv => ?encode, fun v ch s hv => ⟨?seconds, ?minutes⟩,
    fun h s hh => ?hours24, fun h pm s hh => ?hours12⟩
  case read =>
    exact exec_of_refused (by simp) (map_refused (guarded_refused (addressRefusals_refuse ha _) _) _)
  case write =>
    exact exec_of_refused (by simp) (map_refused (guarded_refused (addressRefusals_refuse ha _) _) _)
  case encode => exact exec_of_refused (by simp) (map_refused (encodeField_of_gt hv s) _)
  case seconds => exact exec_of_refused (by simp) (map_refused (writeField_out_of_range (by omega) 0 _ s) _)
  case minutes => exact exec_of_refused (by simp) (map_refused (writeField_out_of_range (by omega) 1 _ s) _)
  case hours24 => exact exec_of_refused (by simp) (map_refused (writeField_out_of_range (by omega) 2 _ s) _)
  case hours12 => exact exec_of_refused (by simp) (map_refused (writeField_out_of_range (by omega) 2 _ s) _)

/-! ### Of the byte transfers -/

section
variable {d : Direction} {s : State}

theorem byteRefusals_outside (htxn : s.txn = false) : firstRefusal (byteRefusals d s) = some .outsideTransaction := by
  simp [byteRefusals, firstRefusal, htxn]

theorem byteRefusals_direction (htxn : s.txn = true) (hdir : s.dir ≠ .known d) :
    firstRefusal (byteRefusals d s) = some .wrongDirection := by
  simp [byteRefusals, firstRefusal, htxn, hdir]

theorem byteRefusals_clockHigh (htxn : s.txn = true) (hdir : s.dir = .known d) (hclk : s.clk = .known .high) :
    firstRefusal (byteRefusals d s) = some .clockNotLow := by
  simp [byteRefusals, firstRefusal, htxn, hdir, hclk]

theorem byteRefusals_clockUnknown (htxn : s.txn = true) (hdir : s.dir = .known d) (hclk : s.clk = .unknown) :
    firstRefusal (byteRefusals d s) = some .lineUnknown := by
  simp [byteRefusals, firstRefusal, htxn, hdir, hclk, isUnknown]

theorem exec_writeByte_refused {v : Byte} {r : Reason} (h : firstRefusal (byteRefusals .output s) = some r) :
    exec (.writeByte v) s = .next (s.refuse r) :=
  exec_of_refused (by simp) (map_refused (guarded_refused h _) _)

theorem exec_readByte_refused {r : Reason} (h : firstRefusal (byteRefusals .input s) = some r) :
    exec .readByte s = .next (s.refuse r) :=
  exec_of_refused (by simp) (map_refused (guarded_refused h _) _)

end

/-- Settles O46: the first check that holds refuses the call. -/
theorem byteTransferRefusals : Obligations.ByteTransferRefusals := fun _ _ =>
  ⟨fun htxn => ⟨exec_writeByte_refused (byteRefusals_outside htxn), exec_readByte_refused (byteRefusals_outside htxn)⟩,
    fun htxn hdir => exec_writeByte_refused (byteRefusals_direction htxn hdir),
    fun htxn hdir => exec_readByte_refused (byteRefusals_direction htxn hdir),
    fun htxn hdir hclk => exec_writeByte_refused (byteRefusals_clockHigh htxn hdir hclk),
    fun htxn hdir hclk => exec_readByte_refused (byteRefusals_clockHigh htxn hdir hclk),
    fun htxn hdir hclk => exec_writeByte_refused (byteRefusals_clockUnknown htxn hdir hclk),
    fun htxn hdir hclk => exec_readByte_refused (byteRefusals_clockUnknown htxn hdir hclk)⟩

/-! ### By the lines -/

/-- An operation with a transaction whose arguments are in range is refused where the checks of its transaction say so. -/
theorem exec_refused_of_lines {i : Instr} {s : State} {r : Reason} (hopens : opensTransaction i = true)
    (hwf : i.wf = true ∨ ∃ b, i = .transaction b) (h : firstRefusal (transactionRefusals s) = some r) :
    exec i s = .next (s.refuse r) := by
  have hread {a : Nat} (ha : a ≤ 31) : readRegister a s = .refused r :=
    guarded_refused ((firstRefusal_append_of_none (addressRefusals_admit ha)).trans h) _
  have hwrite {a : Nat} (ha : a ≤ 31) (v : Byte) : writeRegister a v s = .refused r :=
    guarded_refused ((firstRefusal_append_of_none (addressRefusals_admit ha)).trans h) _
  have hfield {a : Nat} (ha : a ≤ 31) {inRange : Bool} (hin : inRange = true) (data : Byte) :
      (writeField a inRange data s).map unitValue = .refused r := by
    rw [writeField, guarded_admitted (by simp [fieldRefusals, firstRefusal, hin])]
    exact map_refused (hwrite ha data) _
  have hwf' (hi : ∀ b, i ≠ .transaction b) : i.wf = true := hwf.resolve_right fun ⟨b, hb⟩ => hi b hb
  refine exec_of_refused (not_ignored_of_opens hopens) ?_
  cases i with
  | transaction b => exact guarded_refused (firstRefusal_append_of_some h) _
  | readRegister a => exact map_refused (hread (of_decide_eq_true (hwf' (by simp)))) _
  | writeRegister a v => exact map_refused (hwrite (of_decide_eq_true (hwf' (by simp))) v) _
  | readSeconds => exact andThen_refused (hread (by omega)) _
  | readMinutes => exact andThen_refused (hread (by omega)) _
  | readHours => exact andThen_refused (hread (by omega)) _
  | writeSeconds v ch => exact hfield (by omega) (hwf' (by simp)) _
  | writeMinutes v => exact hfield (by omega) (hwf' (by simp)) _
  | writeHours v m => exact hfield (by omega) (hwf' (by simp)) _
  | init | setDataDirection _ | writeByte _ | readByte | decodeBcd _ | encodeBcd _ | ignoredCommand _
  | ramWriteCommand _ | ramReadCommand _ => cases hopens

section
variable {s : State}

theorem transactionRefusals_nested (htxn : s.txn = true) :
    firstRefusal (transactionRefusals s) = some .nestedTransaction := by
  simp [transactionRefusals, firstRefusal, htxn]

theorem transactionRefusals_notIdle (htxn : s.txn = false)
    (h : s.ce = .known .asserted ∨ s.clk = .known .high ∨ s.dir = .known .input) :
    firstRefusal (transactionRefusals s) = some .notIdle := by
  have hother : (knownOther .deasserted s.ce || knownOther .low s.clk || knownOther .output s.dir) = true := by
    rcases h with h | h | h <;> simp [h, knownOther]
  simp only [transactionRefusals, htxn, firstRefusal, hother]
  rfl

theorem knownOther_ce (h : s.ce ≠ .known .asserted) : knownOther .deasserted s.ce = false := by
  cases hce : s.ce with
  | unknown => rfl
  | known c => cases c <;> simp_all [knownOther]

theorem knownOther_clk (h : s.clk ≠ .known .high) : knownOther .low s.clk = false := by
  cases hclk : s.clk with
  | unknown => rfl
  | known l => cases l <;> simp_all [knownOther]

theorem knownOther_dir (h : s.dir ≠ .known .input) : knownOther .output s.dir = false := by
  cases hdir : s.dir with
  | unknown => rfl
  | known d => cases d <;> simp_all [knownOther]

theorem transactionRefusals_unknown (htxn : s.txn = false) (hce : s.ce ≠ .known .asserted)
    (hclk : s.clk ≠ .known .high) (hdir : s.dir ≠ .known .input)
    (h : s.ce = .unknown ∨ s.clk = .unknown ∨ s.dir = .unknown) :
    firstRefusal (transactionRefusals s) = some .lineUnknown := by
  have hunknown : (isUnknown s.ce || isUnknown s.clk || isUnknown s.dir) = true := by
    rcases h with h | h | h <;> simp [h, isUnknown]
  simp only [transactionRefusals, htxn, firstRefusal, knownOther_ce hce, knownOther_clk hclk, knownOther_dir hdir,
    hunknown]
  rfl

end

/-! ### Instructions without an operation, and the pin -/

/-- Settles O9: each word decoded. -/
theorem sampleWordsDecode : Obligations.SampleWordsDecode := by
  refine ⟨?_, ?_, ?_, ?_, ?_, ?_, ?_, ?_, ?_⟩ <;> decide

/-- Settles O40: such a byte means nothing to the engine. -/
theorem ignoredCommandHasNoEffect : Obligations.IgnoredCommandHasNoEffect := fun _ _ => rfl

/-- Settles O41: both classes stop the run. -/
theorem ramCommandsAreRefused : Obligations.RamCommandsAreRefused := fun _ _ => ⟨rfl, rfl⟩

/-- Settles O60: one case for each record of CE, and for a deasserted one each active level. -/
theorem cePinByActiveLevel : Obligations.CePinByActiveLevel := by
  intro s
  refine ⟨fun h => ?_, fun h => ?_, fun h => ?_⟩
  · rw [State.cePin, h]
  · rw [State.cePin, h]
    cases s.params.ceActive with
    | low => exact ⟨.high, rfl, by decide⟩
    | high => exact ⟨.low, rfl, by decide⟩
  · rw [State.cePin, h]

end Sys2Proof.Machine
end

section
/-! PROOFS. The bodies of transactions (40_transport.md R106): what bodies that write, turn the data line and read do call by
call, which bodies come to their end, and which are refused inside. -/

namespace Sys2Proof.Machine

/-! ### Calls in order -/

theorem Called.andThen_assoc {α β γ : Type} (c : Called α) (f : α → State → Called β) (g : β → State → Called γ) :
    (c.andThen f).andThen g = c.andThen fun a s => (f a s).andThen g := by
  cases c <;> rfl

theorem runBodyCalls_append (results : List (Option Byte)) (cs ds : List BodyCall) (s : State) :
    runBodyCalls results (cs ++ ds) s = (runBodyCalls results cs s).andThen fun rs t => runBodyCalls rs ds t := by
  induction cs generalizing results s with
  | nil => rfl
  | cons c cs ih =>
    simp only [List.cons_append, runBodyCalls, Called.andThen_assoc, ih]

theorem runBodyCalls_singleton (results : List (Option Byte)) (c : BodyCall) (s : State) :
    runBodyCalls results [c] s = (runBodyCall results c s).andThen fun r t => .ok (results ++ [r]) t := rfl

/-- Inside a transaction whose data line has the direction `d`. -/
structure State.Transferring (d : Direction) (s : State) : Prop extends s.InTransaction where
  dir : s.dir = .known d

theorem State.Idle.transferring {s : State} (hs : s.Idle) : s.opened.Transferring .output :=
  ⟨hs.opened, hs.2.2.1⟩

theorem State.Transferring.after_write {s : State} (h : s.Transferring .output) (v : Byte) :
    (s.after (writeByteEvents v)).Transferring .output := by
  have hlines : (s.after (writeByteEvents v)).lines = _ := replay_writeByte s.lines v h.clk
  exact ⟨⟨h.txn, (congrArg Lines.ce hlines).trans h.ce, (congrArg Lines.clk hlines).trans h.clk⟩,
    (congrArg Lines.dir hlines).trans h.dir⟩

theorem State.Transferring.after_read {s : State} (h : s.Transferring .input) (v : Byte) :
    (s.after (readByteEvents v)).Transferring .input := by
  have hlines : (s.after (readByteEvents v)).lines = s.lines := replay_readByte s.lines v h.clk
  exact ⟨⟨h.txn, (congrArg Lines.ce hlines).trans h.ce, (congrArg Lines.clk hlines).trans h.clk⟩,
    (congrArg Lines.dir hlines).trans h.dir⟩

theorem State.Transferring.after_turn {d : Direction} {s : State} (h : s.Transferring d) :
    (s.after [.dir .input]).Transferring .input := ⟨⟨h.txn, h.ce, h.clk⟩, rfl⟩

theorem State.Transferring.turn_plays {d : Direction} {s : State} (h : s.Transferring d) :
    Plays [.dir .input] () s (setDirection .input s) :=
  setDirection_plays (directionRefusals_admit h.clk (by simp [h.ce]) (by simp))

/-! ### Bodies of transfers, when no call fails -/

theorem writes_length (vs : List Byte) : (vs.flatMap writeByteEvents).length = 48 * vs.length := by
  induction vs with
  | nil => rfl
  | cons v vs ih => rw [List.flatMap_cons, List.length_append, ih, writeByteEvents_length, List.length_cons]; omega

theorem reads_length (vs : List Byte) : (vs.flatMap readByteEvents).length = 40 * vs.length := by
  induction vs with
  | nil => rfl
  | cons v vs ih => rw [List.flatMap_cons, List.length_append, ih, readByteEvents_length, List.length_cons]; omega

/-- A body that writes literals. -/
def writeCalls (vs : List Byte) : List BodyCall := vs.map fun v => .writeByte (.lit v)

theorem writeCalls_quiet (results : List (Option Byte)) (vs : List Byte) {s : State} (hs : s.Transferring .output)
    (hn : NoFailure s (48 * vs.length)) : runBodyCalls results (writeCalls vs) s =
      .ok (results ++ List.replicate vs.length none) (s.after (vs.flatMap writeByteEvents)) := by
  induction vs generalizing results s with
  | nil => simp [writeCalls, runBodyCalls]
  | cons v vs ih =>
    rw [List.length_cons] at hn
    have hcall : runBodyCall results (.writeByte (.lit v)) s = .ok none (s.after (writeByteEvents v)) := by
      simp only [runBodyCall, withArg, argValue, shiftOut_quiet v s hs.txn hs.dir hs.clk (hn.mono (by omega)),
        Called.andThen]
    have hrest := ih (results ++ [none]) (hs.after_write v) (hn.after _ (by rw [writeByteEvents_length]; omega))
    simp only [writeCalls, List.map_cons, runBodyCalls, hcall, Called.andThen]
    rw [← writeCalls, hrest]
    simp [List.replicate_succ]

/-- The bytes that the next `n` reads of a body sample, the first by the call `k` places ahead. -/
def sampledBytes (s : State) (k n : Nat) : List Byte := (List.range n).map fun i => sampledByte s (k + 40 * i)

theorem sampledBytes_succ (s : State) (n : Nat) : sampledBytes s 0 (n + 1) =
    sampledByte s 0 :: sampledBytes (s.after (readByteEvents (sampledByte s 0))) 0 n := by
  simp [sampledBytes, List.range_succ_eq_map, Function.comp_def, sampledByte_after, Nat.mul_add, Nat.add_comm]

theorem readCalls_quiet (results : List (Option Byte)) (n : Nat) {s : State} (hs : s.Transferring .input)
    (hn : NoFailure s (40 * n)) : runBodyCalls results (List.replicate n .readByte) s =
      .ok (results ++ (sampledBytes s 0 n).map some) (s.after ((sampledBytes s 0 n).flatMap readByteEvents)) := by
  induction n generalizing results s with
  | zero => simp [runBodyCalls, sampledBytes]
  | succ n ih =>
    have hcall : runBodyCall results .readByte s =
        .ok (some (sampledByte s 0)) (s.after (readByteEvents (sampledByte s 0))) := by
      simp only [runBodyCall, shiftIn_quiet s hs.txn hs.dir hs.clk (hn.mono (by omega)), Called.andThen]
    have hrest := ih (results ++ [some (sampledByte s 0)]) (hs.after_read (sampledByte s 0))
      (hn.after _ (by rw [readByteEvents_length]; omega))
    simp only [List.replicate_succ, runBodyCalls, hcall, Called.andThen, hrest]
    simp [sampledBytes_succ]

/-- Bytes written, the switch to input, and bytes read. -/
def writeReadCalls (vs : List Byte) (n : Nat) : List BodyCall :=
  writeCalls vs ++ [.setDataDirection .input] ++ List.replicate n .readByte

/-- The events of those calls. -/
def writeReadEvents (vs bs : List Byte) : List Event :=
  vs.flatMap writeByteEvents ++ [.dir .input] ++ bs.flatMap readByteEvents

theorem State.Transferring.after_writes {s : State} (hs : s.Transferring .output) (vs : List Byte) :
    (s.after (vs.flatMap writeByteEvents)).Transferring .output := by
  induction vs generalizing s with
  | nil => simpa using hs
  | cons v vs ih => simpa using ih (hs.after_write v)

theorem State.Transferring.after_reads {s : State} (hs : s.Transferring .input) (bs : List Byte) :
    (s.after (bs.flatMap readByteEvents)).Transferring .input := by
  induction bs generalizing s with
  | nil => simpa using hs
  | cons b bs ih => simpa using ih (hs.after_read b)

theorem writeReadCalls_quiet (vs : List Byte) (n : Nat) {s : State} (hs : s.Transferring .output)
    (hn : NoFailure s (48 * vs.length + 1 + 40 * n)) :
    let bs := sampledBytes s (48 * vs.length + 1) n
    runBodyCalls [] (writeReadCalls vs n) s =
      .ok (List.replicate vs.length none ++ [none] ++ bs.map some) (s.after (writeReadEvents vs bs)) := by
  intro bs
  have hwrites := writeCalls_quiet [] vs hs (hn.mono (by omega))
  have ht := hs.after_writes vs
  generalize hstate : s.after (vs.flatMap writeByteEvents) = t at hwrites ht
  have hn1 : NoFailure t (1 + 40 * n) := hstate ▸ hn.after _ (by rw [writes_length]; omega)
  have hturn : setDirection .input t = .ok () (t.after [.dir .input]) :=
    ht.turn_plays.eq_ok (Succeeds.of_noFailure (hn1.mono (by simp)))
  have hreads := readCalls_quiet (List.replicate vs.length none ++ [none]) n ht.after_turn
    (hn1.after _ (by simp))
  have hbs : sampledBytes (t.after [.dir .input]) 0 n = bs := by
    simp only [bs, sampledBytes, ← hstate, State.after_after, sampledByte_after, List.length_append, writes_length,
      List.length_singleton, Nat.zero_add]
  rw [writeReadCalls, runBodyCalls_append, runBodyCalls_append, hwrites]
  simp only [Called.andThen, List.nil_append, runBodyCalls_singleton, runBodyCall, hturn, hreads, hbs]
  rw [← hstate, State.after_after, State.after_after, writeReadEvents, List.append_assoc, List.append_assoc]

/-! ### Bound names -/

/-- The results so far are those of the calls so far: a byte for each call that yields one. -/
def Aligned (results : List (Option Byte)) (before : List BodyCall) : Prop :=
  results.map Option.isSome = before.map BodyCall.yields

theorem Aligned.nil : Aligned [] [] := rfl

theorem Aligned.concat {results : List (Option Byte)} {before : List BodyCall} {r : Option Byte} {c : BodyCall}
    (h : Aligned results before) (hr : r.isSome = c.yields) : Aligned (results ++ [r]) (before ++ [c]) := by
  rw [Aligned, List.map_append, List.map_append, h, List.map_singleton, List.map_singleton, hr]

/-- A bound argument has a value. -/
theorem Aligned.argValue {results : List (Option Byte)} {before : List BodyCall} (h : Aligned results before) {a : Arg}
    (ha : a.bound before = true) : ∃ v, argValue results a = some v := by
  cases a with
  | lit v => exact ⟨v, rfl⟩
  | result k =>
    obtain ⟨c, hc, hyields⟩ : ∃ c, before[k]? = some c ∧ c.yields = true := by
      rw [Arg.bound] at ha
      cases hc : before[k]? with
      | none => rw [hc] at ha; cases ha
      | some c => exact ⟨c, rfl, by rw [hc] at ha; exact ha⟩
    have hk : (results.map Option.isSome)[k]? = some true := by
      rw [h, List.getElem?_map, hc, Option.map_some, hyields]
    rw [List.getElem?_map, Option.map_eq_some_iff] at hk
    obtain ⟨r, hr, hsome⟩ := hk
    obtain ⟨v, rfl⟩ := Option.isSome_iff_exists.mp hsome
    exact ⟨v, by rw [Machine.argValue, hr]; rfl⟩

theorem Aligned.argValues {results : List (Option Byte)} {before : List BodyCall} (h : Aligned results before)
    {as : List Arg} (has : as.all (Arg.bound before) = true) : ∃ vs, argValues results as = some vs := by
  induction as with
  | nil => exact ⟨[], rfl⟩
  | cons a as ih =>
    rw [List.all_cons, Bool.and_eq_true] at has
    obtain ⟨v, hv⟩ := h.argValue has.1
    obtain ⟨vs, hvs⟩ := ih has.2
    exact ⟨v :: vs, by rw [Machine.argValues, hv, hvs]⟩

theorem callsBound_append (before cs ds : List BodyCall) :
    callsBound before (cs ++ ds) = (callsBound before cs && callsBound (before ++ cs) ds) := by
  induction cs generalizing before with
  | nil => simp [callsBound]
  | cons c cs ih => simp [callsBound, ih, Bool.and_assoc]

/-- Calls without names are bound. -/
theorem callsBound_of_literals {before cs : List BodyCall} (h : ∀ c ∈ cs, c.args.all (Arg.bound []) = true) :
    callsBound before cs = true := by
  have hlift {a : Arg} (ha : a.bound [] = true) (before : List BodyCall) : a.bound before = true := by
    cases a with
    | lit v => rfl
    | result k => simp [Arg.bound] at ha
  induction cs generalizing before with
  | nil => rfl
  | cons c cs ih =>
    rw [callsBound, ih fun c' hc' => h c' (List.mem_cons_of_mem c hc'), Bool.and_true, List.all_eq_true]
    exact fun a ha => hlift (List.all_eq_true.mp (h c List.mem_cons_self) a ha) before

theorem writeCalls_bound (before : List BodyCall) (vs : List Byte) : callsBound before (writeCalls vs) = true :=
  callsBound_of_literals fun c hc => by
    obtain ⟨v, -, rfl⟩ := List.mem_map.mp hc
    rfl

theorem writeReadCalls_bound (before : List BodyCall) (vs : List Byte) (n : Nat) :
    callsBound before (writeReadCalls vs n) = true := by
  rw [writeReadCalls, callsBound_append, callsBound_append, writeCalls_bound, Bool.true_and, Bool.and_eq_true]
  refine ⟨rfl, callsBound_of_literals fun c hc => ?_⟩
  rw [List.eq_of_mem_replicate hc]
  rfl

/-! ### Whole transactions of transfers -/

theorem bodyRefusals_admit {b : Body} (hb : b.barred = false) : firstRefusal (bodyRefusals b) = none := by
  simp [bodyRefusals, firstRefusal, hb]

theorem runTransaction_eq_frame {b : Body} {s : State} (hs : s.Idle) (hbarred : b.barred = false)
    (hbound : b.bound = true) : runTransaction b s = frame (runBody b) s := by
  rw [runTransaction, guarded_admitted (firstRefusal_append_eq_none.mpr
    ⟨transactionRefusals_admit hs, bodyRefusals_admit hbarred⟩), if_pos hbound]

theorem exec_transaction (b : Body) (s : State) : exec (.transaction b) s = finish id s (runTransaction b s) := rfl

/-- A transaction whose body returns, no call of its cleanup failing. -/
theorem exec_transaction_quiet {b : Body} {s : State} {v : Value} {es : List Event} (hs : s.Idle)
    (hbarred : b.barred = false) (hbound : b.bound = true)
    (hn : NoFailure s (2 + es.length + (cleanupEvents (s.lines.replay (openEvents ++ es))).length))
    (hbody : runBody b s.opened = .ok v (s.opened.after es)) : exec (.transaction b) s = .next
      ((s.after (openEvents ++ es ++ cleanupEvents (s.lines.replay (openEvents ++ es)))).setOutcome (.ok v)) := by
  rw [opened_after] at hbody
  rw [exec_transaction, runTransaction_eq_frame hs hbarred hbound, frame_quiet _ s v es hn hbody, hs.setTxn_after]
  rfl

/-- The level of the data line after these bytes written. -/
def levelAfter (l : Line Level) (vs : List Byte) : Line Level :=
  match vs.getLast? with
  | none => l
  | some v => .known (if v.getLsbD 7 then .high else .low)

theorem levelAfter_cons (l : Line Level) (v : Byte) (vs : List Byte) :
    levelAfter l (v :: vs) = levelAfter (.known (if v.getLsbD 7 then .high else .low)) vs := by
  rw [levelAfter, List.getLast?_cons, levelAfter]
  cases vs.getLast? <;> rfl

theorem replay_writes (l : Lines) (vs : List Byte) (h : l.clk = .known .low) :
    l.replay (vs.flatMap writeByteEvents) = { l with dout := levelAfter l.dout vs } := by
  induction vs generalizing l with
  | nil => rfl
  | cons v vs ih =>
    rw [List.flatMap_cons, Lines.replay_append, replay_writeByte l v h, levelAfter_cons]
    exact ih _ h

theorem replay_reads (l : Lines) (bs : List Byte) (h : l.clk = .known .low) :
    l.replay (bs.flatMap readByteEvents) = l := by
  induction bs with
  | nil => rfl
  | cons b bs ih => rw [List.flatMap_cons, Lines.replay_append, replay_readByte l b h, ih]

theorem writeCalls_barred (vs : List Byte) (rets : List Arg) : Body.barred ⟨writeCalls vs, rets⟩ = false := by
  rw [Body.barred, List.any_eq_false]
  intro c hc
  obtain ⟨v, -, rfl⟩ := List.mem_map.mp hc
  simp [BodyCall.isBarred]

theorem writeReadCalls_barred (vs : List Byte) (n : Nat) (rets : List Arg) :
    Body.barred ⟨writeReadCalls vs n, rets⟩ = false := by
  have hwrites : (writeCalls vs).any BodyCall.isBarred = false := writeCalls_barred vs rets
  simp [Body.barred, writeReadCalls, hwrites, BodyCall.isBarred, List.any_replicate]

/-- Settles O19: the calls of the body in order, and a cleanup on a data line that is an output. -/
theorem transactionOfWrites : Obligations.TransactionOfWrites := by
  intro vs s hs hn
  have hbound : Body.bound ⟨writeCalls vs, []⟩ = true := by simp [Body.bound, writeCalls_bound]
  have hlines : s.lines.replay (openEvents ++ vs.flatMap writeByteEvents) =
      { s.opened.lines with dout := levelAfter s.dout vs } :=
    (Lines.replay_append _ _ _).trans (replay_writes s.opened.lines vs hs.2.1)
  have hclose : cleanupEvents (s.lines.replay (openEvents ++ vs.flatMap writeByteEvents)) = closeWriteEvents := by
    have hclk : s.opened.lines.clk = .known .low := hs.2.1
    have hdir : s.opened.lines.dir = .known .output := hs.2.2.1
    rw [hlines]
    simp [cleanupEvents, hclk, hdir, closeWriteEvents]
  have hlength : (openEvents ++ vs.flatMap writeByteEvents ++ closeWriteEvents).length = 5 + 48 * vs.length := by
    simp only [List.length_append, writes_length, openEvents, closeWriteEvents, List.length_cons, List.length_nil]
    omega
  have hbody : runBody ⟨writeCalls vs, []⟩ s.opened = .ok .unit (s.opened.after (vs.flatMap writeByteEvents)) := by
    have hn' : NoFailure s.opened (48 * vs.length) := (hn.after openEvents (by simp [openEvents])).setTxn true
    rw [runBody, writeCalls_quiet [] vs hs.transferring hn']
    rfl
  have hexec := exec_transaction_quiet hs (writeCalls_barred vs []) hbound (by
    rw [hclose]
    simp only [List.length_append] at hlength
    exact hn.mono (by simp only [openEvents, List.length_cons, List.length_nil] at hlength; omega)) hbody
  rw [hclose] at hexec
  rw [← hlength]
  refine hexec.trans (congrArg Host.Outcome.next (State.eq_of_lines ?_ rfl rfl rfl rfl rfl rfl rfl rfl))
  have hafter : s.lines.replay (openEvents ++ vs.flatMap writeByteEvents ++ closeWriteEvents) =
      { s.lines with dout := levelAfter s.dout vs } := by
    rw [Lines.replay_append, hlines, State.opened_lines]
    simp [closeWriteEvents, Lines.next, State.lines, hs.1]
  exact hafter

/-- Names bound to these bytes have their values. -/
theorem argValues_results {ι : Type} {results : List (Option Byte)} {place : ι → Nat} {value : ι → Byte} {l : List ι}
    (h : ∀ i ∈ l, results[place i]? = some (some (value i))) :
    argValues results (l.map fun i => .result (place i)) = some (l.map value) := by
  induction l with
  | nil => rfl
  | cons i l ih =>
    have hi : argValue results (.result (place i)) = some (value i) := by
      rw [argValue, h i List.mem_cons_self]
      rfl
    rw [List.map_cons, argValues, hi, ih fun j hj => h j (List.mem_cons_of_mem i hj), List.map_cons]

/-- The result of read `i` after the writes and the switch. -/
theorem writeRead_result {vs : List Byte} {s : State} {k n i : Nat} (hi : i < n) :
    (List.replicate vs.length none ++ [none] ++ (sampledBytes s k n).map some)[vs.length + 1 + i]? =
      some (some (sampledByte s (k + 40 * i))) := by
  rw [List.getElem?_append_right (by simp), List.length_append, List.length_replicate, List.length_singleton,
    Nat.add_sub_cancel_left]
  simp [sampledBytes, hi]

theorem sampledBytes_opened (s : State) (k n : Nat) : sampledBytes s.opened k n = sampledBytes s (2 + k) n := by
  simp only [sampledBytes, State.opened, sampledByte_setTxn, sampledByte_after]
  refine List.map_congr_left fun i _ => congrArg (sampledByte s) ?_
  simp only [openEvents, List.length_cons, List.length_nil]
  omega

theorem writeReadEvents_length (vs bs : List Byte) :
    (writeReadEvents vs bs).length = 48 * vs.length + 1 + 40 * bs.length := by
  simp only [writeReadEvents, List.length_append, writes_length, reads_length, List.length_singleton]

theorem sampledBytes_length (s : State) (k n : Nat) : (sampledBytes s k n).length = n := by simp [sampledBytes]

/-- Settles O20: the calls of the body in order, and a cleanup on a data line that is an input. -/
theorem transactionOfWritesThenReads : Obligations.TransactionOfWritesThenReads := by
  intro vs n s hs hn read
  have hread : read = sampledBytes s (3 + 48 * vs.length) n := rfl
  let b : Body := ⟨writeReadCalls vs n, (List.range n).map fun i => .result (vs.length + 1 + i)⟩
  have hbound : b.bound = true := by
    simp only [b, Body.bound, writeReadCalls_bound, Bool.true_and, List.all_eq_true]
    intro a ha
    obtain ⟨i, hi, rfl⟩ := List.mem_map.mp ha
    have hcall : (writeReadCalls vs n)[vs.length + 1 + i]? = some .readByte := by
      rw [writeReadCalls, writeCalls, List.getElem?_append_right (by simp)]
      simp [List.mem_range.mp hi]
    simp [Arg.bound, hcall, BodyCall.yields]
  have hlines : s.lines.replay (openEvents ++ writeReadEvents vs read) =
      { s.opened.lines with dir := .known .input, dout := .unknown } := by
    rw [Lines.replay_append, writeReadEvents, Lines.replay_append, Lines.replay_append, replay_writes _ vs hs.2.1,
      replay_reads _ read hs.2.1]
    rfl
  have hclose : cleanupEvents (s.lines.replay (openEvents ++ writeReadEvents vs read)) = closeReadEvents := by
    have hclk : s.opened.lines.clk = .known .low := hs.2.1
    rw [hlines]
    simp [cleanupEvents, hclk, closeReadEvents]
  have hlength : (openEvents ++ writeReadEvents vs read ++ closeReadEvents).length = 7 + 48 * vs.length + 40 * n := by
    simp only [List.length_append, writeReadEvents_length, hread, sampledBytes_length, openEvents, closeReadEvents,
      List.length_cons, List.length_nil]
    omega
  have hbody : runBody b s.opened = .ok (bodyValue read) (s.opened.after (writeReadEvents vs read)) := by
    have hn' : NoFailure s.opened (48 * vs.length + 1 + 40 * n) :=
      (hn.after openEvents (by simp [openEvents]; omega)).setTxn true
    have hplace : 2 + (48 * vs.length + 1) = 3 + 48 * vs.length := by omega
    have hcalls := writeReadCalls_quiet vs n hs.transferring hn'
    rw [sampledBytes_opened, hplace] at hcalls
    rw [runBody, hcalls]
    simp only [Called.andThen]
    rw [argValues_results fun i hi => writeRead_result (List.mem_range.mp hi)]
    rfl
  have hexec := exec_transaction_quiet hs (writeReadCalls_barred vs n _) hbound (by
    rw [hclose]
    simp only [List.length_append] at hlength
    exact hn.mono (by simp only [openEvents, List.length_cons, List.length_nil] at hlength; omega)) hbody
  rw [hclose] at hexec
  have hevents : openEvents ++ vs.flatMap writeByteEvents ++ [.dir .input] ++ read.flatMap readByteEvents ++
      closeReadEvents = openEvents ++ writeReadEvents vs read ++ closeReadEvents := by
    simp only [writeReadEvents, List.append_assoc]
  rw [hevents, ← hlength]
  refine hexec.trans (congrArg Host.Outcome.next (State.eq_of_lines ?_ rfl rfl rfl rfl rfl rfl rfl rfl))
  have hafter : s.lines.replay (openEvents ++ writeReadEvents vs read ++ closeReadEvents) =
      { s.lines with dout := .unknown } := by
    rw [Lines.replay_append, hlines, State.opened_lines]
    simp [closeReadEvents, Lines.next, State.lines, hs.1, hs.2.2.1]
  exact hafter

end Sys2Proof.Machine
end

section
/-! PROOFS. Which transactions come to their end, whatever fails, and which are refused inside their body (40_transport.md
R106, 60_exceptions.md R185). -/

namespace Sys2Proof.Machine

/-! ### Bodies whose calls are admitted -/

/-- One admitted call inside a transaction comes to its end: where it succeeds, it binds a byte if it yields one, and the
transaction admits the calls after it. -/
theorem runBodyCall_completes {d : Direction} {c : BodyCall} {cs before : List BodyCall} {results : List (Option Byte)}
    {s : State} (hs : s.Transferring d) (hadmit : callsAdmitted d (c :: cs) = true)
    (hbound : c.args.all (Arg.bound before) = true) (hresults : Aligned results before) :
    ∃ d', callsAdmitted d' cs = true ∧ Ends False
      (fun r es => r.isSome = c.yields ∧ (s.after es).Transferring d') (fun _ _ => True) s (runBodyCall results c s) := by
  have value {a : Arg} (ha : [a].all (Arg.bound before) = true) : ∃ v, argValue results a = some v :=
    hresults.argValue (by simpa using ha)
  cases c with
  | writeByte a =>
    obtain ⟨v, hv⟩ := value hbound
    simp only [callsAdmitted, Bool.and_eq_true, decide_eq_true_eq] at hadmit
    obtain ⟨rfl, hrest⟩ := hadmit
    refine ⟨.output, hrest, ?_⟩
    simp only [runBodyCall, withArg, hv]
    exact Plays.ends ((shiftOut_plays v hs.txn hs.dir hs.clk).andThen (Plays.nil _ _))
      ⟨rfl, by simpa using hs.after_write v⟩ fun _ _ _ => trivial
  | readByte =>
    simp only [callsAdmitted, Bool.and_eq_true, decide_eq_true_eq] at hadmit
    obtain ⟨rfl, hrest⟩ := hadmit
    exact ⟨.input, hrest, Plays.ends ((shiftIn_plays hs.txn hs.dir hs.clk).andThen (Plays.nil _ _))
      ⟨rfl, by simpa using hs.after_read _⟩ fun _ _ _ => trivial⟩
  | setDataDirection d' =>
    cases d' with
    | output => cases hadmit
    | input =>
      exact ⟨.input, hadmit, Plays.ends (hs.turn_plays.andThen (Plays.nil _ _)) ⟨rfl, hs.after_turn⟩
        fun _ _ _ => trivial⟩
  | decodeBcd a =>
    obtain ⟨v, hv⟩ := value hbound
    refine ⟨d, hadmit, ?_⟩
    simp only [runBodyCall, withArg, hv]
    cases hd : decodeDigits v with
    | none => rw [decodeField_of_none hd]; exact ⟨[], by simp, trivial⟩
    | some w => rw [decodeField_of_some hd]; exact Ends.pure ⟨rfl, by simpa using hs⟩
  | encodeBcd a =>
    cases a with
    | result k => cases hadmit
    | lit v =>
      simp only [callsAdmitted, Bool.and_eq_true, decide_eq_true_eq] at hadmit
      refine ⟨d, hadmit.2, ?_⟩
      simp only [runBodyCall, withArg, argValue, encodeField_of_le hadmit.1]
      exact Ends.pure ⟨rfl, by simpa using hs⟩
  | barred op => cases hadmit

theorem runBodyCalls_completes {d : Direction} {cs before : List BodyCall} {results : List (Option Byte)} {s : State}
    (hs : s.Transferring d) (hadmit : callsAdmitted d cs = true) (hbound : callsBound before cs = true)
    (hresults : Aligned results before) :
    Ends False (fun rs _ => Aligned rs (before ++ cs)) (fun _ _ => True) s (runBodyCalls results cs s) := by
  induction cs generalizing d before results s with
  | nil => exact Ends.pure (by simpa using hresults)
  | cons c cs ih =>
    rw [callsBound, Bool.and_eq_true] at hbound
    obtain ⟨hargs, hbound⟩ := hbound
    obtain ⟨d', hadmit', hcall⟩ := runBodyCall_completes hs hadmit hargs hresults
    refine hcall.andThen fun r es ⟨hr, hs'⟩ => ?_
    have hrest := ih hs' hadmit' hbound (hresults.concat hr)
    rwa [List.append_assoc, List.singleton_append] at hrest

theorem runBody_completes {b : Body} {s : State} (hs : s.Transferring .output)
    (hadmit : callsAdmitted .output b.calls = true) (hbound : b.bound = true) :
    Ends False (fun _ _ => True) (fun _ _ => True) s (runBody b s) := by
  rw [Body.bound, Bool.and_eq_true] at hbound
  obtain ⟨hcalls, hreturns⟩ := hbound
  refine (runBodyCalls_completes hs hadmit hcalls Aligned.nil).andThen fun rs es hrs => ?_
  obtain ⟨vs, hvs⟩ := Aligned.argValues (by simpa using hrs) hreturns
  rw [hvs]
  exact Ends.pure trivial

/-- Settles O21: the body neither is refused nor stops, so that the cleanup is reached. -/
theorem transactionCompletes : Obligations.TransactionCompletes := by
  intro b s hs hbarred hbound hadmit
  have hends := frame_ends (Ok := fun _ _ => True) (Err := fun _ _ => True) hs.2.2.2 trivial trivial
    (runBody_completes hs.transferring hadmit hbound)
  rw [← runTransaction_eq_frame hs hbarred hbound] at hends
  change Ends False _ _ s (operation (.transaction b) s) at hends
  have hsafe {t : State} (hexec : exec (.transaction b) s = .next t) : t.txn = false ∧ t.ce ≠ .known .asserted := by
    obtain ⟨htxn, hce⟩ := transactionAlwaysDeasserts (.transaction b) s t rfl hs hexec
    exact ⟨htxn, fun hon => by rcases hce with hoff | ⟨hoff, -⟩ <;> cases hon.symm.trans hoff⟩
  have hfinish := exec_eq_finish (i := .transaction b) (by simp) s
  cases hop : operation (.transaction b) s with
  | ok v t =>
    rw [hop] at hfinish
    exact ⟨_, hfinish, by simp, hsafe hfinish⟩
  | err e t =>
    rw [hop] at hfinish
    exact ⟨_, hfinish, by simp, hsafe hfinish⟩
  | refused r => rw [hop] at hends; exact hends.elim
  | stopped r => rw [hop] at hends; exact hends.elim

/-! ### Bodies refused inside -/

/-- A call refused inside a body, after a part of the body that returns, ends the run. -/
theorem exec_refused_inBody {pre post : List BodyCall} {c : BodyCall} {rets : List Arg} {s : State} {r : Reason}
    {rs : List (Option Byte)} {es : List Event} (hs : s.Idle) (hn : NoFailure s 2)
    (hbarred : Body.barred ⟨pre ++ c :: post, rets⟩ = false) (hbound : Body.bound ⟨pre ++ c :: post, rets⟩ = true)
    (hpre : runBodyCalls [] pre s.opened = .ok rs (s.opened.after es))
    (hc : runBodyCall rs c (s.opened.after es) = .refused r) :
    exec (.transaction ⟨pre ++ c :: post, rets⟩) s = .refused (.inBody r) := by
  have hbody : runBody ⟨pre ++ c :: post, rets⟩ s.opened = .refused r := by
    rw [runBody, runBodyCalls_append, hpre]
    simp only [Called.andThen, runBodyCalls, hc]
  have hopen : beforeCleanup (runBody ⟨pre ++ c :: post, rets⟩) s = .refused r := by
    have hce := perform_quiet (n := 0) (.setCe .asserted) (hn.mono (by omega))
    have hwait := perform_quiet (n := 0) (s := (s.after [.setCe .asserted]).setTxn true) (.wait .tCC)
      ((hn.after [.setCe .asserted] (by simp)).setTxn true)
    simp only [successEvent] at hce hwait
    rw [State.opened_eq] at hwait
    rw [beforeCleanup, openThen, hce]
    simp only [Ran.called, Called.andThen, hwait, hbody]
    rfl
  rw [exec_transaction, runTransaction_eq_frame hs hbarred hbound, frame_eq_closing, hopen]
  rfl

section
variable {d : Direction} {s : State} {results : List (Option Byte)}

theorem turnBack_refused (hs : s.Transferring d) :
    runBodyCall results (.setDataDirection .output) s = .refused .outputDuringTransaction :=
  andThen_refused (guarded_refused (by
    simp [directionRefusals, firstRefusal, hs.clk, hs.ce, hs.txn, isUnknown]) _) _

theorem encodeCall_refused {a : Arg} {v : Byte} (ha : argValue results a = some v) (hv : 99 < v.toNat) :
    runBodyCall results (.encodeBcd a) s = .refused .bcdRange := by
  simp only [runBodyCall, withArg, ha]
  exact andThen_refused (encodeField_of_gt hv s) _

theorem readCall_refused (hs : s.Transferring .output) : runBodyCall results .readByte s = .refused .wrongDirection :=
  andThen_refused (guarded_refused (byteRefusals_direction hs.txn (by simp [hs.dir])) _) _

theorem writeCall_refused {a : Arg} {v : Byte} (hs : s.Transferring .input) (ha : argValue results a = some v) :
    runBodyCall results (.writeByte a) s = .refused .wrongDirection := by
  simp only [runBodyCall, withArg, ha]
  exact andThen_refused (guarded_refused (byteRefusals_direction hs.txn (by simp [hs.dir])) _) _

end

theorem sampledBytes_results (s : State) (vs : List Byte) (k n : Nat) :
    Aligned (List.replicate vs.length none ++ [none] ++ (sampledBytes s k n).map some) (writeReadCalls vs n) := by
  have hreads : (sampledBytes s k n).map (Option.isSome ∘ some) = List.replicate n true := by
    rw [List.eq_replicate_iff]
    exact ⟨by simp [sampledBytes], by simp⟩
  have hwrites : (writeCalls vs).map BodyCall.yields = List.replicate vs.length false := by
    rw [List.eq_replicate_iff]
    refine ⟨by simp [writeCalls], fun b hb => ?_⟩
    obtain ⟨c, hc, rfl⟩ := List.mem_map.mp hb
    obtain ⟨v, -, rfl⟩ := List.mem_map.mp hc
    rfl
  simp [Aligned, writeReadCalls, hreads, hwrites, BodyCall.yields]

/-- The arguments of a call of a bound body are bound by the calls before it. -/
theorem args_bound {pre post : List BodyCall} {c : BodyCall} {rets : List Arg}
    (h : Body.bound ⟨pre ++ c :: post, rets⟩ = true) : c.args.all (Arg.bound pre) = true := by
  rw [Body.bound, Bool.and_eq_true] at h
  have hcalls := h.1
  rw [callsBound_append, Bool.and_eq_true, callsBound, Bool.and_eq_true] at hcalls
  exact hcalls.2.1

end Sys2Proof.Machine

namespace Sys2Proof

open Machine

/-- Settles O47: the checks by the lines; the checks of the body; and a call refused after bytes written, or after bytes
written, the switch to input and bytes read. -/
theorem transactionRefusals : Obligations.TransactionRefusals := by
  refine ⟨fun i s hopens hwf => ⟨fun htxn => ?nested, fun htxn h => ?notIdle, fun htxn hce hclk hdir h => ?unknown⟩,
    fun b s hs => ⟨fun hbarred => ?barred, fun hbarred hbound => ?unbound⟩, ?written, ?read⟩
  case nested => exact exec_refused_of_lines hopens hwf (transactionRefusals_nested htxn)
  case notIdle => exact exec_refused_of_lines hopens hwf (transactionRefusals_notIdle htxn h)
  case unknown => exact exec_refused_of_lines hopens hwf (transactionRefusals_unknown htxn hce hclk hdir h)
  case barred =>
    refine exec_of_refused (by simp) (guarded_refused ?_ _)
    rw [firstRefusal_append_of_none (transactionRefusals_admit hs)]
    simp [bodyRefusals, firstRefusal, hbarred]
  case unbound =>
    rw [exec_transaction, runTransaction, guarded_admitted (firstRefusal_append_eq_none.mpr
      ⟨transactionRefusals_admit hs, bodyRefusals_admit hbarred⟩), hbound]
    rfl
  case written =>
    intro vs c post rets s r b hc hs hn hbarred hbound
    have hpre := writeCalls_quiet [] vs hs.transferring ((hn.after openEvents (by simp [openEvents])).setTxn true)
    refine exec_refused_inBody hs (hn.mono (by omega)) hbarred hbound hpre ?_
    have ht := hs.transferring.after_writes vs
    rcases hc with ⟨rfl, rfl⟩ | ⟨rfl, rfl⟩ | ⟨v, hv, rfl, rfl⟩
    · exact readCall_refused ht
    · exact turnBack_refused ht
    · exact encodeCall_refused rfl hv
  case read =>
    intro vs n c post rets s r b hc hs hn hbarred hbound
    have hn' : NoFailure s.opened (48 * vs.length + 1 + 40 * n) :=
      (hn.after openEvents (by simp [openEvents]; omega)).setTxn true
    have hplace : 2 + (48 * vs.length + 1) = 3 + 48 * vs.length := by omega
    have hpre := writeReadCalls_quiet vs n hs.transferring hn'
    rw [sampledBytes_opened, hplace] at hpre
    refine exec_refused_inBody (pre := writeReadCalls vs n) hs (hn.mono (by omega)) hbarred hbound hpre ?_
    have ht : (s.opened.after (writeReadEvents vs (sampledBytes s (3 + 48 * vs.length) n))).Transferring .input := by
      rw [writeReadEvents, ← State.after_after, ← State.after_after]
      exact (hs.transferring.after_writes vs).after_turn.after_reads _
    rcases hc with ⟨⟨a, rfl⟩, rfl⟩ | ⟨rfl, rfl⟩ | ⟨v, hv, rfl, rfl⟩ | ⟨k, hk, hv, rfl, rfl⟩
    · have hargs : [a].all (Arg.bound (writeReadCalls vs n)) = true := args_bound (pre := writeReadCalls vs n) hbound
      obtain ⟨v, hv⟩ := (sampledBytes_results s vs (3 + 48 * vs.length) n).argValue (a := a) (by simpa using hargs)
      exact writeCall_refused ht hv
    · exact turnBack_refused ht
    · exact encodeCall_refused rfl hv
    · refine encodeCall_refused ?_ hv
      rw [argValue, writeRead_result hk]
      rfl

end Sys2Proof
end

section
/-! PROOFS. The events of fault-free operations counted (70_reset_and_hazards.md R221), and the waits of the register accesses
against the timing contract (R216). -/

namespace Sys2Proof.Machine

/-! ### The events of fault-free operations -/

/-- The events of an operation none of whose calls fails, where its checks let it run; the operations that the counts do not
speak of are left out. -/
def faultFreeEvents (s : State) : Instr → List Event
  | .init => initEvents
  | .setDataDirection d => [.dir d]
  | .writeByte v => writeByteEvents v
  | .readByte => readByteEvents (sampledByte s 0)
  | .readRegister a => readAccessEvents (cmdByte a .read) (sampledByte s 51)
  | .readSeconds => readAccessEvents (cmdByte 0 .read) (sampledByte s 51)
  | .readMinutes => readAccessEvents (cmdByte 1 .read) (sampledByte s 51)
  | .readHours => readAccessEvents (cmdByte 2 .read) (sampledByte s 51)
  | .writeRegister a v => writeAccessEvents (cmdByte a .write) v
  | .writeSeconds v ch => writeAccessEvents (cmdByte 0 .write) (secondsData v ch)
  | .writeMinutes v => writeAccessEvents (cmdByte 1 .write) (minutesData v)
  | .writeHours h m => writeAccessEvents (cmdByte 2 .write) (hoursData h m)
  | .decodeBcd _ | .encodeBcd _ | .transaction _ | .ignoredCommand _ | .ramWriteCommand _ | .ramReadCommand _ => []

/-- The part, if it runs, appends exactly these events. -/
abbrev Emits {α : Type} (s : State) (es : List Event) (c : Called α) : Prop :=
  Ends True (fun _ fs => fs = es) (fun _ fs => fs = es) s c

theorem Plays.emits {α : Type} {es : List Event} {a : α} {s : State} {c : Called α} (h : Plays es a s c)
    (hn : NoFailure s es.length) : Emits s es c := by
  rw [h.eq_ok (Succeeds.of_noFailure hn)]
  exact ⟨es, rfl, rfl⟩

section
variable {s : State} (hn : NoFailure s 101)
include hn

theorem initLines_emits : Emits s initEvents (initLines s) :=
  Ends.guarded fun _ => by
    have hquiet := attemptAll_always_quiet initEvents s (hn.mono (by decide)) (by decide)
    simp only [initEvents, List.map_cons, List.map_nil, Event.prim] at hquiet
    rw [hquiet]
    exact ⟨_, rfl, rfl⟩

theorem setDirection_emits (d : Direction) : Emits s [.dir d] (setDirection d s) :=
  Ends.guarded fun _ => (performAll_plays [.dir d] s (by simp [Event.isFail, Event.isGet])).emits
    (hn.mono (by simp))

theorem shiftOut_emits (v : Byte) : Emits s (writeByteEvents v) (shiftOut v s) :=
  Ends.guarded fun h => by
    obtain ⟨htxn, hdir, hclk⟩ := byteRefusals_eq_none h
    have hplays := shiftOut_plays v htxn hdir hclk
    rw [shiftOut, guarded_admitted h] at hplays
    exact hplays.emits (hn.mono (by simp))

theorem shiftIn_emits : Emits s (readByteEvents (sampledByte s 0)) (shiftIn s) :=
  Ends.guarded fun h => by
    obtain ⟨htxn, hdir, hclk⟩ := byteRefusals_eq_none h
    have hplays := shiftIn_plays htxn hdir hclk
    rw [shiftIn, guarded_admitted h] at hplays
    exact hplays.emits (hn.mono (by simp))

theorem readRegister_emits (a : Nat) :
    Emits s (readAccessEvents (cmdByte a .read) (sampledByte s 51)) (readRegister a s) :=
  Ends.guarded fun h => by
    obtain ⟨ha, hs⟩ := accessRefusals_eq_none h
    have hquiet := readRegister_quiet ha hs (hn.mono (by omega))
    rw [readRegister, guarded_admitted h] at hquiet
    rw [hquiet]
    exact ⟨_, rfl, rfl⟩

theorem writeRegister_emits (a : Nat) (v : Byte) :
    Emits s (writeAccessEvents (cmdByte a .write) v) (writeRegister a v s) :=
  Ends.guarded fun h => by
    obtain ⟨ha, hs⟩ := accessRefusals_eq_none h
    have hquiet := writeRegister_quiet v ha hs hn
    rw [writeRegister, guarded_admitted h] at hquiet
    rw [hquiet]
    exact ⟨_, rfl, rfl⟩

omit hn in
theorem decodeField_emits (r b : Byte) : Emits s [] (decodeField r b s) := by
  cases hd : decodeDigits b with
  | none => rw [decodeField_of_none hd]; exact ⟨[], by simp, rfl⟩
  | some v => rw [decodeField_of_some hd]; exact Ends.pure rfl

omit hn in
theorem encodeField_emits (v : Byte) : Emits s [] (encodeField v s) := Ends.guarded fun _ => Ends.pure rfl

theorem readField_emits (a : Nat) (field : Byte → Byte) (value : Byte → Byte → Value) :
    Emits s (readAccessEvents (cmdByte a .read) (sampledByte s 51)) (readField a field value s) := by
  refine Ends.andThen (readRegister_emits hn a) fun raw es hes => ?_
  subst hes
  refine Ends.andThen (Ok := fun _ fs => fs = []) ((decodeField_emits raw (field raw)).mono (fun _ _ h => h)
    fun _ fs h => ?_) fun v fs hfs => ?_
  · rw [h, List.append_nil]
  · subst hfs
    exact ⟨[], by simp, by simp⟩

theorem writeField_emits (a : Nat) (inRange : Bool) (data : Byte) :
    Emits s (writeAccessEvents (cmdByte a .write) data) (writeField a inRange data s) :=
  Ends.guarded fun _ => writeRegister_emits hn a data

theorem operation_emits {i : Instr} (hi : ∀ b, i ≠ .transaction b) : Emits s (faultFreeEvents s i) (operation i s) := by
  cases i with
  | init => exact (initLines_emits hn).map _
  | setDataDirection d => exact (setDirection_emits hn d).map _
  | writeByte v => exact (shiftOut_emits hn v).map _
  | readByte => exact (shiftIn_emits hn).map _
  | transaction b => exact absurd rfl (hi b)
  | readRegister a => exact (readRegister_emits hn a).map _
  | writeRegister a v => exact (writeRegister_emits hn a v).map _
  | decodeBcd b => exact (decodeField_emits b b).map _
  | encodeBcd v => exact (encodeField_emits v).map _
  | readSeconds => exact readField_emits hn 0 _ _
  | readMinutes => exact readField_emits hn 1 _ _
  | readHours => exact readField_emits hn 2 _ _
  | writeSeconds v ch => exact (writeField_emits hn 0 _ _).map _
  | writeMinutes v => exact (writeField_emits hn 1 _ _).map _
  | writeHours v m => exact (writeField_emits hn 2 _ _).map _
  | ignoredCommand x => exact Ends.pure rfl
  | ramWriteCommand a | ramReadCommand a => trivial

/-- A fault-free operation that is not a transaction appends its events, or is refused and appends none. -/
theorem exec_emits {i : Instr} {t : State} {es : List Event} (hi : ∀ b, i ≠ .transaction b)
    (hignored : ∀ x, i ≠ .ignoredCommand x) (hexec : exec i s = .next t) (htrace : t.trace = s.trace ++ es) :
    es = faultFreeEvents s i ∨ es = [] ∧ ∃ r, t.outcome = some (.refused r) := by
  rcases (operation_emits hn hi).exec hexec hignored with ⟨v, fs, rfl, rfl⟩ | ⟨e, fs, rfl, rfl⟩ | ⟨r, rfl⟩
  · exact .inl (List.append_cancel_left htrace).symm
  · exact .inl (List.append_cancel_left htrace).symm
  · exact .inr ⟨List.append_cancel_left (htrace.symm.trans (List.append_nil _).symm), r, rfl⟩

end

/-- The length, the clock pulses and the samples of some events. -/
def counts (es : List Event) : Nat × Nat × Nat := (es.length, es.countP Event.isRise, es.countP Event.isGet)

theorem counts_writeByte (v : Byte) : counts (writeByteEvents v) = (48, 8, 0) := rfl

theorem counts_readByte (v : Byte) : counts (readByteEvents v) = (40, 8, 8) := rfl

theorem counts_append (es fs : List Event) : counts (es ++ fs) = counts es + counts fs := by
  simp [counts]

theorem counts_writeAccess (c v : Byte) : counts (writeAccessEvents c v) = (101, 16, 0) := by
  simp only [writeAccessEvents, counts_append, counts_writeByte]
  rfl

theorem counts_readAccess (c v : Byte) : counts (readAccessEvents c v) = (95, 16, 8) := by
  simp only [readAccessEvents, counts_append, counts_writeByte, counts_readByte]
  rfl

/-- Settles O54: the events of each operation, counted. -/
theorem eventCounts : Obligations.EventCounts := by
  intro i s t es hn hexec htrace hrefused
  have hes (hi : ∀ b, i ≠ .transaction b) (hignored : ∀ x, i ≠ .ignoredCommand x) : es = faultFreeEvents s i :=
    (exec_emits hn hi hignored hexec htrace).resolve_right fun ⟨_, r, hr⟩ => hrefused r hr
  cases i with
  | transaction _ | ignoredCommand _ | ramWriteCommand _ | ramReadCommand _ => trivial
  | init | setDataDirection _ | decodeBcd _ | encodeBcd _ =>
    rw [hes (by simp) (by simp)]
    rfl
  | writeByte v => rw [hes (by simp) (by simp)]; exact counts_writeByte v
  | readByte => rw [hes (by simp) (by simp)]; exact counts_readByte _
  | readRegister _ | readSeconds | readMinutes | readHours =>
    rw [hes (by simp) (by simp)]
    exact counts_readAccess _ _
  | writeRegister _ _ | writeSeconds _ _ | writeMinutes _ | writeHours _ _ =>
    rw [hes (by simp) (by simp)]
    exact counts_writeAccess _ _

/-! ### The timing contract -/

section
variable {t : Timing} {n : Elapsed}

theorem timely_append (n : Elapsed) (es fs : List Event) :
    timely t n (es ++ fs) = (timely t n es && timely t (n.run t es) fs) := by
  induction es generalizing n with
  | nil => rfl
  | cons e es ih => simp [timely, Elapsed.run, ih, Bool.and_assoc]

theorem elapsed_run_append (n : Elapsed) (es fs : List Event) : n.run t (es ++ fs) = (n.run t es).run t fs := by
  induction es generalizing n with
  | nil => rfl
  | cons e es ih => exact ih _

/-- More time keeps a separation. -/
theorem atLeast_later {d : Nat} {o : Option Nat} (h : atLeast d o = true) (k : Nat) :
    atLeast d (o.map (· + k)) = true := by
  cases o with
  | none => rfl
  | some m => simp only [atLeast, decide_eq_true_eq, Option.map_some] at h ⊢; omega

/-- Waiting for a separation makes it. -/
theorem atLeast_waited (d : Nat) (o : Option Nat) : atLeast d (o.map (· + d)) = true := by
  cases o <;> simp [atLeast]

theorem atLeast_self (d : Nat) : atLeast d (some d) = true := by simp [atLeast]

/-- A shorter separation is kept with a longer one. -/
theorem atLeast_mono {d d' : Nat} {o : Option Nat} (hd : d ≤ d') (h : atLeast d' o = true) : atLeast d o = true := by
  cases o with
  | none => rfl
  | some m => simp only [atLeast, decide_eq_true_eq] at h ⊢; omega

/-- The separations that hold between two bit cycles. -/
structure BetweenBits (t : Timing) (n : Elapsed) : Prop where
  rise : atLeast t.tCDH n.rise = true
  fall : atLeast t.tCL n.fall = true
  ceOn : atLeast t.tCC n.ceOn = true

/-- The same with the data line settled, as after a write bit cycle. -/
structure AfterWrite (t : Timing) (n : Elapsed) : Prop extends BetweenBits t n where
  dio : atLeast t.tDC n.dio = true

/-- The events meet the contract and lead to times that meet `Q`. -/
def Timed (t : Timing) (Q : Elapsed → Prop) (n : Elapsed) (es : List Event) : Prop :=
  timely t n es = true ∧ Q (n.run t es)

theorem Timed.append {Q R : Elapsed → Prop} {es fs : List Event} (h : Timed t Q n es)
    (hf : ∀ m, Q m → Timed t R m fs) : Timed t R n (es ++ fs) := by
  obtain ⟨hes, hQ⟩ := h
  obtain ⟨hfs, hR⟩ := hf _ hQ
  exact ⟨by rw [timely_append, hes, hfs]; rfl, by rw [elapsed_run_append]; exact hR⟩

/-- The opening of a transaction waits for the first rise. -/
theorem timed_open (h : Settled t n) : Timed t (BetweenBits t) n openEvents := by
  obtain ⟨hoff, hfall, hrise⟩ := h
  refine ⟨by simp [openEvents, timely, onTime, hoff], ?_, ?_, ?_⟩
  · exact atLeast_later hrise _
  · exact atLeast_later hfall _
  · exact atLeast_waited _ (some 0)

section
variable (ht : TimingConsistent t)
include ht

theorem atLeast_pulse : atLeast t.tCDH (some (0 + t.tCH + t.tCL)) = true := by
  obtain ⟨-, hhold⟩ := ht
  simpa [atLeast] using hhold

/-- A write bit cycle waits between its edges. -/
theorem timed_writeBit (b : Bool) (h : BetweenBits t n) : Timed t (AfterWrite t) n (writeBitEvents b) := by
  have hrise := h.rise
  have hfall := atLeast_later h.fall t.tDC
  have hce := atLeast_later h.ceOn t.tDC
  have hdio := atLeast_waited t.tDC (some 0)
  refine ⟨?_, ⟨atLeast_pulse ht, atLeast_waited t.tCL (some 0), ?_⟩, ?_⟩
  · simp [writeBitEvents, timely, onTime, Elapsed.next, Elapsed.later, timeOf, hrise, hfall, hce, atLeast_self]
  · exact atLeast_later (atLeast_later hce _) _
  · exact atLeast_later (atLeast_later hdio _) _

/-- A read bit cycle samples after the fall before it. -/
theorem timed_readBit (b : Bool) (h : AfterWrite t n) : Timed t (AfterWrite t) n (readBitEvents b) := by
  have hsample := atLeast_mono ht.1 h.fall
  refine ⟨?_, ⟨atLeast_pulse ht, atLeast_waited t.tCL (some 0), ?_⟩, ?_⟩
  · simp [readBitEvents, timely, onTime, Elapsed.next, Elapsed.later, timeOf, hsample, h.fall, h.ceOn, h.dio, atLeast_self]
  · exact atLeast_later (atLeast_later h.ceOn _) _
  · exact atLeast_later (atLeast_later h.dio _) _

theorem timed_writeBits (b : Bool) (bs : List Bool) (h : BetweenBits t n) :
    Timed t (AfterWrite t) n ((b :: bs).flatMap writeBitEvents) := by
  induction bs generalizing b n with
  | nil => simpa using timed_writeBit ht b h
  | cons b' bs ih =>
    rw [List.flatMap_cons]
    exact (timed_writeBit ht b h).append fun m hm => ih b' hm.toBetweenBits

theorem timed_readBits (bs : List Bool) (h : AfterWrite t n) : Timed t (AfterWrite t) n (bs.flatMap readBitEvents) := by
  induction bs generalizing n with
  | nil => exact ⟨rfl, h⟩
  | cons b bs ih =>
    rw [List.flatMap_cons]
    exact (timed_readBit ht b h).append fun m hm => ih hm

theorem timed_writeByte (v : Byte) (h : BetweenBits t n) : Timed t (AfterWrite t) n (writeByteEvents v) :=
  timed_writeBits ht (v.getLsbD 0) [v.getLsbD 1, v.getLsbD 2, v.getLsbD 3, v.getLsbD 4, v.getLsbD 5, v.getLsbD 6,
    v.getLsbD 7] h

theorem timed_readByte (v : Byte) (h : AfterWrite t n) : Timed t (AfterWrite t) n (readByteEvents v) :=
  timed_readBits ht (bitsOf v) h

end

/-- The cleanup waits before and after the deassert. -/
theorem timed_closeWrite (h : BetweenBits t n) : Timed t (Settled t) n closeWriteEvents := by
  have hcch := atLeast_waited t.tCCH n.fall
  refine ⟨by simp [closeWriteEvents, timely, onTime, Elapsed.next, Elapsed.later, timeOf, hcch], ?_, ?_, ?_⟩
  · exact atLeast_waited t.tCWH (some 0)
  · exact atLeast_later (atLeast_later h.fall _) _
  · exact atLeast_later (atLeast_later h.rise _) _

theorem timed_closeRead (h : BetweenBits t n) : Timed t (Settled t) n closeReadEvents := by
  have hcch := atLeast_waited t.tCCH n.fall
  refine ⟨by simp [closeReadEvents, timely, onTime, Elapsed.next, Elapsed.later, timeOf, hcch], ?_, ?_, ?_⟩
  · exact atLeast_waited t.tCWH (some 0)
  · exact atLeast_later (atLeast_later h.fall _) _
  · exact atLeast_later (atLeast_later h.rise _) _

theorem timed_writeAccess (ht : TimingConsistent t) (c v : Byte) (h : Settled t n) :
    Timed t (Settled t) n (writeAccessEvents c v) :=
  (((timed_open h).append fun _ hm => timed_writeByte ht c hm).append fun _ hm =>
    timed_writeByte ht v hm.toBetweenBits).append fun _ hm => timed_closeWrite hm.toBetweenBits

theorem timed_turn (h : AfterWrite t n) : Timed t (AfterWrite t) n [.dir .input] := ⟨rfl, h⟩

theorem timed_readAccess (ht : TimingConsistent t) (c v : Byte) (h : Settled t n) :
    Timed t (Settled t) n (readAccessEvents c v) :=
  ((((timed_open h).append fun _ hm => timed_writeByte ht c hm).append fun _ hm => timed_turn hm).append
    fun _ hm => timed_readByte ht v hm).append fun _ hm => timed_closeRead hm.toBetweenBits

end

/-- Settles O55: the parts of an access one after another; a refused access appends nothing. -/
theorem accessesKeepTimingContract : Obligations.AccessesKeepTimingContract := by
  intro i s t es n hi ht hn hquiet hexec htrace
  rcases hi with ⟨a, rfl⟩ | ⟨a, v, rfl⟩
  · rcases exec_emits hquiet (by simp) (by simp) hexec htrace with rfl | ⟨rfl, -⟩
    · exact timed_readAccess ht _ _ hn
    · exact ⟨rfl, hn⟩
  · rcases exec_emits hquiet (by simp) (by simp) hexec htrace with rfl | ⟨rfl, -⟩
    · exact timed_writeAccess ht _ _ hn
    · exact ⟨rfl, hn⟩

end Sys2Proof.Machine
end

section
/-! PROOFS. The reference responder (10_state.md R33) during whole transactions: what it makes of the bits that the engine
writes and reads, and what a register access leaves in it. -/

namespace Sys2Proof.Machine

/-! ### Events in order -/

section
variable {d : Responder}

theorem Responder.run_append (d : Responder) (es fs : List Event) : d.run (es ++ fs) = (d.run es).run fs := by
  induction es generalizing d with
  | nil => rfl
  | cons e es ih => exact ih _

theorem Responder.explains_append (d : Responder) (es fs : List Event) :
    d.explains (es ++ fs) = (d.explains es && (d.run es).explains fs) := by
  induction es generalizing d with
  | nil => rfl
  | cons e es ih => simp [Responder.explains, Responder.run, ih, Bool.and_assoc]

/-- The responder's lines follow the trace. -/
theorem Responder.run_lines (d : Responder) (es : List Event) : (d.run es).lines = d.lines.replay es := by
  induction es generalizing d with
  | nil => rfl
  | cons e es ih => exact ih _

/-- The phase and the registers after some events. -/
def Responder.Reaches (d : Responder) (es : List Event) (p : Phase) (reg : Vector Byte 32) : Prop :=
  (d.run es).phase = p ∧ (d.run es).reg = reg

theorem Responder.Reaches.append {es fs : List Event} {p q : Phase} {reg reg' : Vector Byte 32}
    (hes : d.Reaches es p reg)
    (hfs : ∀ d' : Responder, d'.phase = p → d'.reg = reg → d'.lines = d.lines.replay es → d'.Reaches fs q reg') :
    d.Reaches (es ++ fs) q reg' := by
  rw [Responder.Reaches, Responder.run_append]
  exact hfs _ hes.1 hes.2 (d.run_lines es)

/-! ### Bits that the engine writes -/

/-- The lines with which the responder reads bits: CE asserted, CLK Low, the data line driven by the engine. -/
structure Lines.Written (l : Lines) : Prop where
  ce : l.ce = .known .asserted
  clk : l.clk = .known .low
  dir : l.dir = .known .output

theorem Lines.Written.replay {l : Lines} (h : l.Written) (bs : List Bool) :
    (l.replay (bs.flatMap writeBitEvents)).Written := by
  rw [replay_writeBits l bs h.clk]
  exact ⟨h.ce, h.clk, h.dir⟩

theorem dioBit_driven {l : Lines} (hdir : l.dir = .known .output) (b : Bool) :
    dioBit { l with dout := .known (levelOf b) } = some b := by
  cases b <;> simp [dioBit, levelOf, hdir]

/-- The phase after a falling edge. -/
def Phase.fallen : Phase → Phase
  | .rpending a => .rdata a 0
  | .rdata a j => .rdata a (j + 1)
  | .idle => .idle
  | .cmd k sr => .cmd k sr
  | .ignore => .ignore
  | .wdata a k sr => .wdata a k sr
  | .done => .done
  | .broken => .broken

@[simp] theorem Responder.fall_phase (d : Responder) : d.fall.phase = d.phase.fallen := by
  obtain ⟨reg, phase, lines⟩ := d
  cases phase <;> rfl

@[simp] theorem Responder.fall_reg (d : Responder) : d.fall.reg = d.reg := by
  obtain ⟨reg, phase, lines⟩ := d
  cases phase <;> rfl

/-- A write bit cycle is one rise, the bit on the data line, and one fall. -/
theorem Responder.reaches_writeBit (h : d.lines.Written) (b : Bool) {p : Phase} {reg : Vector Byte 32}
    (hrise : ∀ l : Lines, dioBit l = some b → ({ d with lines := l } : Responder).rise.phase.fallen = p ∧
      ({ d with lines := l } : Responder).rise.reg = reg) : d.Reaches (writeBitEvents b) p reg := by
  obtain ⟨hphase, hreg⟩ := hrise _ (dioBit_driven h.dir b)
  rw [← hphase, ← hreg]
  constructor <;>
    simp [writeBitEvents, Responder.run, Responder.next, Responder.react, Lines.next, h.ce, h.clk, levelOf]

/-- The bits read so far, the first of them bit 0. -/
def shiftBits : Byte → Nat → List Bool → Byte
  | sr, _, [] => sr
  | sr, k, b :: bs => shiftBits (shiftBit sr k b) (k + 1) bs

theorem shiftBits_bitsOf : ∀ v : Byte, shiftBits 0 0 (bitsOf v) = v := by decide

theorem shiftBits_append (sr : Byte) (k : Nat) (bs : List Bool) (b : Bool) :
    shiftBits sr k (bs ++ [b]) = shiftBit (shiftBits sr k bs) (k + bs.length) b := by
  induction bs generalizing sr k with
  | nil => rfl
  | cons b' bs ih => simp [shiftBits, ih, Nat.add_comm, Nat.add_left_comm]

/-- The phases in which the responder reads bits. -/
inductive Collects : (Nat → Byte → Phase) → Prop where
  | command : Collects .cmd
  | data (a : Address) : Collects (.wdata a)

theorem Responder.reaches_bit {mk : Nat → Byte → Phase} (hmk : Collects mk) {k : Nat} {sr : Byte} (hk : k ≠ 7)
    (h : d.lines.Written) (hp : d.phase = mk k sr) (b : Bool) :
    d.Reaches (writeBitEvents b) (mk (k + 1) (shiftBit sr k b)) d.reg := by
  refine Responder.reaches_writeBit h b fun l hl => ?_
  cases hmk <;> simp [Responder.rise, Phase.fallen, hp, hl, hk]

/-- Bits before the last of a byte. -/
theorem Responder.reaches_bits {mk : Nat → Byte → Phase} (hmk : Collects mk) (bs : List Bool) {k : Nat} {sr : Byte}
    (hk : k + bs.length ≤ 7) (h : d.lines.Written) (hp : d.phase = mk k sr) :
    d.Reaches (bs.flatMap writeBitEvents) (mk (k + bs.length) (shiftBits sr k bs)) d.reg := by
  induction bs generalizing d k sr with
  | nil => exact ⟨hp, rfl⟩
  | cons b bs ih =>
    rw [List.length_cons] at hk
    rw [List.flatMap_cons, List.length_cons, Nat.add_comm bs.length, ← Nat.add_assoc]
    refine (Responder.reaches_bit hmk (by omega) h hp b).append fun d' hp' hreg hlines => ?_
    rw [← hreg]
    have hwritten := h.replay [b]
    rw [List.flatMap_singleton, ← hlines] at hwritten
    exact ih (by omega) hwritten hp'

theorem writeByteEvents_eq (v : Byte) :
    writeByteEvents v = ((bitsOf v).take 7).flatMap writeBitEvents ++ writeBitEvents (v.getLsbD 7) := rfl

/-- The bits of a byte but the last; the last one completes it. -/
theorem Responder.reaches_seven {mk : Nat → Byte → Phase} (hmk : Collects mk) (v : Byte) (h : d.lines.Written)
    (hp : d.phase = mk 0 0) : ∃ sr, d.Reaches (((bitsOf v).take 7).flatMap writeBitEvents) (mk 7 sr) d.reg ∧
      shiftBit sr 7 (v.getLsbD 7) = v :=
  ⟨_, Responder.reaches_bits hmk _ (Nat.le_refl 7) h hp,
    (shiftBits_append 0 0 ((bitsOf v).take 7) (v.getLsbD 7)).symm.trans (shiftBits_bitsOf v)⟩

/-- The bits of a byte: it ends as the last bit makes it. -/
theorem Responder.reaches_byte {mk : Nat → Byte → Phase} (hmk : Collects mk) (v : Byte) (h : d.lines.Written)
    (hp : d.phase = mk 0 0) {p : Phase} {reg : Vector Byte 32}
    (hlast : ∀ (d' : Responder) (sr : Byte) (b : Bool), d'.lines.Written → d'.reg = d.reg → d'.phase = mk 7 sr →
      shiftBit sr 7 b = v → d'.Reaches (writeBitEvents b) p reg) :
    d.Reaches (writeByteEvents v) p reg := by
  obtain ⟨sr, hseven, hsr⟩ := Responder.reaches_seven hmk v h hp
  exact hseven.append fun d' hp' hreg hlines => hlast d' sr _ (hlines ▸ h.replay _) hreg hp' hsr

/-- The command byte, all of it read. -/
theorem Responder.reaches_command (c : Byte) (h : d.lines.Written) (hp : d.phase = .cmd 0 0) :
    d.Reaches (writeByteEvents c) (afterCommand c).fallen d.reg := by
  refine Responder.reaches_byte .command c h hp fun d' sr b h' hreg hp' hsr => ?_
  refine Responder.reaches_writeBit h' b fun l hl => ?_
  simp [Responder.rise, hp', hl, hsr, hreg]

/-- The data byte, all of it read: it is in its register. -/
theorem Responder.reaches_data {a : Address} (v : Byte) (h : d.lines.Written) (hp : d.phase = .wdata a 0 0) :
    d.Reaches (writeByteEvents v) .done (d.reg.set a.toNat v a.isLt) := by
  refine Responder.reaches_byte (.data a) v h hp fun d' sr b h' hreg hp' hsr => ?_
  refine Responder.reaches_writeBit h' b fun l hl => ?_
  simp [Responder.rise, Phase.fallen, hp', hl, hsr, hreg]

/-! ### Bits that the engine reads -/

/-- The lines with which the responder presents bits: CE asserted, CLK Low. -/
structure Lines.Sampled (l : Lines) : Prop where
  ce : l.ce = .known .asserted
  clk : l.clk = .known .low

/-- A read bit cycle samples the bit presented and goes on to the next. -/
theorem Responder.reaches_readBit {a : Address} {j : Nat} (h : d.lines.Sampled) (hp : d.phase = .rdata a j) (b : Bool) :
    d.Reaches (readBitEvents b) (.rdata a (j + 1)) d.reg := by
  constructor <;>
    simp [readBitEvents, Responder.run, Responder.next, Responder.react, Responder.rise, Lines.next, Phase.fallen, h.ce,
      h.clk, hp]

theorem Responder.bit_of_explains {a : Address} {j : Nat} (hp : d.phase = .rdata a j) (hj : j ≤ 7) {b : Bool}
    (h : d.explains (readBitEvents b) = true) : b = (d.regAt a).getLsbD j := by
  simp only [readBitEvents, Responder.explains, Bool.and_eq_true] at h
  simpa [Responder.allows, Responder.answer, hp, hj] using h.1

/-- The responder after a read bit cycle has the same lines and registers, and presents the next bit. -/
theorem Responder.after_readBit {a : Address} {j : Nat} (h : d.lines.Sampled) (hp : d.phase = .rdata a j) (b : Bool) :
    (d.run (readBitEvents b)).lines.Sampled ∧ (d.run (readBitEvents b)).phase = .rdata a (j + 1) ∧
      (d.run (readBitEvents b)).reg = d.reg := by
  obtain ⟨hphase, hreg⟩ := Responder.reaches_readBit h hp b
  have hlines := replay_readBits d.lines [b] h.clk
  rw [List.flatMap_singleton, ← Responder.run_lines] at hlines
  exact ⟨hlines ▸ h, hphase, hreg⟩

theorem Responder.reaches_readBits {a : Address} (bs : List Bool) {j : Nat} (h : d.lines.Sampled)
    (hp : d.phase = .rdata a j) : d.Reaches (bs.flatMap readBitEvents) (.rdata a (j + bs.length)) d.reg := by
  induction bs generalizing d j with
  | nil => exact ⟨hp, rfl⟩
  | cons b bs ih =>
    obtain ⟨hlines, hphase, hreg⟩ := Responder.after_readBit h hp b
    rw [List.flatMap_cons, Responder.Reaches, Responder.run_append, List.length_cons, Nat.add_comm bs.length,
      ← Nat.add_assoc, ← hreg]
    exact ih hlines hphase

/-- The samples are the bits of the register, from the one presented on. -/
theorem Responder.bits_of_explains {a : Address} (bs : List Bool) {j : Nat} (hj : j + bs.length ≤ 8)
    (h : d.lines.Sampled) (hp : d.phase = .rdata a j) (hexplains : d.explains (bs.flatMap readBitEvents) = true) :
    bs = (List.range' j bs.length).map (d.regAt a).getLsbD := by
  induction bs generalizing d j with
  | nil => rfl
  | cons b bs ih =>
    rw [List.length_cons] at hj
    rw [List.flatMap_cons, Responder.explains_append, Bool.and_eq_true] at hexplains
    obtain ⟨hbit, hrest⟩ := hexplains
    obtain ⟨hlines, hphase, hreg⟩ := Responder.after_readBit h hp b
    have hbits := ih (by omega) hlines hphase hrest
    rw [Responder.regAt, hreg] at hbits
    rw [List.length_cons, List.range'_succ, List.map_cons, ← Responder.bit_of_explains hp (by omega) hbit, Responder.regAt,
      ← hbits]

/-- The byte sampled is that of the register. -/
theorem Responder.byte_of_explains {a : Address} {v : Byte} (h : d.lines.Sampled) (hp : d.phase = .rdata a 0)
    (hexplains : d.explains (readByteEvents v) = true) : v = d.regAt a := by
  have hbits : bitsOf v = bitsOf (d.regAt a) := Responder.bits_of_explains (bitsOf v) (Nat.le_refl 8) h hp hexplains
  rw [← byteOf_bitsOf v, hbits, byteOf_bitsOf]

/-! ### Whole accesses -/

/-- The opening of a transaction: the responder awaits a command. -/
theorem Responder.reaches_open (d : Responder) : d.Reaches openEvents (.cmd 0 0) d.reg := ⟨rfl, rfl⟩

theorem Responder.reaches_closeWrite (d : Responder) : d.Reaches closeWriteEvents .idle d.reg := ⟨rfl, rfl⟩

theorem Responder.reaches_closeRead (d : Responder) : d.Reaches closeReadEvents .idle d.reg := ⟨rfl, rfl⟩

end

theorem afterCommand_write (a : Address) : afterCommand (cmdByte a.toNat .write) = .wdata a 0 0 := by
  rw [afterCommand, classify_cmdByte_write a.toNat (Nat.le_of_lt_succ a.isLt), BitVec.ofNat_toNat, BitVec.setWidth_eq]

theorem afterCommand_read (a : Address) : afterCommand (cmdByte a.toNat .read) = .rpending a := by
  rw [afterCommand, classify_cmdByte_read a.toNat (Nat.le_of_lt_succ a.isLt), BitVec.ofNat_toNat, BitVec.setWidth_eq]

/-- The responder is in step with an idle engine. -/
structure Responder.Follows (d : Responder) (s : State) : Prop where
  idle : s.Idle
  lines : d.lines = s.lines

section
variable {d : Responder} {s : State} (h : d.Follows s)
include h

/-- The lines after the opening and a command byte. -/
theorem Responder.Follows.written (c : Byte) : (d.lines.replay (openEvents ++ writeByteEvents c)).Written := by
  have hopen : (d.lines.replay openEvents).Written := h.lines ▸ ⟨rfl, h.idle.2.1, h.idle.2.2.1⟩
  rw [Lines.replay_append]
  exact hopen.replay (bitsOf c)

/-- The opening and a command byte. -/
theorem Responder.Follows.reaches_command (c : Byte) :
    d.Reaches (openEvents ++ writeByteEvents c) (afterCommand c).fallen d.reg :=
  d.reaches_open.append fun d' hp hreg hlines => by
    rw [← hreg]
    exact Responder.reaches_command c (hlines ▸ h.lines ▸ ⟨rfl, h.idle.2.1, h.idle.2.2.1⟩) hp

theorem Responder.Follows.reaches_writeAccess (a : Address) (v : Byte) :
    d.Reaches (writeAccessEvents (cmdByte a.toNat .write) v) .idle (d.reg.set a.toNat v a.isLt) := by
  have hcommand := h.reaches_command (cmdByte a.toNat .write)
  rw [afterCommand_write] at hcommand
  have hdata := hcommand.append fun d' hp hreg hlines =>
    hreg ▸ Responder.reaches_data v (hlines ▸ h.written _) hp
  exact hdata.append fun d' _ hreg _ => hreg ▸ d'.reaches_closeWrite

theorem Responder.Follows.sampled (c : Byte) :
    (d.lines.replay (openEvents ++ writeByteEvents c ++ [.dir .input])).Sampled := by
  rw [Lines.replay_append]
  exact ⟨(h.written c).ce, (h.written c).clk⟩

/-- The opening, the command byte of a read and the turn of the data line. -/
theorem Responder.Follows.reaches_turned (a : Address) :
    d.Reaches (openEvents ++ writeByteEvents (cmdByte a.toNat .read) ++ [.dir .input]) (.rdata a 0) d.reg := by
  have hcommand := h.reaches_command (cmdByte a.toNat .read)
  rw [afterCommand_read] at hcommand
  exact hcommand.append fun d' hp hreg _ => ⟨hp, hreg⟩

theorem Responder.Follows.reaches_readAccess (a : Address) (v : Byte) :
    d.Reaches (readAccessEvents (cmdByte a.toNat .read) v) .idle d.reg := by
  have hdata := (h.reaches_turned a).append fun d' hp hreg hlines =>
    hreg ▸ Responder.reaches_readBits (bitsOf v) (hlines ▸ h.sampled _) hp
  exact hdata.append fun d' _ hreg _ => hreg ▸ d'.reaches_closeRead

/-- The byte sampled by a read access is that of the register it addresses. -/
theorem Responder.Follows.byte_of_explains (a : Address) {v : Byte}
    (hexplains : d.explains (readAccessEvents (cmdByte a.toNat .read) v) = true) : v = d.regAt a := by
  obtain ⟨hp, hreg⟩ := h.reaches_turned a
  rw [readAccessEvents, Responder.explains_append, Responder.explains_append, Bool.and_eq_true, Bool.and_eq_true]
    at hexplains
  obtain ⟨⟨-, hsamples⟩, -⟩ := hexplains
  rw [Responder.byte_of_explains (Responder.run_lines d _ ▸ h.sampled _) hp hsamples, Responder.regAt, hreg,
    Responder.regAt]

end

section
variable {a : Address} {s t : State} {es : List Event} (hs : s.Idle)
include hs

/-- What a fault-free write access appends. -/
theorem writeAccess_exec {v : Byte} (hn : NoFailure s 101) (hexec : exec (.writeRegister a.toNat v) s = .next t)
    (htrace : t.trace = s.trace ++ es) :
    es = writeAccessEvents (cmdByte a.toNat .write) v ∧ t = (s.after es).setOutcome (.ok .unit) := by
  rw [exec_writeRegister, writeRegister_quiet v (Nat.le_of_lt_succ a.isLt) hs hn] at hexec
  cases hexec
  obtain rfl := List.append_cancel_left htrace
  exact ⟨rfl, rfl⟩

/-- What a fault-free read access appends. -/
theorem readAccess_exec (hn : NoFailure s 95) (hexec : exec (.readRegister a.toNat) s = .next t)
    (htrace : t.trace = s.trace ++ es) : es = readAccessEvents (cmdByte a.toNat .read) (sampledByte s 51) ∧
      t = (s.after es).setOutcome (.ok (.byte (sampledByte s 51))) := by
  rw [exec_readRegister, readRegister_quiet (Nat.le_of_lt_succ a.isLt) hs hn] at hexec
  cases hexec
  obtain rfl := List.append_cancel_left htrace
  exact ⟨rfl, rfl⟩

end

theorem Responder.lines_after {d : Responder} {s : State} (h : d.lines = s.lines) (es : List Event) (r : Result) :
    (d.run es).lines = ((s.after es).setOutcome r).lines := by
  rw [Responder.run_lines, h]
  rfl

/-- The registers after one of them was written. -/
theorem regAt_set {d d' : Responder} {a : Address} {v : Byte} (h : d'.reg = d.reg.set a.toNat v a.isLt) (a' : Address) :
    d'.regAt a' = if a' = a then v else d.regAt a' := by
  simp only [Responder.regAt, h, Vector.getElem_set, BitVec.toNat_inj, eq_comm]

/-- Settles O56: the command byte makes the responder await the data byte, and its last bit puts it into the register. -/
theorem writeReachesResponder : Obligations.WriteReachesResponder := by
  intro a v s t es d hs hn _ hlines hexec htrace
  obtain ⟨rfl, rfl⟩ := writeAccess_exec hs hn hexec htrace
  obtain ⟨hphase, hreg⟩ := Responder.Follows.reaches_writeAccess ⟨hs, hlines⟩ a v
  exact ⟨hphase, Responder.lines_after hlines _ _, regAt_set hreg⟩

/-- Settles O57: the command byte makes the responder present the register's bits in the order of the samples. -/
theorem readReturnsResponderRegister : Obligations.ReadReturnsResponderRegister := by
  intro a s t es d hs hn _ hlines hexec htrace hexplains
  obtain ⟨rfl, rfl⟩ := readAccess_exec hs hn hexec htrace
  have hfollows : d.Follows s := ⟨hs, hlines⟩
  obtain ⟨hphase, hreg⟩ := hfollows.reaches_readAccess a (sampledByte s 51)
  refine ⟨?_, hphase, Responder.lines_after hlines _ _, fun a' => by rw [Responder.regAt, hreg, Responder.regAt]⟩
  rw [← hfollows.byte_of_explains a hexplains]
  rfl

/-! ### A time field written and read back -/

/-- The engine and the responder after a fault-free write access, the read access after it and what it samples. -/
theorem readAfterWrite {a : Address} {data : Byte} {w r : Instr} {result : Byte → Result} {s t u : State}
    {es fs : List Event} {d : Responder} (hs : s.Idle) (hn : NoFailure s 196) (hlines : d.lines = s.lines)
    (hwrite : exec w s = .next (afterWrite s (cmdByte a.toNat .write) data))
    (hread : ∀ t : State, t.Idle → NoFailure t 95 →
      exec r t = .next (afterRead t (cmdByte a.toNat .read) (result (sampledByte t 51))))
    (hexec : exec w s = .next t) (htrace : t.trace = s.trace ++ es) (hexec' : exec r t = .next u)
    (htrace' : u.trace = t.trace ++ fs) (hexplains : d.explains (es ++ fs) = true) :
    u.outcome = some (result data) := by
  obtain rfl : afterWrite s (cmdByte a.toNat .write) data = t := by
    rw [hwrite] at hexec
    injection hexec
  obtain rfl : writeAccessEvents (cmdByte a.toNat .write) data = es := List.append_cancel_left htrace
  have hidle : (afterWrite s (cmdByte a.toNat .write) data).Idle := hs
  have hquiet : NoFailure (afterWrite s (cmdByte a.toNat .write) data) 95 :=
    hn.after (writeAccessEvents (cmdByte a.toNat .write) data) (m := 95) (Nat.le_refl 196)
  rw [hread _ hidle hquiet] at hexec'
  injection hexec' with hu
  subst hu
  obtain rfl := List.append_cancel_left htrace'
  obtain ⟨-, hreg⟩ := Responder.Follows.reaches_writeAccess ⟨hs, hlines⟩ a data
  have hfollows : (d.run (writeAccessEvents (cmdByte a.toNat .write) data)).Follows
      (afterWrite s (cmdByte a.toNat .write) data) := by
    refine ⟨hidle, ?_⟩
    rw [← after_writeAccess hs]
    exact Responder.lines_after hlines _ _
  rw [Responder.explains_append, Bool.and_eq_true] at hexplains
  have hbyte := hfollows.byte_of_explains a hexplains.2
  rw [regAt_set hreg, if_pos rfl] at hbyte
  rw [← hbyte]
  rfl

/-- Settles O59: each field's data byte is what the register holds, and its digits are those of the value. -/
theorem timeRoundTripUnderResponder : Obligations.TimeRoundTripUnderResponder := by
  intro w r v s t u es fs d hwf hop hs hn _ hlines hexec htrace hexec' htrace' hexplains
  have hn' : NoFailure s 101 := hn.mono (by omega)
  have hdigits {n : Nat} (hn : n < 256) : (BitVec.ofNat 8 n).toNat = n := by
    rw [BitVec.toNat_ofNat]
    omega
  have hround (a : Address) (result : Byte → Result) {data : Byte}
      (hwrite : exec w s = .next (afterWrite s (cmdByte a.toNat .write) data))
      (hread : ∀ t : State, t.Idle → NoFailure t 95 →
        exec r t = .next (afterRead t (cmdByte a.toNat .read) (result (sampledByte t 51)))) :
      u.outcome = some (result data) :=
    readAfterWrite hs hn hlines hwrite hread hexec htrace hexec' htrace' hexplains
  rcases hop with ⟨x, ch, rfl, rfl, rfl⟩ | ⟨x, rfl, rfl, rfl⟩ | ⟨h, rfl, rfl, rfl⟩ | ⟨h, pm, rfl, rfl, rfl⟩
  · have hx : x.toNat ≤ 59 := of_decide_eq_true hwf
    rw [hround 0 secondsResult (writeSecondsSendsByte x ch s hx hs hn') readSecondsResult]
    refine congrArg some (secondsResult_digits ?_)
    rw [hdigits (by split <;> omega)]
    split <;> omega
  · have hx : x.toNat ≤ 59 := of_decide_eq_true hwf
    rw [hround 1 minutesResult (writeMinutesSendsByte x s hx hs hn') readMinutesResult]
    exact congrArg some (minutesResult_digits (by omega) (hdigits (by omega)))
  · have hh : h.toNat ≤ 23 := of_decide_eq_true hwf
    rw [hround 2 hoursResult (writeHoursSendsByte.1 h s hh hs hn') readHoursResult]
    exact congrArg some (hoursResult_h24 (by omega) (hdigits (by omega)))
  · obtain ⟨hlow, hhigh⟩ : 1 ≤ h.toNat ∧ h.toNat ≤ 12 := of_decide_eq_true hwf
    rw [hround 2 hoursResult (writeHoursSendsByte.2 h pm s hlow hhigh hs hn') readHoursResult]
    exact congrArg some (hoursResult_h12 (by omega) (hdigits (by split <;> omega)))

end Sys2Proof.Machine
end

section
/-! PROOFS. The reference responder (10_state.md R33) during a transaction whose command byte is of no clock register
(20_memory.md R53): it writes nothing and presents no bit, whatever the body does and whatever fails. -/

namespace Sys2Proof.Machine

/-- A phase in which the responder presents no bit and has none to write. -/
def Phase.Mute : Phase → Prop
  | .idle | .cmd _ _ | .ignore | .broken => True
  | .wdata _ _ _ | .rpending _ | .rdata _ _ | .done => False

/-- A mute phase that no clock edge ends. -/
def Phase.Deaf : Phase → Prop
  | .idle | .ignore | .broken => True
  | .cmd _ _ | .wdata _ _ _ | .rpending _ | .rdata _ _ | .done => False

theorem Phase.Deaf.mute {p : Phase} (h : p.Deaf) : p.Mute := by
  cases p with
  | idle | ignore | broken => trivial
  | cmd _ _ | wdata _ _ _ | rpending _ | rdata _ _ | done => exact h.elim

/-- The responder writes nothing during the events, and is mute before, between and after them. -/
def Responder.Ignores (d : Responder) : List Event → Prop
  | [] => d.phase.Mute
  | e :: es => d.phase.Mute ∧ (d.next e).reg = d.reg ∧ (d.next e).Ignores es

section
variable {d : Responder} {es fs : List Event}

theorem Responder.Ignores.mute (h : d.Ignores es) : d.phase.Mute := by
  cases es with
  | nil => exact h
  | cons e es => exact h.1

theorem Responder.Ignores.append (hes : d.Ignores es) (hfs : (d.run es).Ignores fs) : d.Ignores (es ++ fs) := by
  induction es generalizing d with
  | nil => exact hfs
  | cons e es ih =>
    obtain ⟨hmute, hreg, hes⟩ := hes
    exact ⟨hmute, hreg, ih hes hfs⟩

theorem Responder.Ignores.take (h : d.Ignores es) (k : Nat) : d.Ignores (es.take k) := by
  induction es generalizing d k with
  | nil => rwa [List.take_nil]
  | cons e es ih =>
    obtain ⟨hmute, hreg, hes⟩ := h
    cases k with
    | zero => exact hmute
    | succ k => exact ⟨hmute, hreg, ih hes k⟩

theorem Responder.Ignores.run (h : d.Ignores es) : (d.run es).phase.Mute ∧ (d.run es).reg = d.reg := by
  induction es generalizing d with
  | nil => exact ⟨h, rfl⟩
  | cons e es ih =>
    obtain ⟨-, hreg, hes⟩ := h
    obtain ⟨hmute, hreg'⟩ := ih hes
    exact ⟨hmute, hreg'.trans hreg⟩

theorem Responder.answer_of_mute (h : d.phase.Mute) : d.answer = none := by
  unfold Responder.answer
  cases hp : d.phase <;> simp_all [Phase.Mute]

/-! ### Single events -/

/-- What an event can do to the phase and the registers. -/
inductive Responder.Reacts (d : Responder) (e : Event) (d' : Responder) : Prop where
  | stays (hp : d'.phase = d.phase) (hreg : d'.reg = d.reg)
  | rises (he : e = .setClk .high) (hp : d'.phase = d.rise.phase) (hreg : d'.reg = d.rise.reg)
  | falls (hp : d'.phase = d.phase.fallen) (hreg : d'.reg = d.reg)
  | breaks (hidle : d.phase ≠ .idle) (hp : d'.phase = .broken) (hreg : d'.reg = d.reg)
  | opens (he : e.drivesCe = true) (hp : d'.phase = .cmd 0 0) (hreg : d'.reg = d.reg)
  | closes (he : e.drivesCe = true) (hp : d'.phase = .idle) (hreg : d'.reg = d.reg)

theorem Responder.disturb_reacts (d : Responder) (e : Event) (l : Lines) : d.Reacts e { d.disturb with lines := l } := by
  unfold Responder.disturb
  split
  · exact .stays rfl rfl
  next h => exact .breaks h rfl rfl

theorem Responder.next_reacts (d : Responder) (e : Event) : d.Reacts e (d.next e) := by
  cases e with
  | setCe c =>
    cases c with
    | asserted => exact .opens rfl rfl rfl
    | deasserted => exact .closes rfl rfl rfl
  | setClk l =>
    cases l with
    | high =>
      simp only [Responder.next, Responder.react]
      split
      · exact .rises rfl rfl rfl
      · exact .stays rfl rfl
    | low =>
      simp only [Responder.next, Responder.react]
      split
      · exact .falls d.fall_phase d.fall_reg
      · exact .stays rfl rfl
  | setDio _ | dir _ | get _ | wait _ => exact .stays rfl rfl
  | fail p =>
    cases p with
    | setCe c => exact .closes rfl rfl rfl
    | setClk _ | setDio _ | dir _ => exact d.disturb_reacts _ _
    | get | wait _ => exact .stays rfl rfl

theorem Phase.Mute.fallen {p : Phase} (h : p.Mute) : p.fallen = p := by
  cases p with
  | idle | cmd _ _ | ignore | broken => rfl
  | wdata _ _ _ | rpending _ | rdata _ _ | done => exact h.elim

theorem Responder.rise_of_deaf (h : d.phase.Deaf) : d.rise = d := by
  unfold Responder.rise
  cases hp : d.phase <;> simp_all [Phase.Deaf]

/-- Only a rising edge makes the responder other than mute. -/
theorem Responder.next_mute {e : Event} (h : d.phase.Mute) (he : e ≠ .setClk .high) :
    (d.next e).phase.Mute ∧ (d.next e).reg = d.reg := by
  cases d.next_reacts e with
  | stays hp hreg => exact ⟨hp ▸ h, hreg⟩
  | rises he' _ _ => exact absurd he' he
  | falls hp hreg => exact ⟨by rwa [hp, h.fallen], hreg⟩
  | breaks _ hp hreg | opens _ hp hreg | closes _ hp hreg => exact ⟨hp ▸ trivial, hreg⟩

/-- What stays deaf on an event that does not drive CE, and where it was idle stays idle. -/
theorem Responder.next_deaf {e : Event} (h : d.phase.Deaf) (he : e.drivesCe = false) :
    (d.next e).phase.Deaf ∧ (d.next e).reg = d.reg ∧ (d.phase = .idle → (d.next e).phase = .idle) := by
  cases d.next_reacts e with
  | stays hp hreg => exact ⟨hp ▸ h, hreg, hp.trans⟩
  | rises _ hp hreg =>
    rw [Responder.rise_of_deaf h] at hp hreg
    exact ⟨hp ▸ h, hreg, hp.trans⟩
  | falls hp hreg =>
    rw [h.mute.fallen] at hp
    exact ⟨hp ▸ h, hreg, hp.trans⟩
  | breaks hidle hp hreg => exact ⟨hp ▸ trivial, hreg, fun h => absurd h hidle⟩
  | opens he' _ _ | closes he' _ _ => cases he.symm.trans he'

/-! ### After the command byte, and after the transaction -/

/-- A deaf responder ignores whatever happens while CE is not driven. -/
theorem Responder.ignores_of_deaf (h : d.phase.Deaf) (he : ∀ e ∈ es, e.drivesCe = false) :
    d.Ignores es ∧ (d.phase = .idle → (d.run es).phase = .idle) := by
  induction es generalizing d with
  | nil => exact ⟨h.mute, id⟩
  | cons e es ih =>
    obtain ⟨hdeaf, hreg, hidle⟩ := Responder.next_deaf h (he e List.mem_cons_self)
    obtain ⟨hes, hidle'⟩ := ih hdeaf fun e' he' => he e' (List.mem_cons_of_mem e he')
    exact ⟨⟨h.mute, hreg, hes⟩, fun hp => hidle' (hidle hp)⟩

theorem Responder.next_deassert (d : Responder) {e : Event} (he : e.prim = .setCe .deasserted) :
    (d.next e).phase = .idle ∧ (d.next e).reg = d.reg := by
  cases e with
  | setCe c => cases he; exact ⟨rfl, rfl⟩
  | fail p => cases he; exact ⟨rfl, rfl⟩
  | setClk _ | setDio _ | dir _ | get _ | wait _ => cases he

/-- The steps of a cleanup after the deassert do not drive CE. -/
theorem noCe_afterDeassert {l : Lines} {cs ds : List Event} {w : Event}
    (hcs : cs.map Event.prim = if l.clk ≠ .known .low then [.setClk .low] else [])
    (hds : ds.map Event.prim = if l.dir ≠ .known .output then [.dir .output] else []) (hw : w.prim = .wait .tCWH) :
    ∀ e ∈ cs ++ (ds ++ [w]), e.drivesCe = false := by
  intro e he
  have hprim : e.prim ∈ (cs ++ (ds ++ [w])).map Event.prim := List.mem_map_of_mem he
  rw [List.map_append, List.map_append, hcs, hds, List.map_singleton, hw, List.mem_append, List.mem_append,
    List.mem_ite_nil_right, List.mem_ite_nil_right, List.mem_singleton, List.mem_singleton, List.mem_singleton] at hprim
  rcases hprim with ⟨-, h⟩ | ⟨-, h⟩ | h <;> rw [Event.drivesCe, h]

/-- A cleanup, whatever of it fails, makes a mute responder idle. -/
theorem Responder.ignores_cleanup {l : Lines} (h : d.phase.Mute) (hfs : CleansUp l fs) :
    d.Ignores fs ∧ (d.run fs).phase = .idle := by
  obtain ⟨w, c, cs, ds, w', rfl, hw, hc, hcs, hds, hw'⟩ := hfs.cases
  obtain ⟨hmute, hreg⟩ := Responder.next_mute (e := w) h (by rintro rfl; cases hw)
  obtain ⟨hidle, hreg'⟩ := (d.next w).next_deassert hc
  obtain ⟨hrest, hidle'⟩ := Responder.ignores_of_deaf (d := (d.next w).next c) (hidle ▸ trivial)
    (noCe_afterDeassert hcs hds hw')
  exact ⟨⟨h, hreg, hmute, hreg', hrest⟩, hidle' hidle⟩

/-! ### The command byte -/

/-- A mute responder ignores events without a rising edge. -/
theorem Responder.ignores_of_noRise (h : d.phase.Mute) (he : ∀ e ∈ es, e ≠ .setClk .high) : d.Ignores es := by
  induction es generalizing d with
  | nil => exact h
  | cons e es ih =>
    obtain ⟨hmute, hreg⟩ := Responder.next_mute h (he e List.mem_cons_self)
    exact ⟨h, hreg, ih hmute fun e' he' => he e' (List.mem_cons_of_mem e he')⟩

theorem Responder.next_rise (hce : d.lines.ce = .known .asserted) (hclk : d.lines.clk = .known .low) :
    d.next (.setClk .high) = { d.rise with lines := d.lines.next (.setClk .high) } := by
  rw [Responder.next, Responder.react, if_pos ⟨hce, hclk⟩]

/-- A write bit cycle whose rise leaves the responder mute. -/
theorem Responder.ignores_writeBit (hmute : d.phase.Mute) (h : d.lines.Written) (b : Bool)
    (hrise : ∀ l : Lines, dioBit l = some b → ({ d with lines := l } : Responder).rise.phase.Mute ∧
      ({ d with lines := l } : Responder).rise.reg = d.reg) : d.Ignores (writeBitEvents b) := by
  obtain ⟨hmute', hreg⟩ := hrise _ (dioBit_driven h.dir b)
  refine Responder.Ignores.append (es := [.setDio (levelOf b), .wait .tDC]) ⟨hmute, rfl, hmute, rfl, hmute⟩ ?_
  have hnext := Responder.next_rise (d := d.run [.setDio (levelOf b), .wait .tDC]) h.ce h.clk
  refine ⟨hmute, ?_, Responder.ignores_of_noRise ?_ (by simp)⟩ <;> rw [hnext]
  · exact hreg
  · exact hmute'

/-- Bits before the last of a command byte. -/
theorem Responder.ignores_bits (bs : List Bool) {k : Nat} {sr : Byte} (hk : k + bs.length ≤ 7) (h : d.lines.Written)
    (hp : d.phase = .cmd k sr) : d.Ignores (bs.flatMap writeBitEvents) := by
  induction bs generalizing d k sr with
  | nil => rw [List.flatMap_nil, Responder.Ignores, hp]; trivial
  | cons b bs ih =>
    rw [List.length_cons] at hk
    have hk7 : k ≠ 7 := by omega
    rw [List.flatMap_cons]
    refine (Responder.ignores_writeBit (hp ▸ trivial) h b fun l hl => ?_).append
      (ih (k := k + 1) (by omega) ?_ (Responder.reaches_bit .command hk7 h hp b).1)
    · simp [Responder.rise, hp, hl, hk7, Phase.Mute]
    · have hwritten := h.replay [b]
      rwa [List.flatMap_singleton, ← Responder.run_lines] at hwritten

/-- A command byte of no clock register. -/
theorem Responder.ignores_command {c : Byte} (hc : afterCommand c = .ignore) (h : d.lines.Written)
    (hp : d.phase = .cmd 0 0) : d.Ignores (writeByteEvents c) ∧ (d.run (writeByteEvents c)).phase = .ignore := by
  obtain ⟨hphase, -⟩ := Responder.reaches_command c h hp
  rw [hc] at hphase
  obtain ⟨sr, ⟨hseven, hreg⟩, hsr⟩ := Responder.reaches_seven .command c h hp
  have hbits := Responder.ignores_bits ((bitsOf c).take 7) (Nat.le_refl 7) h hp
  rw [writeByteEvents_eq]
  refine ⟨hbits.append (Responder.ignores_writeBit hbits.run.1 ?_ _ fun l hl => ?_), hphase⟩
  · rw [Responder.run_lines]
    exact h.replay _
  · simp only [Responder.rise, hseven, hl, ↓reduceIte, hsr, hc]
    exact ⟨trivial, trivial⟩

/-! ### The transaction -/

theorem afterCommand_ignore {c : Byte} (hc : c.getLsbD 7 = false ∨ c.getLsbD 6 = true) : afterCommand c = .ignore := by
  revert c
  decide

/-- The part leaves the responder mute and with its registers, whether it returns or reports an error. -/
abbrev Responder.IgnoresPart {α : Type} (d : Responder) (s : State) (c : Called α) : Prop :=
  Ends True (fun _ => d.Ignores) (fun _ => d.Ignores) s c

/-- The command byte, whatever of it fails. -/
theorem Responder.ignores_shiftOut {c : Byte} {s : State} (hc : afterCommand c = .ignore) (hp : d.phase = .cmd 0 0)
    (hlines : d.lines = s.lines) (hs : s.InTransaction) :
    Ends True (fun _ es => es = writeByteEvents c) (fun _ => d.Ignores) s (shiftOut c s) :=
  Ends.guarded fun h => by
    obtain ⟨-, hdir, hclk⟩ := byteRefusals_eq_none h
    refine (driveBits_plays (bitsOf c) s).ends rfl fun k p _ => ?_
    have hcommand := ((Responder.ignores_command hc (hlines ▸ ⟨hs.ce, hclk, hdir⟩) hp).1).take k
    exact hcommand.append (Responder.ignores_of_noRise hcommand.run.1 (by simp))

/-- The rest of a body, after which the responder is still deaf. -/
theorem RunsInside.ignores {α : Type} {c : Called α} {s : State} (h : RunsInside s c) (hdeaf : d.phase.Deaf) :
    d.IgnoresPart s c :=
  h.mono (fun _ _ hes => (Responder.ignores_of_deaf hdeaf hes.noCe).1) fun e _ hes => by
    cases e with
    | pinFault ev => exact (Responder.ignores_of_deaf hdeaf (Broken.noCe hes)).1
    | invalidBcdDigit raw => exact (Responder.ignores_of_deaf hdeaf (Inside.noCe hes)).1

/-- A body whose first call writes a literal, as that call and the rest. -/
theorem runBody_writeFirst (c : Byte) (cs : List BodyCall) (rets : List Arg) (s : State) :
    runBody ⟨.writeByte (.lit c) :: cs, rets⟩ s = (shiftOut c s).andThen fun _ t =>
      (runBodyCalls [none] cs t).andThen fun results u => match argValues results rets with
        | some vs => .ok (bodyValue vs) u
        | none => .stopped .unboundName := by
  rw [runBody, runBodyCalls, runBodyCall, withArg, argValue, Called.andThen_assoc, Called.andThen_assoc]
  rfl

/-- A body whose first call writes a command byte. -/
theorem Responder.ignores_body {c : Byte} {s : State} (cs : List BodyCall) (rets : List Arg)
    (hc : afterCommand c = .ignore) (hp : d.phase = .cmd 0 0) (hlines : d.lines = s.lines) (hs : s.InTransaction)
    (hdir : s.dir = .known .output) : d.IgnoresPart s (runBody ⟨.writeByte (.lit c) :: cs, rets⟩ s) := by
  obtain ⟨hcommand, hphase⟩ := Responder.ignores_command hc (hlines ▸ ⟨hs.ce, hs.clk, hdir⟩ : d.lines.Written) hp
  rw [runBody_writeFirst]
  refine Ends.andThen (Responder.ignores_shiftOut hc hp hlines hs) fun _ es hes => ?_
  subst hes
  have ht : (s.after (writeByteEvents c)).InTransaction :=
    hs.after (inside_writeBits (bitsOf c) hs.ce hs.clk hdir)
  have hrest := (runBodyCalls_runsInside [none] cs ht).andThen ht (β := Value) (f := fun results u =>
    match argValues results rets with
      | some vs => .ok (bodyValue vs) u
      | none => .stopped .unboundName) fun results u hu => by
    split
    · exact RunsInside.pure hu
    · trivial
  exact (hrest.ignores (hphase ▸ trivial)).mono (fun _ _ hfs => hcommand.append hfs) fun _ _ hfs => hcommand.append hfs

/-- A transaction of such a body. -/
theorem Responder.ignores_frame {body : State → Called Value} {s : State} (hs : s.Idle) (hp : d.phase = .idle)
    (hbody : (d.run openEvents).IgnoresPart s.opened (body s.opened)) :
    Ends True (fun _ es => d.Ignores es ∧ (d.run es).phase = .idle)
      (fun _ es => d.Ignores es ∧ (d.run es).phase = .idle) s (frame body s) := by
  have hmute : d.phase.Mute := hp ▸ trivial
  have hopen {es : List Event} (h : (d.run openEvents).Ignores es) : d.Ignores (openEvents ++ es) :=
    (Responder.ignores_of_noRise hmute (by simp [openEvents])).append h
  have hclose {bs fs : List Event} (hbs : d.Ignores bs) (hfs : CleansUp (s.lines.replay bs) fs) :
      d.Ignores (bs ++ fs) ∧ (d.run (bs ++ fs)).phase = .idle := by
    obtain ⟨hcleanup, hidle⟩ := Responder.ignores_cleanup hbs.run.1 hfs
    exact ⟨hbs.append hcleanup, Responder.run_append d bs fs ▸ hidle⟩
  have hends := frame_ends (stop := True) (Ok := fun _ => d.Ignores) (Err := fun _ => d.Ignores) (body := body) hs.2.2.2
    (Responder.ignores_of_noRise hmute (by simp)) (Responder.ignores_of_noRise hmute (by simp))
    (hbody.mono (fun _ _ h => hopen h) fun _ _ h => hopen h)
  refine hends.mono ?_ ?_
  · rintro _ _ ⟨bs, fs, rfl, hbs, hfs, -⟩
    exact hclose hbs hfs
  · rintro e _ ⟨bs, fs, rfl, hfs, hbs | ⟨_, _, hbs, -⟩⟩
    · exact hclose hbs hfs
    · exact hclose hbs hfs

end

/-- Settles O58: after the command byte no event but those of CE is heeded, and the cleanup begins with those. -/
theorem responderIgnoresOtherCommands : Obligations.ResponderIgnoresOtherCommands := by
  intro c cs rets s t es d hs hp hlines hc hexec htrace
  have hbody := Responder.ignores_body (d := d.run openEvents) cs rets (afterCommand_ignore hc) rfl
    (by rw [Responder.run_lines, hlines]; rfl) hs.opened hs.2.2.1
  have hends : Ends True (fun _ es => d.Ignores es ∧ (d.run es).phase = .idle)
      (fun _ es => d.Ignores es ∧ (d.run es).phase = .idle) s
      (operation (.transaction ⟨.writeByte (.lit c) :: cs, rets⟩) s) :=
    Ends.guarded fun _ => by
      split
      · exact Responder.ignores_frame hs hp hbody
      · trivial
  have hkept (r : Result) (h : d.Ignores es ∧ (d.run es).phase = .idle) : (d.run es).reg = d.reg ∧
      (d.run es).phase = .idle ∧ (d.run es).lines = ((s.after es).setOutcome r).lines ∧
      ∀ k, (d.run (es.take k)).answer = none :=
    ⟨h.1.run.2, h.2, Responder.lines_after hlines es r, fun k => Responder.answer_of_mute (h.1.take k).run.1⟩
  rcases hends.exec hexec (by simp) with ⟨v, fs, rfl, hfs⟩ | ⟨e, fs, rfl, hfs⟩ | ⟨r, rfl⟩
  · obtain rfl := List.append_cancel_left htrace
    exact hkept (.ok v) hfs
  · obtain rfl := List.append_cancel_left htrace
    exact hkept (.err e) hfs
  · obtain rfl := List.append_cancel_left (htrace.symm.trans (List.append_nil _).symm)
    exact ⟨rfl, hp, hlines, fun k => by rw [List.take_nil]; exact Responder.answer_of_mute (hp ▸ trivial)⟩

end Sys2Proof.Machine
end

section
/-! PROOFS. The recorded data level decides nothing (10_state.md R24): from two states that differ in no other field every
operation ends alike. -/

namespace Sys2Proof.Machine

/-! ### States and ends but for the data level -/

/-- The state without its record of the data level. -/
def State.blind (s : State) : State := { s with dout := .unknown }

theorem State.eq_of_blind {s t : State} (h : s.blind = t.blind) : ∃ l, t = { s with dout := l } := by
  simp only [State.blind, State.mk.injEq] at h
  exact ⟨t.dout, State.eq_of_lines (by simp [State.lines, h]) (by simp [h]) (by simp [h]) (by simp [h]) (by simp [h])
    (by simp [h]) (by simp [h]) (by simp [h]) (by simp [h])⟩

/-- Two parts end alike, but for that record. -/
inductive Called.Alike {α : Type} : Called α → Called α → Prop where
  | ok (a : α) {s t : State} (h : s.blind = t.blind) : Called.Alike (.ok a s) (.ok a t)
  | err (e : Error) {s t : State} (h : s.blind = t.blind) : Called.Alike (.err e s) (.err e t)
  | refused (r : Reason) : Called.Alike (.refused r) (.refused r)
  | stopped (r : Refusal) : Called.Alike (.stopped r) (.stopped r)

/-- From states that differ in the data level only, the part ends alike. -/
def IgnoresDout {α : Type} (f : State → Called α) : Prop := ∀ s t, s.blind = t.blind → (f s).Alike (f t)

section
variable {α β : Type}

theorem Called.Alike.andThen {c c' : Called α} {g : α → State → Called β} (h : c.Alike c')
    (hg : ∀ a, IgnoresDout (g a)) : (c.andThen g).Alike (c'.andThen g) := by
  cases h with
  | ok a h => exact hg a _ _ h
  | err e h => exact .err e h
  | refused r => exact .refused r
  | stopped r => exact .stopped r

theorem IgnoresDout.andThen {f : State → Called α} {g : α → State → Called β} (hf : IgnoresDout f)
    (hg : ∀ a, IgnoresDout (g a)) : IgnoresDout fun s => (f s).andThen g :=
  fun s t h => (hf s t h).andThen hg

theorem Called.Alike.map {c c' : Called α} (h : c.Alike c') (g : α → β) : (c.map g).Alike (c'.map g) := by
  cases h with
  | ok a h => exact .ok (g a) h
  | err e h => exact .err e h
  | refused r => exact .refused r
  | stopped r => exact .stopped r

theorem IgnoresDout.map {f : State → Called α} (hf : IgnoresDout f) (g : α → β) : IgnoresDout fun s => (f s).map g :=
  fun s t h => (hf s t h).map g

theorem IgnoresDout.ok (a : α) : IgnoresDout (.ok a) := fun _ _ h => .ok a h

theorem IgnoresDout.err (e : Error) : IgnoresDout (α := α) (.err e) := fun _ _ h => .err e h

theorem IgnoresDout.stopped (r : Refusal) : IgnoresDout (α := α) fun _ => .stopped r := fun _ _ _ => .stopped r

theorem IgnoresDout.refused (r : Reason) : IgnoresDout (α := α) fun _ => .refused r := fun _ _ _ => .refused r

theorem IgnoresDout.guarded {checks : State → List (Bool × Reason)} {f : State → Called α}
    (hchecks : ∀ s l, checks { s with dout := l } = checks s) (hf : IgnoresDout f) :
    IgnoresDout fun s => guarded (checks s) (f s) := by
  intro s t h
  obtain ⟨l, rfl⟩ := State.eq_of_blind h
  simp only [Sys2Proof.Machine.guarded, hchecks]
  split
  · exact .refused _
  · exact hf _ _ h

/-! ### The transport -/

theorem perform_ignoresDout (p : Prim) : IgnoresDout fun s => (perform p s).called := by
  intro s t h
  obtain ⟨l, rfl⟩ := State.eq_of_blind h
  have hfails : primFails p { s with dout := l } = primFails p s := by cases p <;> rfl
  simp only [perform, hfails]
  split
  · exact .err _ (by cases p <;> rfl)
  · exact .ok _ (by cases p <;> rfl)

theorem performAll_ignoresDout (ps : List Prim) : IgnoresDout fun s => (performAll ps s).called := by
  induction ps with
  | nil => exact .ok ()
  | cons p ps ih =>
    simp only [performAll, Ran.called_andThen]
    exact (perform_ignoresDout p).andThen fun _ => ih

theorem driveBits_ignoresDout (bs : List Bool) : IgnoresDout fun s => (driveBits bs s).called := by
  induction bs with
  | nil => exact .ok ()
  | cons b bs ih =>
    simp only [driveBits, Ran.called_andThen]
    exact (performAll_ignoresDout _).andThen fun _ => ih

theorem sampleBit_ignoresDout : IgnoresDout fun s => (sampleBit s).called := by
  simp only [sampleBit, Ran.called_andThen]
  exact (perform_ignoresDout .get).andThen fun b => (performAll_ignoresDout _).andThen fun _ => .ok b

theorem sampleBits_ignoresDout (n : Nat) : IgnoresDout fun s => (sampleBits n s).called := by
  induction n with
  | zero => exact .ok []
  | succ n ih =>
    simp only [sampleBits, Ran.called_andThen]
    exact sampleBit_ignoresDout.andThen fun b => ih.andThen fun bs => .ok (b :: bs)

theorem shiftOut_ignoresDout (v : Byte) : IgnoresDout (shiftOut v) :=
  .guarded (fun _ _ => rfl) (driveBits_ignoresDout _)

theorem shiftIn_ignoresDout : IgnoresDout shiftIn := by
  refine .guarded (fun _ _ => rfl) ?_
  simp only [Ran.called_andThen]
  exact (sampleBits_ignoresDout 8).andThen fun bs => .ok (byteOf bs)

theorem setDirection_ignoresDout (d : Direction) : IgnoresDout (setDirection d) :=
  .guarded (fun _ _ => rfl) (performAll_ignoresDout _)

/-- The first failure, if any, and the state of two ends that differ in the data level only. -/
def EndAlike {β : Type} (x y : Option β × State) : Prop := x.1 = y.1 ∧ x.2.blind = y.2.blind

theorem attemptAll_alike {needed : Prim → State → Bool} (hneeded : ∀ p s l, needed p { s with dout := l } = needed p s)
    (ps : List Prim) {s t : State} (h : s.blind = t.blind) : EndAlike (attemptAll needed ps s) (attemptAll needed ps t) := by
  induction ps generalizing s t with
  | nil => exact ⟨rfl, h⟩
  | cons p ps ih =>
    have hperform : (perform p s).called.Alike (perform p t).called := perform_ignoresDout p s t h
    have hneeds : needed p t = needed p s := by
      obtain ⟨l, rfl⟩ := State.eq_of_blind h
      exact hneeded p s l
    rw [attemptAll, attemptAll, hneeds]
    split
    · generalize perform p s = r, perform p t = r' at hperform
      cases r <;> cases r' <;> cases hperform
      case ok.ok.ok h => exact ih h
      case fault.fault.err h => exact ⟨rfl, (ih h).2⟩
    · exact ih h

theorem cleanup_alike (first : Option Error) {s t : State} (h : s.blind = t.blind) :
    EndAlike (cleanup first s) (cleanup first t) := by
  have hneeded (p : Prim) (s : State) (l : Line Level) : cleanupNeeds p { s with dout := l } = cleanupNeeds p s := by
    cases p <;> rfl
  obtain ⟨hfirst, hend⟩ := attemptAll_alike hneeded
    [.wait .tCCH, .setCe .deasserted, .setClk .low, .dir .output, .wait .tCWH] (s := s.setTxn false) (t := t.setTxn false)
    (congrArg (State.setTxn · false) h)
  cases first with
  | some e => exact ⟨rfl, hend⟩
  | none => exact ⟨congrArg (fun o : Option Event => o.map Error.pinFault) hfirst, hend⟩

theorem initLines_ignoresDout : IgnoresDout initLines := by
  refine .guarded (fun _ _ => rfl) fun s t h => ?_
  have halike := attemptAll_alike (needed := fun _ _ => true) (fun _ _ _ => rfl)
    [.setCe .deasserted, .setClk .low, .dir .output, .wait .tCWH] h
  revert halike
  generalize attemptAll _ _ s = x, attemptAll _ _ t = y
  obtain ⟨o, u⟩ := x
  obtain ⟨o', u'⟩ := y
  rintro ⟨rfl, h⟩
  cases o with
  | none => exact .ok () h
  | some ev => exact .err _ h

theorem closeFrame_ignoresDout (a : α) : IgnoresDout (closeFrame a) := by
  intro s t h
  have halike := cleanup_alike none h
  unfold closeFrame
  revert halike
  generalize cleanup none s = x, cleanup none t = y
  obtain ⟨o, u⟩ := x
  obtain ⟨o', u'⟩ := y
  rintro ⟨rfl, h⟩
  cases o with
  | none => exact .ok a h
  | some e => exact .err e h

theorem Called.Alike.closing {c c' : Called α} (h : c.Alike c') : (closing c).Alike (closing c') := by
  cases h with
  | ok a h => exact closeFrame_ignoresDout a _ _ h
  | err e h => exact .err e (cleanup_alike (some e) h).2
  | refused r => exact .stopped _
  | stopped r => exact .stopped r

theorem Called.Alike.closed {c c' : Called α} (h : c.Alike c') : c.closed.Alike c'.closed := by
  cases h with
  | ok a h => exact .ok a (congrArg (State.setTxn · false) h)
  | err e h => exact .err e (congrArg (State.setTxn · false) h)
  | refused r => exact .refused r
  | stopped r => exact .stopped r

theorem frame_ignoresDout {body : State → Called α} (hbody : IgnoresDout body) : IgnoresDout (frame body) := by
  have hopen : IgnoresDout (openThen body) := (perform_ignoresDout (.setCe .asserted)).andThen fun _ s t h =>
    ((perform_ignoresDout (.wait .tCC)).andThen fun _ => hbody) _ _ (congrArg (State.setTxn · true) h)
  intro s t h
  rw [frame_eq_closing, frame_eq_closing]
  exact (hopen s t h).closed.closing

/-! ### BCD, bodies and whole operations -/

theorem decodeField_ignoresDout (r b : Byte) : IgnoresDout (decodeField r b) := by
  intro s t h
  cases hd : decodeDigits b with
  | none => rw [decodeField_of_none hd, decodeField_of_none hd]; exact .err _ h
  | some v => rw [decodeField_of_some hd, decodeField_of_some hd]; exact .ok v h

theorem encodeField_ignoresDout (v : Byte) : IgnoresDout (encodeField v) := .guarded (fun _ _ => rfl) (.ok _)

theorem withArg_ignoresDout (results : List (Option Byte)) (a : Arg) {f : Byte → State → Called α}
    (hf : ∀ b, IgnoresDout (f b)) : IgnoresDout fun s => withArg results a fun b => f b s := by
  unfold withArg
  cases argValue results a with
  | none => exact .stopped _
  | some v => exact hf v

theorem runBodyCall_ignoresDout (results : List (Option Byte)) (c : BodyCall) : IgnoresDout (runBodyCall results c) := by
  cases c with
  | writeByte v => exact withArg_ignoresDout results v fun b => (shiftOut_ignoresDout b).andThen fun _ => .ok none
  | readByte => exact shiftIn_ignoresDout.andThen fun b => .ok (some b)
  | setDataDirection d => exact (setDirection_ignoresDout d).andThen fun _ => .ok none
  | decodeBcd raw =>
    exact withArg_ignoresDout results raw fun b => (decodeField_ignoresDout b b).andThen fun v => .ok (some v)
  | encodeBcd v => exact withArg_ignoresDout results v fun b => (encodeField_ignoresDout b).andThen fun w => .ok (some w)
  | barred op => exact .refused _

theorem runBodyCalls_ignoresDout (results : List (Option Byte)) (cs : List BodyCall) :
    IgnoresDout (runBodyCalls results cs) := by
  induction cs generalizing results with
  | nil => exact .ok results
  | cons c cs ih => exact (runBodyCall_ignoresDout results c).andThen fun r => ih _

theorem runBody_ignoresDout (b : Body) : IgnoresDout (runBody b) := by
  refine (runBodyCalls_ignoresDout [] b.calls).andThen fun results => ?_
  cases argValues results b.returns with
  | none => exact .stopped _
  | some vs => exact .ok _

theorem runTransaction_ignoresDout (b : Body) : IgnoresDout (runTransaction b) := by
  refine .guarded (fun _ _ => rfl) ?_
  cases b.bound with
  | false => exact .stopped _
  | true => exact frame_ignoresDout (runBody_ignoresDout b)

theorem readRegister_ignoresDout (a : Nat) : IgnoresDout (readRegister a) :=
  .guarded (fun _ _ => rfl) (frame_ignoresDout ((shiftOut_ignoresDout _).andThen fun _ =>
    (setDirection_ignoresDout .input).andThen fun _ => shiftIn_ignoresDout))

theorem writeRegister_ignoresDout (a : Nat) (v : Byte) : IgnoresDout (writeRegister a v) :=
  .guarded (fun _ _ => rfl) (frame_ignoresDout ((shiftOut_ignoresDout _).andThen fun _ => shiftOut_ignoresDout v))

theorem readField_ignoresDout (a : Nat) (field : Byte → Byte) (value : Byte → Byte → Value) :
    IgnoresDout (readField a field value) :=
  (readRegister_ignoresDout a).andThen fun raw =>
    (decodeField_ignoresDout raw (field raw)).andThen fun v => .ok (value raw v)

theorem writeField_ignoresDout (a : Nat) (inRange : Bool) (data : Byte) : IgnoresDout (writeField a inRange data) :=
  .guarded (fun _ _ => rfl) (writeRegister_ignoresDout a data)

theorem operation_ignoresDout (i : Instr) : IgnoresDout (operation i) := by
  cases i with
  | init => exact initLines_ignoresDout.map _
  | setDataDirection d => exact (setDirection_ignoresDout d).map _
  | writeByte v => exact (shiftOut_ignoresDout v).map _
  | readByte => exact shiftIn_ignoresDout.map _
  | transaction b => exact runTransaction_ignoresDout b
  | readRegister a => exact (readRegister_ignoresDout a).map _
  | writeRegister a v => exact (writeRegister_ignoresDout a v).map _
  | decodeBcd b => exact (decodeField_ignoresDout b b).map _
  | encodeBcd v => exact (encodeField_ignoresDout v).map _
  | readSeconds | readMinutes | readHours => exact readField_ignoresDout _ _ _
  | writeSeconds v ch => exact (writeField_ignoresDout 0 _ _).map _
  | writeMinutes v => exact (writeField_ignoresDout 1 _ _).map _
  | writeHours v m => exact (writeField_ignoresDout 2 _ _).map _
  | ignoredCommand x => exact .ok Value.unit
  | ramWriteCommand a | ramReadCommand a => exact .stopped _

end

/-! ### Refusals and stops -/

/-- A state is that of a refusal where it is marked as refused and its outcome is that refusal. -/
theorem eq_refuse_iff {s : State} {r : Reason} : s = s.refuse r ↔ s.outcome = some (.refused r) ∧ s.refused = true := by
  refine ⟨fun h => ⟨congrArg State.outcome h, congrArg State.refused h⟩, fun ⟨hout, hmark⟩ => ?_⟩
  exact State.eq_of_lines rfl rfl rfl rfl hmark rfl rfl hout rfl

theorem finish_eq_refuse {s : State} {c : Called Value} {r : Reason} :
    finish id s c = .next (s.refuse r) ↔ c = .refused r := by
  refine ⟨fun h => ?_, fun h => by rw [h]; rfl⟩
  cases c with
  | ok v t | err e t =>
    injection h with h
    cases congrArg State.outcome h
  | refused r' =>
    injection h with h
    cases congrArg State.outcome h
    rfl
  | stopped r' => cases h

theorem finish_eq_stop {s : State} {c : Called Value} {r : Refusal} : finish id s c = .refused r ↔ c = .stopped r := by
  refine ⟨fun h => ?_, fun h => by rw [h]; rfl⟩
  cases c with
  | ok v t | err e t | refused r' => cases h
  | stopped r' => cases h; rfl

theorem Called.Alike.refused_iff {c c' : Called Value} (h : c.Alike c') (r : Reason) :
    c = .refused r ↔ c' = .refused r := by
  cases h <;> simp

theorem Called.Alike.stopped_iff {c c' : Called Value} (h : c.Alike c') (r : Refusal) :
    c = .stopped r ↔ c' = .stopped r := by
  cases h <;> simp

/-- Settles O53: from two states that differ in the data level only, an operation ends alike. -/
theorem doutNeverRefuses : Obligations.DoutNeverRefuses := by
  intro i s l
  by_cases hi : ∃ x, i = .ignoredCommand x
  · obtain ⟨x, rfl⟩ := hi
    have hnext (s : State) : exec (.ignoredCommand x) s = .next s := rfl
    simp only [hnext, Host.Outcome.next.injEq, eq_refuse_iff, reduceCtorEq, implies_true, and_true]
  · rw [not_exists] at hi
    have halike := operation_ignoresDout i s { s with dout := l } rfl
    rw [exec_eq_finish hi, exec_eq_finish hi]
    exact ⟨fun r => finish_eq_refuse.trans ((halike.refused_iff r).trans finish_eq_refuse.symm),
      fun r => finish_eq_stop.trans ((halike.stopped_iff r).trans finish_eq_stop.symm)⟩

end Sys2Proof.Machine
end
